-- ==== Sys2Proof/Word.lean ====
section
/-! DEFINITION. The word types of the machine (00_scope.md R10, R12). -/

namespace Sys2Proof

/-- A byte of memory or of the instruction stream (20_memory.md R50). -/
abbrev Byte := BitVec 8

/-- One 32-bit element of a packed operand (00_scope.md R9). -/
abbrev Elem := BitVec 32

/-- A vector value. A register of MAXVL bits is held in 512 bits (10_state.md R20). -/
abbrev Vec := BitVec 512

/-- A general register or an effective address, zero-extended (10_state.md R30, 20_memory.md R60). -/
abbrev Addr := BitVec 64

/-- An opmask register, zero-extended (10_state.md R27). -/
abbrev Mask := BitVec 64

end Sys2Proof
end

