-- ==== Sys2Proof/Config.lean ====
section
/-! DEFINITION. What an implementation fixes: the names of the modes, classes and lengths, the parameters of
00_scope.md R8, and the choices the spec leaves open (opaque constants, so that no proof can see their values). -/

namespace Sys2Proof

/-- The operating mode, `MODE` (30_encoding.md R81). -/
inductive Mode
  | mode64
  | compat32
  | prot32
  | prot16
  | real
  | v86
  deriving DecidableEq, Repr, Inhabited

/-- A vector length in bits (00_scope.md R9); also the values of MAXVL (R7). -/
inductive VecLen
  | l128
  | l256
  | l512
  deriving DecidableEq, Repr, Inhabited

/-- VL (00_scope.md R9). -/
def VecLen.bits : VecLen → Nat
  | .l128 => 128
  | .l256 => 256
  | .l512 => 512

/-- The size of a memory operand in bytes, m128, m256, m512 (00_scope.md R9). -/
def VecLen.bytes : VecLen → Nat
  | .l128 => 16
  | .l256 => 32
  | .l512 => 64

/-- KL, the number of 32-bit elements (00_scope.md R9). -/
def VecLen.elems : VecLen → Nat
  | .l128 => 4
  | .l256 => 8
  | .l512 => 16

/-- The encoding class of an instruction (10_state.md R22, 60_exceptions.md R186). -/
inductive EncClass
  | legacy
  | vex
  | evex
  deriving DecidableEq, Repr, Inhabited

/-- Which ModR/M operand is written (30_encoding.md R89): `load` is opcode 10H, which writes ModRM:reg, and `store`
is opcode 11H, which writes ModRM:r/m (register or memory). -/
inductive Direction
  | load
  | store
  deriving DecidableEq, Repr, Inhabited

/-- The kind of a data access (20_memory.md R62, R63). -/
inductive AccessKind
  | read
  | write
  deriving DecidableEq, Repr, Inhabited

/-- The segment registers (10_state.md R31). -/
inductive SegReg
  | es
  | cs
  | ss
  | ds
  | fs
  | gs
  deriving DecidableEq, Repr, Inhabited

/-- AC_POLICY (60_exceptions.md R186). -/
inductive AcPolicy
  | never
  | always
  | either
  deriving DecidableEq, Repr, Inhabited

/-- AC_GRANULE, the alignment #AC tests, in bytes (00_scope.md R8). -/
inductive Granule
  | g4
  | g16
  | g32
  | g64
  deriving DecidableEq, Repr, Inhabited

/-- The granule in bytes. -/
def Granule.bytes : Granule → Nat
  | .g4 => 4
  | .g16 => 16
  | .g32 => 32
  | .g64 => 64

/-- LA_BITS, the width of a canonical linear address (00_scope.md R8). -/
inductive LaBits
  | la48
  | la57
  deriving DecidableEq, Repr, Inhabited

/-- LA_BITS as a number. -/
def LaBits.bits : LaBits → Nat
  | .la48 => 48
  | .la57 => 57

/-- K_WIDTH, the width of an opmask register (00_scope.md R8). -/
inductive KWidth
  | k16
  | k64
  deriving DecidableEq, Repr, Inhabited

/-- K_WIDTH as a number. -/
def KWidth.bits : KWidth → Nat
  | .k16 => 16
  | .k64 => 64

/-- The parameters of 00_scope.md R8 that are fixed for the machine, held as data in `State`, so that a statement about
every state is a statement about every machine. -/
structure Params where
  /-- MAXVL (00_scope.md R7). -/
  maxvl : VecLen
  /-- CPUID flag SSE (00_scope.md R2). -/
  hasSse : Bool
  /-- CPUID flag AVX. -/
  hasAvx : Bool
  /-- CPUID flag AVX512F. -/
  hasAvx512f : Bool
  /-- CPUID flag AVX512VL. -/
  hasAvx512vl : Bool
  /-- LA_BITS. -/
  laBits : LaBits
  /-- K_WIDTH. -/
  kWidth : KWidth
  /-- AC_POLICY of the Legacy SSE class (60_exceptions.md R186). -/
  acLegacy : AcPolicy
  /-- AC_POLICY of the VEX class. -/
  acVex : AcPolicy
  /-- AC_POLICY of the EVEX class. -/
  acEvex : AcPolicy
  deriving DecidableEq, Repr

/-- MAXVL as 00_scope.md R7 ties it to the flags: 512 with AVX512F, 256 with AVX alone, else 128. -/
def Params.tiedMaxvl (p : Params) : VecLen :=
  if p.hasAvx512f then .l512 else if p.hasAvx then .l256 else .l128

/-- MAXVL and the CPUID flags are consistent, so that every form the flags enable has VL at most MAXVL (00_scope.md R7). -/
def Params.consistent (p : Params) : Bool := p.maxvl == p.tiedMaxvl

/-- The defaults 00_scope.md R8 recommends (DESIGN CHOICE, log 11). -/
def Params.defaults : Params where
  maxvl := .l512
  hasSse := true
  hasAvx := true
  hasAvx512f := true
  hasAvx512vl := true
  laBits := .la48
  kWidth := .k64
  acLegacy := .either
  acVex := .either
  acEvex := .either

/-- AC_GRANULE of each form: open (00_scope.md R8, 60_exceptions.md R186). A free value of the implementation (log 16). -/
opaque Config.acGranule : EncClass → VecLen → Direction → Granule

/-- The environment's choice under `AC_POLICY = Either`, per draw: true raises #AC (60_exceptions.md R186; log 16). -/
opaque Config.acRaises : Nat → Bool

/-- When #AC and #PF both apply, true reports #AC (60_exceptions.md R191; log 17). -/
opaque Config.acBeforePf : Nat → Bool

/-- Which of the accessed bytes in faulting pages is reported in CR2 (60_exceptions.md R190, R191; log 17). -/
opaque Config.pfChoice : Nat → Nat

/-- In `Mode64`, whether a non-canonical address is reported as #SS(0) when the ignored override (first argument) and the
default segment (second) are not both SS and not both another segment (93_implementation_defined.md U16; log 19). -/
opaque Config.overrideReportsStack : SegReg → SegReg → Bool

end Sys2Proof
end

