-- ==== Sys2Proof/Syntax.lean ====
section
/-! DEFINITION. The instructions as syntax: one constructor of `Instr` per row of spec/opcode_table.json. A term keeps every
bit of the encoding that is no fixed bit of its row (30_encoding.md R83 to R108), so that its length and all its exception
conditions can be read from it. -/

namespace Sys2Proof

/-- The repeat prefixes, one group (30_encoding.md R83). -/
inductive Rep
  | f2
  | f3
  deriving DecidableEq, Repr, Inhabited

/-- The legacy prefixes of an instruction, at most one of each group (30_encoding.md R83). -/
structure Prefixes where
  /-- F0H. -/
  lock : Bool
  /-- F2H or F3H. -/
  rep : Option Rep
  /-- A segment override: 26H, 2EH, 36H, 3EH, 64H, 65H. -/
  seg : Option SegReg
  /-- 66H. -/
  opSize : Bool
  /-- 67H. -/
  addrSize : Bool
  deriving DecidableEq, Repr, Inhabited

/-- A REX byte, 0100WRXB (30_encoding.md R84). -/
structure Rex where
  w : Bool
  r : Bool
  x : Bool
  b : Bool
  deriving DecidableEq, Repr, Inhabited

/-- The payload of a two-byte VEX prefix, bits as they stand in the byte (30_encoding.md R94). -/
structure Vex2 where
  rInv : Bool
  vvvv : BitVec 4
  deriving DecidableEq, Repr, Inhabited

/-- The payload of a three-byte VEX prefix, bits as they stand in the bytes (30_encoding.md R95). -/
structure Vex3 where
  rInv : Bool
  xInv : Bool
  bInv : Bool
  w : Bool
  vvvv : BitVec 4
  deriving DecidableEq, Repr, Inhabited

/-- The payload of an EVEX prefix, bits as they stand in the bytes (30_encoding.md R100). -/
structure Evex where
  rInv : Bool
  xInv : Bool
  bInv : Bool
  rpInv : Bool
  /-- P0[3:2]. -/
  p0res : BitVec 2
  w : Bool
  vvvv : BitVec 4
  /-- P1[2]. -/
  p1fixed : Bool
  z : Bool
  /-- P2[4]. -/
  b : Bool
  /-- P2[3], the complement of bit 4 of the vvvv register number. -/
  vpInv : Bool
  aaa : BitVec 3
  deriving DecidableEq, Repr, Inhabited

/-- A SIB byte (30_encoding.md R88). -/
structure Sib where
  scale : BitVec 2
  index : BitVec 3
  base : BitVec 3
  deriving DecidableEq, Repr, Inhabited

/-- A displacement as it stands in the instruction (30_encoding.md R92). -/
inductive Disp
  | none
  | d8 (d : BitVec 8)
  | d16 (d : BitVec 16)
  | d32 (d : BitVec 32)
  deriving DecidableEq, Repr, Inhabited

/-- The values of ModRM.mod that name memory (30_encoding.md R87). -/
inductive MemMod
  | m00
  | m01
  | m10
  deriving DecidableEq, Repr, Inhabited

/-- A memory operand as encoded (30_encoding.md R87 to R92). -/
structure MemOperand where
  mod : MemMod
  rm : BitVec 3
  sib : Option Sib
  disp : Disp
  deriving DecidableEq, Repr, Inhabited

/-- The ModRM:r/m operand: a register (mod = 11) or memory (30_encoding.md R87). -/
inductive RmOperand
  | reg (rm : BitVec 3)
  | mem (m : MemOperand)
  deriving DecidableEq, Repr, Inhabited

/-- The ModR/M byte with what follows it (30_encoding.md R87). -/
structure ModRM where
  /-- ModRM.reg, the low three bits of the register operand. -/
  reg : BitVec 3
  rm : RmOperand
  deriving DecidableEq, Repr, Inhabited

/-- The instructions. `load` names opcode 10H and `store` opcode 11H (30_encoding.md R89, R110). -/
inductive Instr
  /-- `NP 0F 10 /r MOVUPS xmm1, xmm2/m128` (R130). -/
  | movupsLoad (p : Prefixes) (rex : Option Rex) (m : ModRM)
  /-- `NP 0F 11 /r MOVUPS xmm2/m128, xmm1` (R131). -/
  | movupsStore (p : Prefixes) (rex : Option Rex) (m : ModRM)
  /-- `VEX.128.0F.WIG 10 /r VMOVUPS xmm1, xmm2/m128`, two-byte prefix (R140). -/
  | vex2Load128 (p : Prefixes) (rex : Option Rex) (v : Vex2) (m : ModRM)
  /-- The same, three-byte prefix (R140). -/
  | vex3Load128 (p : Prefixes) (rex : Option Rex) (v : Vex3) (m : ModRM)
  /-- `VEX.128.0F.WIG 11 /r VMOVUPS xmm2/m128, xmm1`, two-byte prefix (R141). -/
  | vex2Store128 (p : Prefixes) (rex : Option Rex) (v : Vex2) (m : ModRM)
  /-- The same, three-byte prefix (R141). -/
  | vex3Store128 (p : Prefixes) (rex : Option Rex) (v : Vex3) (m : ModRM)
  /-- `VEX.256.0F.WIG 10 /r VMOVUPS ymm1, ymm2/m256`, two-byte prefix (R142). -/
  | vex2Load256 (p : Prefixes) (rex : Option Rex) (v : Vex2) (m : ModRM)
  /-- The same, three-byte prefix (R142). -/
  | vex3Load256 (p : Prefixes) (rex : Option Rex) (v : Vex3) (m : ModRM)
  /-- `VEX.256.0F.WIG 11 /r VMOVUPS ymm2/m256, ymm1`, two-byte prefix (R143). -/
  | vex2Store256 (p : Prefixes) (rex : Option Rex) (v : Vex2) (m : ModRM)
  /-- The same, three-byte prefix (R143). -/
  | vex3Store256 (p : Prefixes) (rex : Option Rex) (v : Vex3) (m : ModRM)
  /-- `EVEX.128.0F.W0 10 /r VMOVUPS xmm1 k1 z, xmm2/m128` (R154). -/
  | evexLoad128 (p : Prefixes) (rex : Option Rex) (v : Evex) (m : ModRM)
  /-- `EVEX.256.0F.W0 10 /r VMOVUPS ymm1 k1 z, ymm2/m256` (R155). -/
  | evexLoad256 (p : Prefixes) (rex : Option Rex) (v : Evex) (m : ModRM)
  /-- `EVEX.512.0F.W0 10 /r VMOVUPS zmm1 k1 z, zmm2/m512` (R156). -/
  | evexLoad512 (p : Prefixes) (rex : Option Rex) (v : Evex) (m : ModRM)
  /-- `EVEX.128.0F.W0 11 /r VMOVUPS xmm2/m128 k1 z, xmm1` (R157). -/
  | evexStore128 (p : Prefixes) (rex : Option Rex) (v : Evex) (m : ModRM)
  /-- `EVEX.256.0F.W0 11 /r VMOVUPS ymm2/m256 k1 z, ymm1` (R158). -/
  | evexStore256 (p : Prefixes) (rex : Option Rex) (v : Evex) (m : ModRM)
  /-- `EVEX.512.0F.W0 11 /r VMOVUPS zmm2/m512 k1 z, zmm1` (R159). -/
  | evexStore512 (p : Prefixes) (rex : Option Rex) (v : Evex) (m : ModRM)
  deriving DecidableEq, Repr, Inhabited

/-- The size of a displacement (30_encoding.md R92). -/
inductive DispSize
  | s0
  | s8
  | s16
  | s32
  deriving DecidableEq, Repr, Inhabited

/-- The address size `asz` (30_encoding.md R81). -/
inductive AddrSize
  | a16
  | a32
  | a64
  deriving DecidableEq, Repr, Inhabited

end Sys2Proof
end

