-- ==== Sys2Proof/Machine/Addressing.lean ====
section
/-! DEFINITION. How the mode, the prefixes and ModR/M decide the address size and the shape of an instruction, and how many
bytes it has (30_encoding.md R81, R82, R88, R114). -/

namespace Sys2Proof.Machine

/-- `asz` in bits. -/
def asizeBits : AddrSize → Nat
  | .a16 => 16
  | .a32 => 32
  | .a64 => 64

/-- The address size from the mode and the 67H prefix (30_encoding.md R81). -/
def addrSize (m : Mode) (p67 : Bool) : AddrSize :=
  match m with
  | .mode64 => if p67 then .a32 else .a64
  | .compat32 => if p67 then .a16 else .a32
  | .prot32 => if p67 then .a16 else .a32
  | .prot16 => if p67 then .a32 else .a16
  | .real => if p67 then .a32 else .a16
  | .v86 => if p67 then .a32 else .a16

/-- A SIB byte is present: `asz` is 32 or 64 and rm = 100 (30_encoding.md R88). -/
def needsSib (asz : AddrSize) (rm : BitVec 3) : Bool :=
  match asz with
  | .a16 => false
  | .a32 => rm == 4#3
  | .a64 => rm == 4#3

/-- SIB.base = 101, which under mod = 00 names no base register (30_encoding.md R90). -/
def sibBaseNone (sib : Option Sib) : Bool :=
  match sib with
  | some s => s.base == 5#3
  | none => false

/-- The displacement that follows, `dlen` of 30_encoding.md R114. -/
def dispSize (asz : AddrSize) (mod : MemMod) (rm : BitVec 3) (sib : Option Sib) : DispSize :=
  match asz, mod with
  | .a16, .m00 => if rm == 6#3 then .s16 else .s0
  | .a16, .m01 => .s8
  | .a16, .m10 => .s16
  | _, .m00 => if rm == 5#3 || (rm == 4#3 && sibBaseNone sib) then .s32 else .s0
  | _, .m01 => .s8
  | _, .m10 => .s32

/-- The size of a displacement as it stands. -/
def sizeOfDisp : Disp → DispSize
  | .none => .s0
  | .d8 _ => .s8
  | .d16 _ => .s16
  | .d32 _ => .s32

/-- The bytes of a displacement. -/
def dispLength : Disp → Nat
  | .none => 0
  | .d8 _ => 1
  | .d16 _ => 2
  | .d32 _ => 4

/-- The bytes of ModR/M, SIB and displacement. -/
def modrmLength (m : ModRM) : Nat :=
  match m.rm with
  | .reg _ => 1
  | .mem o => 1 + (if o.sib.isSome then 1 else 0) + dispLength o.disp

/-- The bytes of the legacy prefixes. -/
def prefixesLength (p : Prefixes) : Nat :=
  (if p.lock then 1 else 0) + (if p.rep.isSome then 1 else 0) + (if p.seg.isSome then 1 else 0)
    + (if p.opSize then 1 else 0) + (if p.addrSize then 1 else 0)

/-- The bytes of an optional REX. -/
def rexLength (rex : Option Rex) : Nat :=
  if rex.isSome then 1 else 0

/-- `ilen` of an encoding with `fixed` bytes between REX and ModR/M: the escape or prefix bytes and the opcode
(30_encoding.md R80, R82). -/
def ilenOf (fixed : Nat) (p : Prefixes) (rex : Option Rex) (m : ModRM) : Nat :=
  prefixesLength p + rexLength rex + fixed + modrmLength m

/-- `0F`, opcode. -/
def legacyIlen (p : Prefixes) (rex : Option Rex) (m : ModRM) : Nat := ilenOf 2 p rex m

/-- `C5 v1`, opcode. -/
def vex2Ilen (p : Prefixes) (rex : Option Rex) (m : ModRM) : Nat := ilenOf 3 p rex m

/-- `C4 v1 v2`, opcode. -/
def vex3Ilen (p : Prefixes) (rex : Option Rex) (m : ModRM) : Nat := ilenOf 4 p rex m

/-- `62 P0 P1 P2`, opcode. -/
def evexIlen (p : Prefixes) (rex : Option Rex) (m : ModRM) : Nat := ilenOf 5 p rex m

/-- `ilen` (30_encoding.md R82). -/
def instrLength : Instr → Nat
  | .movupsLoad p rex m => legacyIlen p rex m
  | .movupsStore p rex m => legacyIlen p rex m
  | .vex2Load128 p rex _ m => vex2Ilen p rex m
  | .vex3Load128 p rex _ m => vex3Ilen p rex m
  | .vex2Store128 p rex _ m => vex2Ilen p rex m
  | .vex3Store128 p rex _ m => vex3Ilen p rex m
  | .vex2Load256 p rex _ m => vex2Ilen p rex m
  | .vex3Load256 p rex _ m => vex3Ilen p rex m
  | .vex2Store256 p rex _ m => vex2Ilen p rex m
  | .vex3Store256 p rex _ m => vex3Ilen p rex m
  | .evexLoad128 p rex _ m => evexIlen p rex m
  | .evexLoad256 p rex _ m => evexIlen p rex m
  | .evexLoad512 p rex _ m => evexIlen p rex m
  | .evexStore128 p rex _ m => evexIlen p rex m
  | .evexStore256 p rex _ m => evexIlen p rex m
  | .evexStore512 p rex _ m => evexIlen p rex m

/-- The longest encoding the decoder can read: five legacy prefixes, REX, the four EVEX bytes, opcode, ModR/M, SIB and a
32-bit displacement. Its #GP(0) for more than 15 bytes is 60_exceptions.md R188. -/
def maxEncodedLength : Nat := 17

end Sys2Proof.Machine
end

