-- ==== Sys2Proof/WellFormed.lean ====
section
/-! DEFINITION. Which terms of `Instr` are encodings of their row in a given mode: the ones a decoder in that mode can read.
A well-formed term may still raise #UD (a reserved field with a forbidden value is a legal bit pattern of its row,
30_encoding.md R122). -/

namespace Sys2Proof

open Machine

/-- SIB and displacement are the ones ModR/M and the address size call for (30_encoding.md R88, R90, R91). -/
def MemOperand.wf (asz : AddrSize) (o : MemOperand) : Bool :=
  o.sib.isSome == needsSib asz o.rm && sizeOfDisp o.disp == dispSize asz o.mod o.rm o.sib

/-- A register operand is always well formed, a memory operand as above. -/
def ModRM.wf (asz : AddrSize) (m : ModRM) : Bool :=
  match m.rm with
  | .reg _ => true
  | .mem o => o.wf asz

/-- REX exists in `Mode64` only (30_encoding.md R84). -/
def rexWf (mode : Mode) (rex : Option Rex) : Bool :=
  mode == .mode64 || rex.isNone

/-- No 66H, F2H, F3H before the 0FH escape: NP (30_encoding.md R86). -/
def legacyWf (mode : Mode) (p : Prefixes) (rex : Option Rex) (m : ModRM) : Bool :=
  !p.opSize && p.rep.isNone && rexWf mode rex && m.wf (addrSize mode p.addrSize)

/-- Outside `Mode64` bits 7:6 of the byte after C5H are 11b (30_encoding.md R98). -/
def vex2Wf (mode : Mode) (p : Prefixes) (rex : Option Rex) (v : Vex2) (m : ModRM) : Bool :=
  rexWf mode rex && (mode == .mode64 || (v.rInv && v.vvvv.getLsbD 3)) && m.wf (addrSize mode p.addrSize)

/-- Outside `Mode64` bits 7:6 of the byte after C4H are 11b (30_encoding.md R98). -/
def vex3Wf (mode : Mode) (p : Prefixes) (rex : Option Rex) (v : Vex3) (m : ModRM) : Bool :=
  rexWf mode rex && (mode == .mode64 || (v.rInv && v.xInv)) && m.wf (addrSize mode p.addrSize)

/-- Outside `Mode64` bits 7:6 of the byte after 62H are 11b (30_encoding.md R109). -/
def evexWf (mode : Mode) (p : Prefixes) (rex : Option Rex) (v : Evex) (m : ModRM) : Bool :=
  rexWf mode rex && (mode == .mode64 || (v.rInv && v.xInv)) && m.wf (addrSize mode p.addrSize)

/-- The instruction is an encoding of its row in the mode. -/
def Instr.wf (mode : Mode) : Instr → Bool
  | .movupsLoad p rex m => legacyWf mode p rex m
  | .movupsStore p rex m => legacyWf mode p rex m
  | .vex2Load128 p rex v m => vex2Wf mode p rex v m
  | .vex3Load128 p rex v m => vex3Wf mode p rex v m
  | .vex2Store128 p rex v m => vex2Wf mode p rex v m
  | .vex3Store128 p rex v m => vex3Wf mode p rex v m
  | .vex2Load256 p rex v m => vex2Wf mode p rex v m
  | .vex3Load256 p rex v m => vex3Wf mode p rex v m
  | .vex2Store256 p rex v m => vex2Wf mode p rex v m
  | .vex3Store256 p rex v m => vex3Wf mode p rex v m
  | .evexLoad128 p rex v m => evexWf mode p rex v m
  | .evexLoad256 p rex v m => evexWf mode p rex v m
  | .evexLoad512 p rex v m => evexWf mode p rex v m
  | .evexStore128 p rex v m => evexWf mode p rex v m
  | .evexStore256 p rex v m => evexWf mode p rex v m
  | .evexStore512 p rex v m => evexWf mode p rex v m

end Sys2Proof
end

