-- ==== Sys2Proof/Decode.lean ====
section
/-! DEFINITION. The decoder, total on any bytes (30_encoding.md R80 to R114), and the encoder of the same tables. A byte
sequence that is no instruction of the family is rejected by name; one that matches no row but that a rule calls #UD is
`undefinedOpcode`. -/

namespace Sys2Proof

open Machine

/-- Why a byte sequence is given no meaning. -/
inductive DecodeError
  /-- Some other instruction or an undefined opcode outside the spec (30_encoding.md R112, R114, R115). -/
  | notMovups
  /-- Two prefixes of one group (30_encoding.md R83). -/
  | repeatedPrefix
  /-- A REX byte that the escape byte does not follow at once (30_encoding.md R84). -/
  | misplacedRex
  /-- The bytes end before the instruction does: its text is not fetchable (60_exceptions.md R191 step 1). -/
  | truncated
  deriving DecidableEq, Repr

/-- What the decoder answers. -/
inductive Decoded
  /-- An instruction, and the bytes after it. -/
  | instr (i : Instr) (rest : List Byte)
  /-- A byte sequence of `len` bytes that selects no row and is #UD by 30_encoding.md R112. -/
  | undefinedOpcode (len : Nat)
  /-- No meaning. -/
  | reject (e : DecodeError)
  deriving DecidableEq, Repr

/-- What one byte is at the place of a legacy prefix. -/
inductive PrefixByte
  | notPrefix
  | repeated
  | added (p : Prefixes)
  deriving DecidableEq, Repr

/-- No prefix yet. -/
def noPrefixes : Prefixes where
  lock := false
  rep := none
  seg := none
  opSize := false
  addrSize := false

/-- The segment-override bytes (30_encoding.md R83). -/
def segOfByte (b : Byte) : Option SegReg :=
  if b = 0x2E#8 then some .cs
  else if b = 0x36#8 then some .ss
  else if b = 0x3E#8 then some .ds
  else if b = 0x26#8 then some .es
  else if b = 0x64#8 then some .fs
  else if b = 0x65#8 then some .gs
  else none

/-- The repeat bytes (30_encoding.md R83). -/
def repOfByte (b : Byte) : Option Rep :=
  if b = 0xF2#8 then some .f2 else if b = 0xF3#8 then some .f3 else none

/-- Record a legacy prefix byte (30_encoding.md R83, R114). -/
def addPrefix (p : Prefixes) (b : Byte) : PrefixByte :=
  if b = 0xF0#8 then (if p.lock then .repeated else .added { p with lock := true })
  else if b = 0x66#8 then (if p.opSize then .repeated else .added { p with opSize := true })
  else if b = 0x67#8 then (if p.addrSize then .repeated else .added { p with addrSize := true })
  else
    match repOfByte b with
    | some r => if p.rep.isSome then .repeated else .added { p with rep := some r }
    | none =>
      match segOfByte b with
      | some g => if p.seg.isSome then .repeated else .added { p with seg := some g }
      | none => .notPrefix

/-- Read the legacy prefixes (30_encoding.md R114, the while loop); `none` when one is repeated. -/
def takePrefixes : Prefixes → List Byte → Option (Prefixes × List Byte)
  | p, [] => some (p, [])
  | p, b :: bs =>
    match addPrefix p b with
    | .notPrefix => some (p, b :: bs)
    | .repeated => none
    | .added q => takePrefixes q bs

/-- The byte is 0100WRXB and the mode has REX (30_encoding.md R84). -/
def isRexByte (m : Mode) (b : Byte) : Bool :=
  m == .mode64 && b.extractLsb' 4 4 == 4#4

/-- The fields of a REX byte (30_encoding.md R84). -/
def rexOfByte (b : Byte) : Rex where
  w := b.getLsbD 3
  r := b.getLsbD 2
  x := b.getLsbD 1
  b := b.getLsbD 0

/-- Read an optional REX (30_encoding.md R114). -/
def takeRex (m : Mode) : List Byte → Option Rex × List Byte
  | [] => (none, [])
  | b :: bs => if isRexByte m b then (some (rexOfByte b), bs) else (none, b :: bs)

/-- The byte is a legacy prefix. -/
def isPrefixByte (b : Byte) : Bool :=
  addPrefix noPrefixes b != .notPrefix

/-- Opcode 10H or 11H (30_encoding.md R89, R114). -/
def opcodeOf (b : Byte) : Option Direction :=
  if b = 0x10#8 then some .load else if b = 0x11#8 then some .store else none

/-- ModRM.mod; `none` is mod = 11 (30_encoding.md R87). -/
def memModOf (b : Byte) : Option MemMod :=
  if b.extractLsb' 6 2 = 0#2 then some .m00
  else if b.extractLsb' 6 2 = 1#2 then some .m01
  else if b.extractLsb' 6 2 = 2#2 then some .m10
  else none

/-- The fields of a SIB byte (30_encoding.md R88). -/
def sibOfByte (b : Byte) : Sib where
  scale := b.extractLsb' 6 2
  index := b.extractLsb' 3 3
  base := b.extractLsb' 0 3

/-- Read the SIB byte if there is one. -/
def takeSib : Bool → List Byte → Option (Option Sib × List Byte)
  | false, bs => some (none, bs)
  | true, [] => none
  | true, b :: bs => some (some (sibOfByte b), bs)

/-- Read the displacement, least significant byte first (30_encoding.md R92). -/
def takeDisp : DispSize → List Byte → Option (Disp × List Byte)
  | .s0, bs => some (.none, bs)
  | .s8, a :: bs => some (.d8 a, bs)
  | .s16, a :: b :: bs => some (.d16 (b ++ a), bs)
  | .s32, a :: b :: c :: d :: bs => some (.d32 (d ++ c ++ b ++ a), bs)
  | .s8, [] => none
  | .s16, [] => none
  | .s16, [_] => none
  | .s32, [] => none
  | .s32, [_] => none
  | .s32, [_, _] => none
  | .s32, [_, _, _] => none

/-- Read ModR/M, SIB and displacement (30_encoding.md R87 to R92, R114); `none` when the bytes run out. -/
def takeModRM (asz : AddrSize) : List Byte → Option (ModRM × List Byte)
  | [] => none
  | b :: bs =>
    match memModOf b with
    | none => some ({ reg := b.extractLsb' 3 3, rm := .reg (b.extractLsb' 0 3) }, bs)
    | some mod =>
      match takeSib (needsSib asz (b.extractLsb' 0 3)) bs with
      | none => none
      | some (sib, bs1) =>
        match takeDisp (dispSize asz mod (b.extractLsb' 0 3) sib) bs1 with
        | none => none
        | some (d, bs2) =>
          some ({ reg := b.extractLsb' 3 3, rm := .mem { mod := mod, rm := b.extractLsb' 0 3, sib := sib, disp := d } }, bs2)

/-- The fields of the two-byte VEX payload (30_encoding.md R94). -/
def vex2OfByte (v1 : Byte) : Vex2 where
  rInv := v1.getLsbD 7
  vvvv := v1.extractLsb' 3 4

/-- The fields of the three-byte VEX payload (30_encoding.md R95). -/
def vex3OfBytes (v1 v2 : Byte) : Vex3 where
  rInv := v1.getLsbD 7
  xInv := v1.getLsbD 6
  bInv := v1.getLsbD 5
  w := v2.getLsbD 7
  vvvv := v2.extractLsb' 3 4

/-- The fields of the EVEX payload (30_encoding.md R100). -/
def evexOfBytes (p0 p1 p2 : Byte) : Evex where
  rInv := p0.getLsbD 7
  xInv := p0.getLsbD 6
  bInv := p0.getLsbD 5
  rpInv := p0.getLsbD 4
  p0res := p0.extractLsb' 2 2
  w := p1.getLsbD 7
  vvvv := p1.extractLsb' 3 4
  p1fixed := p1.getLsbD 2
  z := p2.getLsbD 7
  b := p2.getLsbD 4
  vpInv := p2.getLsbD 3
  aaa := p2.extractLsb' 0 3

/-- The Legacy SSE row of an opcode (30_encoding.md R110). -/
def legacyInstr : Direction → Prefixes → Option Rex → ModRM → Instr
  | .load => .movupsLoad
  | .store => .movupsStore

/-- The two-byte VEX row of an opcode and the L bit (30_encoding.md R96, R110). -/
def vex2Instr : Direction → Bool → Prefixes → Option Rex → Vex2 → ModRM → Instr
  | .load, false => .vex2Load128
  | .load, true => .vex2Load256
  | .store, false => .vex2Store128
  | .store, true => .vex2Store256

/-- The three-byte VEX row of an opcode and the L bit (30_encoding.md R96, R110). -/
def vex3Instr : Direction → Bool → Prefixes → Option Rex → Vex3 → ModRM → Instr
  | .load, false => .vex3Load128
  | .load, true => .vex3Load256
  | .store, false => .vex3Store128
  | .store, true => .vex3Store256

/-- The EVEX row of an opcode and the vector length (30_encoding.md R102, R110). -/
def evexInstr : Direction → VecLen → Prefixes → Option Rex → Evex → ModRM → Instr
  | .load, .l128 => .evexLoad128
  | .load, .l256 => .evexLoad256
  | .load, .l512 => .evexLoad512
  | .store, .l128 => .evexStore128
  | .store, .l256 => .evexStore256
  | .store, .l512 => .evexStore512

/-- L'L; `none` is the reserved 11b (30_encoding.md R103). -/
def vecLenOf (ll : BitVec 2) : Option VecLen :=
  if ll = 0#2 then some .l128 else if ll = 1#2 then some .l256 else if ll = 2#2 then some .l512 else none

/-- What the prefix fields of an encoding select before ModR/M is read. -/
inductive Selected
  /-- A row, which still waits for its ModR/M. -/
  | row (f : ModRM → Instr)
  /-- #UD without a row (30_encoding.md R112). -/
  | undefined
  /-- Not MOVUPS. -/
  | other

/-- LEGACY: 66H, F2H and F3H select other instructions (30_encoding.md R86, R115), also beside a LOCK prefix, which R112 calls #UD
(DESIGN CHOICE, log 39). -/
def selectLegacy (p : Prefixes) (rex : Option Rex) (d : Direction) : Selected :=
  if p.opSize || p.rep.isSome then .other else .row (legacyInstr d p rex)

/-- VEX2: pp selects (30_encoding.md R94, R96). Another pp is not MOVUPS, also where R112 has a #UD row for the same bytes, such as
66 C5 F9 10 CA: the spec does not rank the two (DESIGN CHOICE, log 39). -/
def selectVex2 (p : Prefixes) (rex : Option Rex) (v1 : Byte) (d : Direction) : Selected :=
  if v1.extractLsb' 0 2 = 0#2 then .row (vex2Instr d (v1.getLsbD 2) p rex (vex2OfByte v1)) else .other

/-- VEX3: mmmmm and pp select; a reserved mmmmm is #UD (30_encoding.md R95, R96, R112). Another map or pp is not MOVUPS, also where
R112 has a #UD row for the same bytes (DESIGN CHOICE, log 39). -/
def selectVex3 (p : Prefixes) (rex : Option Rex) (v1 v2 : Byte) (d : Direction) : Selected :=
  if v1.extractLsb' 0 5 = 1#5 then
    (if v2.extractLsb' 0 2 = 0#2 then .row (vex3Instr d (v2.getLsbD 2) p rex (vex3OfBytes v1 v2)) else .other)
  else if v1.extractLsb' 0 5 = 2#5 || v1.extractLsb' 0 5 = 3#5 then .other
  else .undefined

/-- EVEX: mm, pp and L'L select; mm = 00 and L'L = 11b are #UD (30_encoding.md R100, R102, R103, R112). Another map or pp is not
MOVUPS, also where R112 has a #UD row for the same bytes, such as P0[3:2] other than 00b or P1[2] = 0 (DESIGN CHOICE, log 39). -/
def selectEvex (p : Prefixes) (rex : Option Rex) (p0 p1 p2 : Byte) (d : Direction) : Selected :=
  if p0.extractLsb' 0 2 = 0#2 then .undefined
  else if p0.extractLsb' 0 2 = 1#2 then
    (if p1.extractLsb' 0 2 = 0#2 then
      match vecLenOf (p2.extractLsb' 5 2) with
      | some vl => .row (evexInstr d vl p rex (evexOfBytes p0 p1 p2))
      | none => .undefined
    else .other)
  else .other

/-- Read the opcode, select, and read ModR/M (30_encoding.md R114); `total` is the length of the whole byte sequence. -/
def finish (asz : AddrSize) (total : Nat) (select : Direction → Selected) : List Byte → Decoded
  | [] => .reject .truncated
  | op :: bs =>
    match opcodeOf op with
    | none => .reject .notMovups
    | some d =>
      match select d with
      | .other => .reject .notMovups
      | .undefined =>
        match takeModRM asz bs with
        | none => .reject .truncated
        | some (_, rest) => .undefinedOpcode (total - rest.length)
      | .row f =>
        match takeModRM asz bs with
        | none => .reject .truncated
        | some (m, rest) => .instr (f m) rest

/-- Outside `Mode64`, C4H, C5H and 62H start a prefix only when bits 7:6 of the next byte are 11b (30_encoding.md R98,
R109, R114). -/
def marksPrefix (m : Mode) (b : Byte) : Bool :=
  m == .mode64 || b.extractLsb' 6 2 == 3#2

/-- After the legacy prefixes and REX: the format (30_encoding.md R114, the case). -/
def decodeFormat (m : Mode) (total : Nat) (p : Prefixes) (rex : Option Rex) : List Byte → Decoded
  | [] => .reject .truncated
  | b :: bs =>
    if rex.isSome && (isPrefixByte b || isRexByte m b) then .reject .misplacedRex
    else if b = 0x0F#8 then finish (addrSize m p.addrSize) total (selectLegacy p rex) bs
    else if b = 0xC5#8 then
      match bs with
      | [] => .reject .truncated
      | v1 :: bs1 =>
        if marksPrefix m v1 then finish (addrSize m p.addrSize) total (selectVex2 p rex v1) bs1 else .reject .notMovups
    else if b = 0xC4#8 then
      match bs with
      | [] => .reject .truncated
      | [v1] => if marksPrefix m v1 then .reject .truncated else .reject .notMovups
      | v1 :: v2 :: bs1 =>
        if marksPrefix m v1 then finish (addrSize m p.addrSize) total (selectVex3 p rex v1 v2) bs1 else .reject .notMovups
    else if b = 0x62#8 then
      match bs with
      | p0 :: p1 :: p2 :: bs1 =>
        if marksPrefix m p0 then finish (addrSize m p.addrSize) total (selectEvex p rex p0 p1 p2) bs1 else .reject .notMovups
      | p0 :: _ => if marksPrefix m p0 then .reject .truncated else .reject .notMovups
      | [] => .reject .truncated
    else .reject .notMovups

/-- The decoder (30_encoding.md R114). -/
def decode (m : Mode) (bs : List Byte) : Decoded :=
  match takePrefixes noPrefixes bs with
  | none => .reject .repeatedPrefix
  | some (p, bs1) => decodeFormat m bs.length p (takeRex m bs1).1 (takeRex m bs1).2

/-! ### The encoder -/

/-- The byte of a segment override (30_encoding.md R83). -/
def byteOfSeg : SegReg → Byte
  | .cs => 0x2E#8
  | .ss => 0x36#8
  | .ds => 0x3E#8
  | .es => 0x26#8
  | .fs => 0x64#8
  | .gs => 0x65#8

/-- The byte of a repeat prefix (30_encoding.md R83). -/
def byteOfRep : Rep → Byte
  | .f2 => 0xF2#8
  | .f3 => 0xF3#8

/-- The prefixes in one fixed order; any order is the same instruction (30_encoding.md R83). -/
def encodePrefixes (p : Prefixes) : List Byte :=
  (if p.lock then [0xF0#8] else []) ++ (p.rep.map byteOfRep).toList ++ (p.seg.map byteOfSeg).toList
    ++ (if p.opSize then [0x66#8] else []) ++ (if p.addrSize then [0x67#8] else [])

/-- 0100WRXB (30_encoding.md R84). -/
def byteOfRex (r : Rex) : Byte :=
  4#4 ++ BitVec.ofBool r.w ++ BitVec.ofBool r.r ++ BitVec.ofBool r.x ++ BitVec.ofBool r.b

/-- The optional REX. -/
def encodeRex (rex : Option Rex) : List Byte := (rex.map byteOfRex).toList

/-- ModRM.mod of a memory operand (30_encoding.md R87). -/
def bitsOfMod : MemMod → BitVec 2
  | .m00 => 0#2
  | .m01 => 1#2
  | .m10 => 2#2

/-- The SIB byte (30_encoding.md R88). -/
def byteOfSib (s : Sib) : Byte := s.scale ++ s.index ++ s.base

/-- The displacement, least significant byte first (30_encoding.md R92). -/
def encodeDisp : Disp → List Byte
  | .none => []
  | .d8 d => [d]
  | .d16 d => [d.extractLsb' 0 8, d.extractLsb' 8 8]
  | .d32 d => [d.extractLsb' 0 8, d.extractLsb' 8 8, d.extractLsb' 16 8, d.extractLsb' 24 8]

/-- ModR/M, SIB, displacement (30_encoding.md R87 to R92). -/
def encodeModRM (m : ModRM) : List Byte :=
  match m.rm with
  | .reg r => [(3#2 ++ m.reg ++ r : BitVec 8)]
  | .mem o => (bitsOfMod o.mod ++ m.reg ++ o.rm : BitVec 8) :: (o.sib.map byteOfSib).toList ++ encodeDisp o.disp

/-- The opcode byte (30_encoding.md R89). -/
def byteOfOpcode : Direction → Byte
  | .load => 0x10#8
  | .store => 0x11#8

/-- R̅ vvvv L pp with pp = 00 (30_encoding.md R94, R96). -/
def byteOfVex2 (v : Vex2) (l : Bool) : Byte :=
  BitVec.ofBool v.rInv ++ v.vvvv ++ BitVec.ofBool l ++ 0#2

/-- R̅ X̅ B̅ mmmmm with mmmmm = 00001 (30_encoding.md R95, R96). -/
def firstOfVex3 (v : Vex3) : Byte :=
  BitVec.ofBool v.rInv ++ BitVec.ofBool v.xInv ++ BitVec.ofBool v.bInv ++ 1#5

/-- W vvvv L pp with pp = 00 (30_encoding.md R95, R96). -/
def secondOfVex3 (v : Vex3) (l : Bool) : Byte :=
  BitVec.ofBool v.w ++ v.vvvv ++ BitVec.ofBool l ++ 0#2

/-- L'L (30_encoding.md R103). -/
def bitsOfVecLen : VecLen → BitVec 2
  | .l128 => 0#2
  | .l256 => 1#2
  | .l512 => 2#2

/-- P0 with mm = 01 (30_encoding.md R100, R102). -/
def firstOfEvex (v : Evex) : Byte :=
  BitVec.ofBool v.rInv ++ BitVec.ofBool v.xInv ++ BitVec.ofBool v.bInv ++ BitVec.ofBool v.rpInv ++ v.p0res ++ 1#2

/-- P1 with pp = 00 (30_encoding.md R100, R102). -/
def secondOfEvex (v : Evex) : Byte :=
  BitVec.ofBool v.w ++ v.vvvv ++ BitVec.ofBool v.p1fixed ++ 0#2

/-- P2 (30_encoding.md R100, R103). -/
def thirdOfEvex (v : Evex) (vl : VecLen) : Byte :=
  BitVec.ofBool v.z ++ bitsOfVecLen vl ++ BitVec.ofBool v.b ++ BitVec.ofBool v.vpInv ++ v.aaa

/-- `0F 10 /r`, `0F 11 /r` (30_encoding.md R85). -/
def encodeLegacy (d : Direction) (p : Prefixes) (rex : Option Rex) (m : ModRM) : List Byte :=
  encodePrefixes p ++ encodeRex rex ++ ([0x0F#8, byteOfOpcode d] ++ encodeModRM m)

/-- `C5 v1 opcode /r` (30_encoding.md R80, R94). -/
def encodeVex2 (d : Direction) (l : Bool) (p : Prefixes) (rex : Option Rex) (v : Vex2) (m : ModRM) : List Byte :=
  encodePrefixes p ++ encodeRex rex ++ ([0xC5#8, byteOfVex2 v l, byteOfOpcode d] ++ encodeModRM m)

/-- `C4 v1 v2 opcode /r` (30_encoding.md R80, R95). -/
def encodeVex3 (d : Direction) (l : Bool) (p : Prefixes) (rex : Option Rex) (v : Vex3) (m : ModRM) : List Byte :=
  encodePrefixes p ++ encodeRex rex ++ ([0xC4#8, firstOfVex3 v, secondOfVex3 v l, byteOfOpcode d] ++ encodeModRM m)

/-- `62 P0 P1 P2 opcode /r` (30_encoding.md R80, R100). -/
def encodeEvex (d : Direction) (vl : VecLen) (p : Prefixes) (rex : Option Rex) (v : Evex) (m : ModRM) : List Byte :=
  encodePrefixes p ++ encodeRex rex
    ++ ([0x62#8, firstOfEvex v, secondOfEvex v, thirdOfEvex v vl, byteOfOpcode d] ++ encodeModRM m)

/-- The bytes of an instruction, first byte first. -/
def encode : Instr → List Byte
  | .movupsLoad p rex m => encodeLegacy .load p rex m
  | .movupsStore p rex m => encodeLegacy .store p rex m
  | .vex2Load128 p rex v m => encodeVex2 .load false p rex v m
  | .vex3Load128 p rex v m => encodeVex3 .load false p rex v m
  | .vex2Store128 p rex v m => encodeVex2 .store false p rex v m
  | .vex3Store128 p rex v m => encodeVex3 .store false p rex v m
  | .vex2Load256 p rex v m => encodeVex2 .load true p rex v m
  | .vex3Load256 p rex v m => encodeVex3 .load true p rex v m
  | .vex2Store256 p rex v m => encodeVex2 .store true p rex v m
  | .vex3Store256 p rex v m => encodeVex3 .store true p rex v m
  | .evexLoad128 p rex v m => encodeEvex .load .l128 p rex v m
  | .evexLoad256 p rex v m => encodeEvex .load .l256 p rex v m
  | .evexLoad512 p rex v m => encodeEvex .load .l512 p rex v m
  | .evexStore128 p rex v m => encodeEvex .store .l128 p rex v m
  | .evexStore256 p rex v m => encodeEvex .store .l256 p rex v m
  | .evexStore512 p rex v m => encodeEvex .store .l512 p rex v m

/-! ### The host's table words -/

/-- Byte `k` of a number whose bit 0 is the least significant bit of the first byte. -/
def byteOfNumber (w k : Nat) : Byte := BitVec.ofNat 8 (w >>> (8 * k))

/-- The longest instruction's bytes of the low `nbits` bits of `w`, every bit above them 0. -/
def bytesOfWord (nbits w : Nat) : List Byte :=
  (List.range maxEncodedLength).map (byteOfNumber (w % 2 ^ nbits))

/-- The instruction the decoder reads, in `Mode64`, from a table word. -/
def decodeTableWord (nbits w : Nat) : Option Instr :=
  match decode .mode64 (bytesOfWord nbits w) with
  | .instr i _ => some i
  | .undefinedOpcode _ => none
  | .reject _ => none

end Sys2Proof
end

