-- ==== Sys2Proof/Machine/State.lean ====
section
/-! DEFINITION. The state of the logical processor as plain data, the ways a step can stop, and the state after reset
(10_state.md R20 to R39, 20_memory.md R50 to R63, 70_reset_and_hazards.md R210). -/

namespace Sys2Proof.Machine

/-- A segment register: what it supplies to a memory reference (10_state.md R31). -/
structure Segment where
  base : BitVec 64
  limit : BitVec 32
  /-- It was loaded with a null selector. -/
  isNull : Bool
  readable : Bool
  writable : Bool
  deriving DecidableEq, Repr

/-- The six segment registers (10_state.md R31). -/
structure Segments where
  es : Segment
  cs : Segment
  ss : Segment
  ds : Segment
  fs : Segment
  gs : Segment
  deriving DecidableEq, Repr

/-- One mapped 4096-byte page, an entry of the parameter `Translate` as data (20_memory.md R63, 60_exceptions.md R185). -/
structure PageEntry where
  /-- The linear page number: linear address divided by 4096. -/
  page : Nat
  /-- The physical page number. -/
  frame : Nat
  writable : Bool
  /-- Accessible at CPL 3. -/
  user : Bool
  executable : Bool
  /-- A reserved bit is set in a paging structure of this page. -/
  reservedBit : Bool
  /-- The page's protection key forbids reads. -/
  keyDeniesRead : Bool
  /-- The page's protection key forbids writes. -/
  keyDeniesWrite : Bool
  deriving DecidableEq, Repr

/-- The parameter `Translate` as data: identity, or a finite set of mapped pages (00_scope.md R8, 20_memory.md R63). -/
inductive Translation
  | identity
  | pages (l : List PageEntry)
  deriving DecidableEq, Repr

/-- A range of physical addresses. -/
structure Region where
  base : Nat
  size : Nat
  deriving DecidableEq, Repr

/-- The bytes of the physical address space in canonical form: addresses strictly rising, no entry equal to what an
unlisted address reads as. -/
abbrev Memory := List Host.Cell

/-- The machine. -/
structure State where
  /-- ZMM[0..31] (10_state.md R20); bits at and above MAXVL are zero. -/
  zmm : Vector (BitVec 512) 32
  /-- K[0..7] (10_state.md R27). -/
  k : Vector (BitVec 64) 8
  /-- MXCSR (10_state.md R29). -/
  mxcsr : BitVec 32
  /-- The general registers (10_state.md R30). -/
  gpr : Vector (BitVec 64) 16
  /-- RIP, EIP or IP (10_state.md R32). -/
  pc : BitVec 64
  /-- The segment registers (10_state.md R31). -/
  segs : Segments
  /-- CS.L (10_state.md R35). -/
  csL : Bool
  /-- CS.D (10_state.md R35). -/
  csD : Bool
  /-- EFLAGS (10_state.md R34). -/
  eflags : BitVec 32
  /-- CR0 (10_state.md R35). -/
  cr0 : BitVec 64
  /-- CR2 (10_state.md R35). -/
  cr2 : BitVec 64
  /-- CR3 (10_state.md R35). -/
  cr3 : BitVec 64
  /-- CR4 (10_state.md R35). -/
  cr4 : BitVec 64
  /-- XCR0 (10_state.md R35). -/
  xcr0 : BitVec 64
  /-- IA32_EFER (10_state.md R35). -/
  efer : BitVec 64
  /-- The current privilege level (10_state.md R35). -/
  cpl : BitVec 2
  /-- `Translate` (20_memory.md R63). -/
  translation : Translation
  /-- The memory (20_memory.md R50). -/
  mem : Memory
  /-- Physical regions that are not ordinary memory (20_memory.md R59). -/
  devices : List Region
  /-- The base address of the program of the run (70_reset_and_hazards.md R214). -/
  textBase : BitVec 64
  /-- The length of the program of the run in bytes (70_reset_and_hazards.md R214). -/
  textLen : Nat
  /-- The parameters of 00_scope.md R8. -/
  params : Params
  /-- The model's own counter: it indexes the environment's free choices (log 18). -/
  draws : Nat
  deriving DecidableEq, Repr

/-- The exceptions of 60_exceptions.md R170 with what each records beyond the return address (R189, R190). -/
inductive ExcKind
  /-- #UD, invalid opcode. -/
  | invalidOpcode
  /-- #NM, device not available. -/
  | deviceNotAvailable
  /-- #SS(0). -/
  | stackFault
  /-- #GP(0). -/
  | generalProtection
  /-- #PF(code), with the linear address CR2 receives. -/
  | pageFault (code : BitVec 32) (address : BitVec 64)
  /-- #AC(0). -/
  | alignmentCheck
  deriving DecidableEq, Repr

/-- The outcome `Fault` of 60_exceptions.md R196. -/
inductive Fault
  /-- Raised by every meaning through `raise`, and by step for an opcode that is #UD without a row: an exception of the
  processor and the return address it records. Safe: the run ends here, and nothing is claimed of the handler (log 1). -/
  | exception (kind : ExcKind) (returnAddress : BitVec 64)
  deriving DecidableEq, Repr

/-- The outcome `Refused` of 60_exceptions.md R196: the spec gives no meaning. Every refusal is safe: the model claims
nothing where the processor goes on. -/
inductive Refusal
  /-- Raised by an arm of exec whose instruction has no meaning yet; no arm is one. Safe. -/
  | notModelled (mnemonic : String)
  /-- Raised by step: the bytes are some other instruction (30_encoding.md R86, R98, R109, R112, R115). Safe. -/
  | notMovups
  /-- Raised by step: two prefixes of one group (30_encoding.md R83). Safe. -/
  | repeatedPrefix
  /-- Raised by step: a REX not immediately before the escape byte (30_encoding.md R84). Safe. -/
  | misplacedRex
  /-- Raised by step: the program text is not mapped, executable and contiguous (60_exceptions.md R191, 10_state.md R33).
  Safe. -/
  | textNotFetchable
  /-- Raised by the VEX3 and EVEX meanings: a register-extension bit that names no register outside `Mode64`
  (30_encoding.md R109, R112). Safe. -/
  | extensionBitOutsideMode64
  /-- Raised by the EVEX meanings: a memory operand with 16-bit address size (30_encoding.md R91, R112). Safe. -/
  | evexAddressSize16
  /-- Raised by a memory access outside `Mode64` whose bytes wrap past the end of the address space (20_memory.md R75).
  Safe. -/
  | operandWraps
  /-- Raised by a memory access to a device (20_memory.md R59). Safe. -/
  | deviceMemory
  /-- Raised by a store that writes a byte of the program text (20_memory.md R73). Safe. -/
  | storeToText
  deriving DecidableEq, Repr

/-- A data segment after reset (PRESUMED, the family's; log 4). -/
def resetSegment (base : BitVec 64) : Segment where
  base := base
  limit := 0xFFFF#32
  isNull := false
  readable := true
  writable := true

/-- What RDX holds after reset: a processor signature whose value the spec does not give (PRESUMED; log 3). -/
def resetSignature : BitVec 64 := 0x50654#64

/-- The machine right after reset: 10_state.md R39. -/
def State.reset : State where
  zmm := Vector.replicate 32 0#512
  k := Vector.replicate 8 0#64
  mxcsr := 0x1F80#32
  gpr := (Vector.replicate 16 0#64).set 2 resetSignature
  pc := 0xFFF0#64
  segs :=
    { es := resetSegment 0#64
      cs := resetSegment 0xFFFF0000#64
      ss := resetSegment 0#64
      ds := resetSegment 0#64
      fs := resetSegment 0#64
      gs := resetSegment 0#64 }
  csL := false
  csD := false
  eflags := 2#32
  cr0 := 0x60000010#64
  cr2 := 0#64
  cr3 := 0#64
  cr4 := 0#64
  xcr0 := 1#64
  efer := 0#64
  cpl := 0#2
  translation := .identity
  mem := []
  devices := []
  textBase := 0#64
  textLen := 0
  params := .defaults
  draws := 0

end Sys2Proof.Machine
end

