-- ==== Sys2Proof/Machine/Memory.lean ====
section
/-! DEFINITION. The operations on memory: one byte, and the bytes of one operand (20_memory.md R50, R52, R64 to R67). -/

namespace Sys2Proof.Machine

/-- What an address that is not listed reads as: the spec gives memory no reset contents (DESIGN CHOICE, log 9). -/
def unlistedByte : Byte := 0#8

/-- The canonical form: addresses strictly rising, no entry equal to what an unlisted address reads as. -/
abbrev Memory.wf (m : Memory) : Prop :=
  m.Pairwise (fun c d => c.1 < d.1) ∧ ∀ c ∈ m, c.2 ≠ unlistedByte

/-- The byte at a physical address. -/
def readByte : Memory → Nat → Byte
  | [], _ => unlistedByte
  | (b, v) :: t, a => if a = b then v else readByte t a

/-- Put an entry in front, unless it says what an unlisted address reads as. -/
def consCell (a : Nat) (v : Byte) (m : Memory) : Memory :=
  if v = unlistedByte then m else (a, v) :: m

/-- Write one byte, keeping the canonical form. -/
def writeByte : Memory → Nat → Byte → Memory
  | [], a, v => consCell a v []
  | (b, w) :: t, a, v =>
    if a < b then consCell a v ((b, w) :: t)
    else if a = b then consCell a v t
    else (b, w) :: writeByte t a v

/-- Byte `k` of a value: its bits 8k+7:8k (20_memory.md R52). -/
def byteOf (v : Vec) (k : Nat) : Byte := v.extractLsb' (8 * k) 8

/-- The value of an operand from (byte offset, physical address) pairs: the byte at offset k in bits 8k+7:8k
(20_memory.md R52, R64, R66). An offset that is not listed gives zero bits, which no meaning uses. -/
def loadBytes (m : Memory) : List (Nat × Nat) → Vec
  | [] => 0#512
  | (k, a) :: t => ((readByte m a).setWidth 512 <<< (8 * k)) ||| loadBytes m t

/-- Write byte k of the value at the physical address of each pair (20_memory.md R65, R67). -/
def storeBytes (v : Vec) : List (Nat × Nat) → Memory → Memory
  | [], m => m
  | (k, a) :: t, m => storeBytes v t (writeByte m a (byteOf v k))

end Sys2Proof.Machine
end

