-- ==== Sys2Proof/Machine/Flags.lean ====
section
/-! DEFINITION. The flag and control bits the instructions read (10_state.md R34, R35). No instruction writes a flag
(R29, R34), so there is no flag computation. -/

namespace Sys2Proof.Machine

/-- CR0.PE, bit 0. -/
def cr0Pe (s : State) : Bool := s.cr0.getLsbD 0
/-- CR0.EM, bit 2. -/
def cr0Em (s : State) : Bool := s.cr0.getLsbD 2
/-- CR0.TS, bit 3. -/
def cr0Ts (s : State) : Bool := s.cr0.getLsbD 3
/-- CR0.AM, bit 18. -/
def cr0Am (s : State) : Bool := s.cr0.getLsbD 18
/-- CR4.OSFXSR, bit 9. -/
def cr4Osfxsr (s : State) : Bool := s.cr4.getLsbD 9
/-- CR4.OSXSAVE, bit 18. -/
def cr4Osxsave (s : State) : Bool := s.cr4.getLsbD 18
/-- EFLAGS.VM, bit 17. -/
def eflagsVm (s : State) : Bool := s.eflags.getLsbD 17
/-- EFLAGS.AC, bit 18. -/
def eflagsAc (s : State) : Bool := s.eflags.getLsbD 18
/-- IA32_EFER.LMA, bit 10 (PRESUMED, log 7). -/
def eferLma (s : State) : Bool := s.efer.getLsbD 10

/-- XCR0[2:1] = 11b: the SSE and AVX state is enabled (10_state.md R35). -/
def xcr0Avx (s : State) : Bool := s.xcr0.extractLsb' 1 2 == 3#2
/-- XCR0[7:5] = 111b: the opmask and ZMM state is enabled (10_state.md R35). -/
def xcr0Avx512 (s : State) : Bool := s.xcr0.extractLsb' 5 3 == 7#3

/-- `MODE` (30_encoding.md R81; the order of the rows is log 8). -/
def modeOf (s : State) : Mode :=
  if !cr0Pe s then .real
  else if eflagsVm s then .v86
  else if eferLma s then (if s.csL then .mode64 else if s.csD then .compat32 else .prot16)
  else if s.csD then .prot32
  else .prot16

/-- VEX and EVEX forms are #UD in these modes (60_exceptions.md R181). -/
def realOrV86 (s : State) : Bool := modeOf s == .real || modeOf s == .v86

/-- Alignment checking is on (60_exceptions.md R186). -/
def alignmentChecking (s : State) : Bool := cr0Am s && eflagsAc s && s.cpl == 3#2

/-- The width of pc in bits (10_state.md R32). -/
def pcBits (m : Mode) : Nat :=
  match m with
  | .mode64 => 64
  | .compat32 => 32
  | .prot32 => 32
  | .prot16 => 16
  | .real => 16
  | .v86 => 16

end Sys2Proof.Machine
end

