-- ==== Sys2Proof/Machine/Operands.lean ====
section
/-! DEFINITION. The operands: vector and opmask registers, register numbers, effective addresses and segments, and the values
a masked move makes (10_state.md R20 to R31; 20_memory.md R53, R60, R61; 30_encoding.md R84 to R107; 42_vmovups_evex.md R150,
R152). -/

namespace Sys2Proof.Machine

/-! ### Vector registers -/

/-- The low `n` bits, zero-extended. -/
def lowPart (n : Nat) (v : Vec) : Vec := (v.setWidth n).setWidth 512

/-- The low `n` bits of `src` under the other bits of `old` (10_state.md R22, Legacy SSE). -/
def replaceLow (n : Nat) (old src : Vec) : Vec :=
  (old &&& ~~~(BitVec.allOnes n).setWidth 512) ||| lowPart n src

/-- ZMM[i], MAXVL bits (10_state.md R20). -/
def readVec (s : State) (i : BitVec 5) : Vec := s.zmm[i.toNat]'(i.isLt)

/-- ZMM[i] <- v, all MAXVL bits (10_state.md R20, 00_scope.md R12). -/
def writeVec (s : State) (i : BitVec 5) (v : Vec) : State :=
  { s with zmm := s.zmm.set i.toNat (lowPart s.params.maxvl.bits v) i.isLt }

/-- Element j: bits 32j+31:32j (00_scope.md R11, 20_memory.md R53). -/
def elemOf (v : Vec) (j : Nat) : Elem := v.extractLsb' (32 * j) 32

/-- The value whose elements below `n` are `f`, every other bit 0. -/
def ofElems : Nat → (Nat → Elem) → Vec
  | 0, _ => 0#512
  | n + 1, f => ofElems n f ||| ((f n).setWidth 512 <<< (32 * n))

/-- `MaskedRegResult` (42_vmovups_evex.md R150). -/
def maskedRegResult (old src : Vec) (m : BitVec 16) (z : Bool) (vl : VecLen) : Vec :=
  ofElems vl.elems fun j => if m.getLsbD j then elemOf src j else if z then 0#32 else elemOf old j

/-! ### Opmask registers -/

/-- K[i], K_WIDTH bits (10_state.md R27). -/
def readMask (s : State) (i : BitVec 3) : Mask :=
  ((s.k[i.toNat]'(i.isLt)).setWidth s.params.kWidth.bits).setWidth 64

/-- The mask that selects all KL elements. -/
def fullMask (vl : VecLen) : BitVec 16 := (BitVec.allOnes vl.elems).setWidth 16

/-- The effective mask: all elements with no writemask, else the low KL bits of K[aaa] (42_vmovups_evex.md R152,
10_state.md R28). -/
def effectiveMask (s : State) (aaa : BitVec 3) (vl : VecLen) : BitVec 16 :=
  if aaa = 0#3 then fullMask vl else (readMask s aaa).setWidth 16 &&& fullMask vl

/-- The byte offsets of the operand the mask selects: the four bytes of each selected element (20_memory.md R57, R66). -/
def maskedOffsets (vl : VecLen) (m : BitVec 16) : List Nat :=
  (List.range vl.bytes).filter fun k => m.getLsbD (k / 4)

/-! ### Register numbers -/

/-- The extension bits an encoding gives to its register numbers. -/
structure RegExt where
  /-- Bits 4:3 of the ModRM.reg register. -/
  reg : BitVec 2
  /-- Bits 4:3 of a register ModRM.r/m. -/
  rmReg : BitVec 2
  /-- `Bx`. -/
  base : Bool
  /-- `Xx`. -/
  index : Bool
  deriving DecidableEq, Repr

/-- No extension: VEX2 has none for r/m, and outside `Mode64` there is none (30_encoding.md R90, R94). -/
def noExt : RegExt where
  reg := 0#2
  rmReg := 0#2
  base := false
  index := false

/-- One extension bit, bit 3 of the number. -/
def bit3 (b : Bool) : BitVec 2 := 0#1 ++ BitVec.ofBool b

/-- REX.R, REX.X, REX.B (30_encoding.md R84). -/
def legacyExt (mode : Mode) (rex : Option Rex) : RegExt :=
  match mode, rex with
  | .mode64, some r => { reg := bit3 r.r, rmReg := bit3 r.b, base := r.b, index := r.x }
  | _, _ => noExt

/-- VEX2: only the complement of R̅ (30_encoding.md R94, R97). -/
def vex2Ext (mode : Mode) (v : Vex2) : RegExt :=
  match mode with
  | .mode64 => { noExt with reg := bit3 (!v.rInv) }
  | _ => noExt

/-- VEX3: the complements of R̅, X̅, B̅ (30_encoding.md R95, R97). -/
def vex3Ext (mode : Mode) (v : Vex3) : RegExt :=
  match mode with
  | .mode64 => { reg := bit3 (!v.rInv), rmReg := bit3 (!v.bInv), base := !v.bInv, index := !v.xInv }
  | _ => noExt

/-- EVEX: the complements of R̅', R̅, X̅, B̅; X̅ is bit 4 of a register r/m (30_encoding.md R104). -/
def evexExt (mode : Mode) (v : Evex) : RegExt :=
  match mode with
  | .mode64 =>
    { reg := BitVec.ofBool (!v.rpInv) ++ BitVec.ofBool (!v.rInv)
      rmReg := BitVec.ofBool (!v.xInv) ++ BitVec.ofBool (!v.bInv)
      base := !v.bInv
      index := !v.xInv }
  | _ => noExt

/-- A vector register number (10_state.md R24). -/
def vecNumber (ext : BitVec 2) (low : BitVec 3) : BitVec 5 := ext ++ low

/-- A general register number (10_state.md R30). -/
def gprNumber (ext : Bool) (low : BitVec 3) : BitVec 4 := BitVec.ofBool ext ++ low

/-! ### Effective address -/

/-- GPR[i][asz-1:0], zero-extended (20_memory.md R60). -/
def readGpr (s : State) (asz : AddrSize) (i : BitVec 4) : Addr :=
  ((s.gpr[i.toNat]'(i.isLt)).setWidth (asizeBits asz)).setWidth 64

/-- The displacement sign-extended to 64 bits, an 8-bit one multiplied by N (30_encoding.md R92, R107); N is 1 for the
Legacy SSE and VEX forms. -/
def dispValue (n8 : Nat) : Disp → Addr
  | .none => 0#64
  | .d8 d => d.signExtend 64 * BitVec.ofNat 64 n8
  | .d16 d => d.signExtend 64
  | .d32 d => d.signExtend 64

/-- The base of a memory operand. -/
inductive BaseReg
  | none
  | gpr (i : BitVec 4)
  /-- RIP-relative. -/
  | nextPc
  deriving DecidableEq, Repr

/-- The base with 32- and 64-bit address size (30_encoding.md R90). -/
def baseOf (mode : Mode) (bx : Bool) (o : MemOperand) : BaseReg :=
  match o.sib with
  | some sb => if sb.base == 5#3 && o.mod == .m00 then .none else .gpr (gprNumber bx sb.base)
  | none =>
    if o.rm == 5#3 && o.mod == .m00 then (if mode == .mode64 then .nextPc else .none)
    else .gpr (gprNumber bx o.rm)

/-- The index with 32- and 64-bit address size (30_encoding.md R90). -/
def indexOf (xx : Bool) (o : MemOperand) : Option (BitVec 4) :=
  match o.sib with
  | some sb => if gprNumber xx sb.index == 4#4 then none else some (gprNumber xx sb.index)
  | none => none

/-- 1 << SIB.scale (30_encoding.md R90). -/
def scaleOf (o : MemOperand) : Addr :=
  match o.sib with
  | some sb => 1#64 <<< sb.scale.toNat
  | none => 1#64

/-- The value of a base register; RIP-relative is the address of the next instruction (20_memory.md R60). -/
def baseValue (s : State) (asz : AddrSize) (ilen : Nat) : BaseReg → Addr
  | .none => 0#64
  | .gpr i => readGpr s asz i
  | .nextPc => s.pc + BitVec.ofNat 64 ilen

/-- base + index * scale with 32- and 64-bit address size (20_memory.md R60). -/
def baseIndexSum (s : State) (asz : AddrSize) (ext : RegExt) (ilen : Nat) (o : MemOperand) : Addr :=
  baseValue s asz ilen (baseOf (modeOf s) ext.base o)
    + (match indexOf ext.index o with
       | some i => readGpr s asz i * scaleOf o
       | none => 0#64)

/-- base + index with 16-bit address size (30_encoding.md R91): BX is 3, BP is 5, SI is 6, DI is 7. -/
def sum16 (s : State) (o : MemOperand) : Addr :=
  let r := readGpr s .a16
  if o.rm = 0#3 then r 3#4 + r 6#4
  else if o.rm = 1#3 then r 3#4 + r 7#4
  else if o.rm = 2#3 then r 5#4 + r 6#4
  else if o.rm = 3#3 then r 5#4 + r 7#4
  else if o.rm = 4#3 then r 6#4
  else if o.rm = 5#3 then r 7#4
  else if o.rm = 6#3 then (if o.mod = .m00 then 0#64 else r 5#4)
  else r 3#4

/-- The effective address: (base + index * scale + disp) mod 2^asz, zero-extended (20_memory.md R60, 30_encoding.md R91). -/
def effectiveAddress (s : State) (asz : AddrSize) (ext : RegExt) (ilen n8 : Nat) (o : MemOperand) : Addr :=
  let sum := match asz with
    | .a16 => sum16 s o
    | .a32 => baseIndexSum s asz ext ilen o
    | .a64 => baseIndexSum s asz ext ilen o
  ((sum + dispValue n8 o.disp).setWidth (asizeBits asz)).setWidth 64

/-! ### Segment -/

/-- SS for a base of register 4 or 5 without extension, and for the BP rows of 16-bit addressing; else DS
(30_encoding.md R91, R93). -/
def defaultSegment (mode : Mode) (asz : AddrSize) (ext : RegExt) (o : MemOperand) : SegReg :=
  match asz with
  | .a16 =>
    if o.rm == 2#3 || o.rm == 3#3 || (o.rm == 6#3 && o.mod != .m00) then .ss else .ds
  | _ =>
    match baseOf mode ext.base o with
    | .gpr i => if i == 4#4 || i == 5#4 then .ss else .ds
    | .none => .ds
    | .nextPc => .ds

/-- FS or GS. -/
def isFsGs (g : SegReg) : Bool := g == .fs || g == .gs

/-- The segment of the memory operand: an override replaces the default, but for CS, SS, DS and ES in `Mode64`
(30_encoding.md R93). -/
def segmentOf (mode : Mode) (override : Option SegReg) (dflt : SegReg) : SegReg :=
  match override with
  | none => dflt
  | some g => if mode == .mode64 && !isFsGs g then dflt else g

/-- A segment violation is #SS(0) rather than #GP(0): the segment is SS (60_exceptions.md R184). In `Mode64`, where an
ignored override and the default do not agree on SS, the environment says (93_implementation_defined.md U16; log 19). -/
def violationIsStack (mode : Mode) (override : Option SegReg) (dflt : SegReg) : Bool :=
  match override with
  | none => dflt == .ss
  | some g =>
    if mode == .mode64 && !isFsGs g then
      (if (g == .ss) == (dflt == .ss) then dflt == .ss else Config.overrideReportsStack g dflt)
    else g == .ss

/-- The segment registers by name (10_state.md R31). -/
def segRegister (s : State) (g : SegReg) : Segment :=
  match g with
  | .es => s.segs.es
  | .cs => s.segs.cs
  | .ss => s.segs.ss
  | .ds => s.segs.ds
  | .fs => s.segs.fs
  | .gs => s.segs.gs

/-- `SegBase` in `Mode64`: zero but for FS and GS (20_memory.md R61). -/
def segBase64 (s : State) (g : SegReg) : Addr :=
  if isFsGs g then (segRegister s g).base else 0#64

/-- Bits 63:LA_BITS-1 of a linear address below 2^64 are all equal (20_memory.md R61); an address past the top is not
canonical (R75). -/
def canonical (b : LaBits) (la : Nat) : Bool :=
  decide (la < 2 ^ (b.bits - 1)) || (decide (2 ^ 64 - 2 ^ (b.bits - 1) ≤ la) && decide (la < 2 ^ 64))

end Sys2Proof.Machine
end

