-- ==== Sys2Proof/Machine/Fetch.lean ====
section
/-! DEFINITION. Where the bytes of the instruction stream stand, and reading them (20_memory.md R50, R56; 60_exceptions.md
R191 step 1; 10_state.md R32, R33). -/

namespace Sys2Proof.Machine

/-- The instruction pointer at the width of the mode (10_state.md R32). -/
def pcOffset (s : State) : Nat := s.pc.toNat % 2 ^ pcBits (modeOf s)

/-- The entry of a linear address's page, if the page is mapped (20_memory.md R63). -/
def findPage (l : List PageEntry) (la : Nat) : Option PageEntry := l.find? fun e => e.page == la / 4096

/-- The physical address of a linear address in a mapped page (20_memory.md R63). -/
def physical (e : PageEntry) (la : Nat) : Nat := e.frame * 4096 + la % 4096

/-- The physical address of an instruction byte at a linear address, if it is mapped and executable (60_exceptions.md R191
step 1). Real mode has no paging (60_exceptions.md R172). -/
def fetchTranslate (s : State) (la : Nat) : Option Nat :=
  match s.translation with
  | .identity => some la
  | .pages l =>
    if modeOf s == .real then some la
    else
      match findPage l la with
      | some e => if e.executable && !e.reservedBit && (e.user || s.cpl != 3#2) then some (physical e la) else none
      | none => none

/-- The linear address of the instruction byte at an offset in the code segment; none past the end of the address space or of
the segment, so that a program lies in one contiguous range (10_state.md R33). -/
def codeLinear (s : State) (offset : Nat) : Option Nat :=
  match modeOf s with
  | .mode64 => if canonical s.params.laBits offset then some offset else none
  | m =>
    if decide (offset < 2 ^ pcBits m) && decide (offset ≤ s.segs.cs.limit.toNat)
        && decide (s.segs.cs.base.toNat % 2 ^ 32 + offset < 2 ^ 32)
    then some (s.segs.cs.base.toNat % 2 ^ 32 + offset) else none

/-- The physical address of the instruction byte at an offset in the code segment. -/
def codeAddress (s : State) (offset : Nat) : Option Nat :=
  match codeLinear s offset with
  | some la => fetchTranslate s la
  | none => none

/-- The bytes at `n` offsets from `offset` on, up to the first that cannot be fetched. DESIGN CHOICE (log 27): a byte whose
address a listed device has is fetched like any other; 20_memory.md R59 refuses only a memory operand there. -/
def fetchFrom (s : State) : Nat → Nat → List Byte
  | 0, _ => []
  | n + 1, offset =>
    match codeAddress s offset with
    | some a => readByte s.mem a :: fetchFrom s n (offset + 1)
    | none => []

/-- The bytes at the instruction pointer, as many as the longest encoding has. -/
def fetchBytes (s : State) : List Byte := fetchFrom s maxEncodedLength (pcOffset s)

/-- Every byte of the program text can be fetched (60_exceptions.md R191 step 1; 10_state.md R33, 92_eei_decisions.md D12). -/
def textFetchable (s : State) : Bool :=
  (List.range s.textLen).all fun i => (codeAddress s (s.textBase.toNat + i)).isSome

/-- The physical address is a byte of the program text (20_memory.md R73). -/
def inText (s : State) (a : Nat) : Bool :=
  (List.range s.textLen).any fun i => codeAddress s (s.textBase.toNat + i) == some a

/-- Store the bytes where they would be fetched from `offset` on. -/
def placeBytes (s : State) : List Byte → Nat → Memory → Memory
  | [], _, m => m
  | b :: bs, offset, m =>
    placeBytes s bs (offset + 1)
      (match codeAddress s offset with
       | some a => writeByte m a b
       | none => m)

end Sys2Proof.Machine
end

