-- ==== Sys2Proof/Machine/Ops.lean ====
section
/-! DEFINITION. The operations the meanings share: raising an exception, the checks before an instruction's effect, a memory
access with its checks, and the move itself (20_memory.md R61 to R67; 60_exceptions.md R174 to R196). -/

namespace Sys2Proof.Machine

/-- A computation of the model: a value, an exception, or no meaning (60_exceptions.md R196). -/
abbrev Result (α : Type) := Host.Outcome α Fault Refusal

/-- Go on with the value. -/
def andThen {α β : Type} (r : Result α) (f : α → Result β) : Result β :=
  match r with
  | .next a => f a
  | .fault e => .fault e
  | .refused e => .refused e

/-! ### Exceptions -/

/-- `raise #XX(code)`: the instruction ends, nothing is changed, and the address of the instruction is the return address
(00_scope.md R12; 60_exceptions.md R190, R195). -/
def raise {α : Type} (kind : ExcKind) (s : State) : Result α := .fault (.exception kind s.pc)

/-- The vector number (60_exceptions.md R189). -/
def excVector : ExcKind → Nat
  | .invalidOpcode => 6
  | .deviceNotAvailable => 7
  | .stackFault => 12
  | .generalProtection => 13
  | .pageFault _ _ => 14
  | .alignmentCheck => 17

/-- The error code; #UD and #NM have none (60_exceptions.md R189). -/
def excErrorCode : ExcKind → Option (BitVec 32)
  | .invalidOpcode => none
  | .deviceNotAvailable => none
  | .stackFault => some 0#32
  | .generalProtection => some 0#32
  | .pageFault code _ => some code
  | .alignmentCheck => some 0#32

/-- The value CR2 receives (60_exceptions.md R190). -/
def excCr2 : ExcKind → Option (BitVec 64)
  | .pageFault _ address => some address
  | _ => none

/-- The exception of a fault. -/
def faultKind : Fault → ExcKind
  | .exception kind _ => kind

/-- The return address a fault records. -/
def faultReturn : Fault → BitVec 64
  | .exception _ a => a

/-- The machine an exception leaves before the trap mechanism acts: CR2 is written by #PF, all else is as it was, and pc is
the return address (60_exceptions.md R190, R195). The trap mechanism itself is not in the spec (R196). The model's counter
goes on, so that the instruction, run again, meets the environment's next choice (log 18). -/
def takeException (s : State) (e : Fault) : State :=
  { s with cr2 := (excCr2 (faultKind e)).getD s.cr2, pc := faultReturn e, draws := s.draws + 1 }

/-- pc <- pc + ilen at the width of the mode, and one more draw (10_state.md R33; log 18). -/
def retire (s : State) (ilen : Nat) : State :=
  { s with
    pc := BitVec.ofNat 64 ((pcOffset s + ilen) % 2 ^ pcBits (modeOf s))
    draws := s.draws + 1 }

/-! ### The checks before the effect -/

/-- Steps 2 to 4 of 60_exceptions.md R191: the length, #UD, #NM. Between #UD and #NM the encodings the spec refuses are
refused (30_encoding.md R91, R109, R112; log 21). -/
def entryChecks (s : State) (ilen : Nat) (undefinedOpcode : Bool) (refuses : Option Refusal) : Result Unit :=
  if 15 < ilen then raise .generalProtection s
  else if undefinedOpcode then raise .invalidOpcode s
  else
    match refuses with
    | some r => .refused r
    | none => if cr0Ts s then raise .deviceNotAvailable s else .next ()

/-- A byte sequence that is #UD without a row (30_encoding.md R112), after the length check (60_exceptions.md R191). -/
def execUndefined (len : Nat) (s : State) : Host.Outcome State Fault Refusal :=
  if 15 < len then raise .generalProtection s else raise .invalidOpcode s

/-! ### Memory access -/

/-- A data access: where, how, and which bytes. -/
structure Access where
  /-- The segment (30_encoding.md R93). -/
  seg : SegReg
  /-- A segment violation is #SS(0). -/
  stack : Bool
  asz : AddrSize
  /-- The effective address of the operand (20_memory.md R60). -/
  ea : Addr
  /-- The form, which AC_POLICY and AC_GRANULE depend on, and whether it reads or writes. -/
  cls : EncClass
  vl : VecLen
  dir : Direction
  /-- The byte offsets accessed: all of the operand's, or those of the selected elements (20_memory.md R57). -/
  offs : List Nat
  deriving DecidableEq, Repr

/-- A load reads, a store writes (60_exceptions.md R185). -/
def accessKind (a : Access) : AccessKind :=
  match a.dir with
  | .load => .read
  | .store => .write

/-- #SS(0) or #GP(0) (60_exceptions.md R184). -/
def segViolation (a : Access) : ExcKind := if a.stack then .stackFault else .generalProtection

/-- The linear address of the operand's first byte outside `Mode64`, 32 bits (20_memory.md R61). -/
def linear32 (s : State) (a : Access) : Nat :=
  ((segRegister s a.seg).base.toNat + a.ea.toNat) % 2 ^ 32

/-- The linear address of the operand's first byte in `Mode64`, 64 bits (20_memory.md R61). -/
def linear64 (s : State) (a : Access) : Nat := (segBase64 s a.seg + a.ea).toNat

/-- Outside `Mode64`: an accessed byte wraps past the end of the offset or linear address space (20_memory.md R75). -/
def wraps32 (s : State) (a : Access) : Bool :=
  a.offs.any fun k => decide (2 ^ 32 ≤ a.ea.toNat + k) || decide (2 ^ 32 ≤ linear32 s a + k)

/-- The segment permits the kind of access (20_memory.md R62). -/
def segPermits (g : Segment) (kind : AccessKind) : Bool :=
  match kind with
  | .read => g.readable
  | .write => g.writable

/-- Protected and compatibility mode: a null selector, a right, or an accessed byte beyond the limit, or beyond FFFFH with
16-bit address size (20_memory.md R62; 60_exceptions.md R184). Bytes that wrap past FFFFFFFFH are left to `wraps32`. -/
def protViolation (s : State) (a : Access) : Bool :=
  let g := segRegister s a.seg
  g.isNull || !segPermits g (accessKind a)
    || a.offs.any fun k =>
        decide (a.ea.toNat + k < 2 ^ 32)
          && (decide (g.limit.toNat < a.ea.toNat + k) || (a.asz == .a16 && decide (0xFFFF < a.ea.toNat + k)))

/-- `SegCheck`: the linear address of the operand's first byte, or the violation of an accessed byte (20_memory.md R61, R62,
R75; 60_exceptions.md R184, R192). -/
def segCheck (s : State) (a : Access) : Result Nat :=
  match modeOf s with
  | .mode64 =>
    if a.offs.all fun k => canonical s.params.laBits (linear64 s a + k) then .next (linear64 s a)
    else raise (segViolation a) s
  | .real =>
    if a.offs.any fun k => decide (0xFFFF < a.ea.toNat + k) then raise (segViolation a) s
    else if wraps32 s a then .refused .operandWraps else .next (linear32 s a)
  | .v86 =>
    if a.offs.any fun k => decide (0xFFFF < a.ea.toNat + k) then raise (segViolation a) s
    else if wraps32 s a then .refused .operandWraps else .next (linear32 s a)
  | _ =>
    if protViolation s a then raise (segViolation a) s
    else if wraps32 s a then .refused .operandWraps else .next (linear32 s a)

/-- AC_POLICY of a class (60_exceptions.md R186). -/
def acPolicy (s : State) : EncClass → AcPolicy
  | .legacy => s.params.acLegacy
  | .vex => s.params.acVex
  | .evex => s.params.acEvex

/-- `AlignmentFault` on the linear address of the whole operand (60_exceptions.md R186). -/
def alignmentFault (s : State) (a : Access) (la : Nat) : Bool :=
  alignmentChecking s && decide (la % (Config.acGranule a.cls a.vl a.dir).bytes ≠ 0)
    && (match acPolicy s a.cls with
        | .never => false
        | .always => true
        | .either => Config.acRaises s.draws)

/-- The page-fault error code: P, W/R, U/S, RSVD, I/D = 0, PK (60_exceptions.md R189). -/
def pageFaultCode (s : State) (kind : AccessKind) (present reserved key : Bool) : BitVec 32 :=
  (BitVec.ofBool key ++ 0#1 ++ BitVec.ofBool reserved ++ BitVec.ofBool (s.cpl == 3#2)
    ++ BitVec.ofBool (kind == .write) ++ BitVec.ofBool present : BitVec 6).setWidth 32

/-- The page's protection key forbids the access (60_exceptions.md R185). -/
def keyDenies (e : PageEntry) (kind : AccessKind) : Bool :=
  match kind with
  | .read => e.keyDeniesRead
  | .write => e.keyDeniesWrite

/-- The page does not permit the access: a write to a read-only page, a CPL 3 access to a supervisor page, a reserved bit, the
protection key (60_exceptions.md R185). -/
def pageForbids (s : State) (e : PageEntry) (kind : AccessKind) : Bool :=
  (kind == .write && !e.writable) || (s.cpl == 3#2 && !e.user) || e.reservedBit || keyDenies e kind

/-- `Translate` of the linear address of one byte: the physical address, or the page-fault error code (20_memory.md R63).
Real mode has no paging (60_exceptions.md R172). -/
def translate (s : State) (la : Nat) (kind : AccessKind) : Except (BitVec 32) Nat :=
  match s.translation with
  | .identity => .ok la
  | .pages l =>
    if modeOf s == .real then .ok la
    else
      match findPage l la with
      | none => .error (pageFaultCode s kind false false false)
      | some e =>
        if pageForbids s e kind then .error (pageFaultCode s kind true e.reservedBit (keyDenies e kind))
        else .ok (physical e la)

/-- The accessed bytes whose translation faults, each with its linear address and the code. -/
def pageFaults (s : State) (a : Access) (la : Nat) : List (Nat × BitVec 32) :=
  a.offs.filterMap fun k =>
    match translate s (la + k) (accessKind a) with
    | .ok _ => none
    | .error c => some (la + k, c)

/-- The accessed bytes that translate: offset and physical address. -/
def accessedBytes (s : State) (a : Access) (la : Nat) : List (Nat × Nat) :=
  a.offs.filterMap fun k =>
    match translate s (la + k) (accessKind a) with
    | .ok p => some (k, p)
    | .error _ => none

/-- The page fault that is reported: the environment's choice among the faulting bytes (60_exceptions.md R190, R191). -/
def chosenFault (s : State) (first : Nat × BitVec 32) (l : List (Nat × BitVec 32)) : ExcKind :=
  let c := (l[Config.pfChoice s.draws % l.length]?).getD first
  .pageFault c.2 (BitVec.ofNat 64 c.1)

/-- The physical address belongs to a device (20_memory.md R59). -/
def inDevice (s : State) (p : Nat) : Bool :=
  s.devices.any fun r => decide (r.base ≤ p) && decide (p < r.base + r.size)

/-- What no exception stops but the spec gives no meaning: a device, a store into the program text (20_memory.md R59, R73). -/
def touch (s : State) (kind : AccessKind) (l : List (Nat × Nat)) : Result (List (Nat × Nat)) :=
  if l.any fun c => inDevice s c.2 then .refused .deviceMemory
  else if kind == .write && l.any (fun c => inText s c.2) then .refused .storeToText
  else .next l

/-- All the checks of an access, in the order of 60_exceptions.md R191 steps 5 and 6, before any byte is used: the accessed
bytes with their physical addresses (20_memory.md R64 to R67). An access of no byte makes no check. -/
def resolve (s : State) (a : Access) : Result (List (Nat × Nat)) :=
  if a.offs.isEmpty then .next []
  else
    andThen (segCheck s a) fun la =>
      match pageFaults s a la with
      | [] => if alignmentFault s a la then raise .alignmentCheck s else touch s (accessKind a) (accessedBytes s a la)
      | f :: l =>
        if alignmentFault s a la && Config.acBeforePf s.draws then raise .alignmentCheck s
        else raise (chosenFault s f (f :: l)) s

/-- `MemRead` and `MemReadMasked` (20_memory.md R64, R66). -/
def memRead (s : State) (a : Access) : Result Vec :=
  andThen (resolve s a) fun l => .next (loadBytes s.mem l)

/-- `MemWrite` and `MemWriteMasked` (20_memory.md R65, R67). -/
def memWrite (s : State) (a : Access) (v : Vec) : Result State :=
  andThen (resolve s a) fun l => .next { s with mem := storeBytes v l s.mem }

/-! ### The move -/

/-- What an encoding amounts to in a state: the one move all forms of the family are (40_movups_legacy_sse.md R132). -/
structure Move where
  cls : EncClass
  vl : VecLen
  dir : Direction
  ilen : Nat
  prefixes : Prefixes
  ext : RegExt
  /-- The disp8 multiplier (30_encoding.md R107). -/
  n8 : Nat
  modrm : ModRM
  /-- The effective mask; all elements for Legacy SSE and VEX (42_vmovups_evex.md R152). -/
  mask : BitVec 16
  /-- Zeroing-masking. -/
  zeroing : Bool
  deriving DecidableEq, Repr

/-- The register in ModRM:reg. -/
def moveReg (c : Move) : BitVec 5 := vecNumber c.ext.reg c.modrm.reg

/-- The register a register r/m names. -/
def moveRmReg (c : Move) (low : BitVec 3) : BitVec 5 := vecNumber c.ext.rmReg low

/-- The address size of the move (30_encoding.md R81). -/
def moveAsize (s : State) (c : Move) : AddrSize := addrSize (modeOf s) c.prefixes.addrSize

/-- The access of a memory r/m (20_memory.md R57, R60; 30_encoding.md R93). -/
def moveAccess (s : State) (c : Move) (o : MemOperand) : Access :=
  let asz := moveAsize s c
  let dflt := defaultSegment (modeOf s) asz c.ext o
  { seg := segmentOf (modeOf s) c.prefixes.seg dflt
    stack := violationIsStack (modeOf s) c.prefixes.seg dflt
    asz := asz
    ea := effectiveAddress s asz c.ext c.ilen c.n8 o
    cls := c.cls
    vl := c.vl
    dir := c.dir
    offs := maskedOffsets c.vl c.mask }

/-- What a register destination holds after the move (10_state.md R22; 42_vmovups_evex.md R150). -/
def moveResult (c : Move) (old src : Vec) : Vec :=
  match c.cls with
  | .legacy => replaceLow c.vl.bits old src
  | .vex => lowPart c.vl.bits src
  | .evex => maskedRegResult old src c.mask c.zeroing c.vl

/-- Write the register destination and go on. -/
def moveToReg (s : State) (c : Move) (d : BitVec 5) (src : Vec) : State :=
  retire (writeVec s d (moveResult c (readVec s d) src)) c.ilen

/-- The move, after its checks (60_exceptions.md R191): opcode 10H writes ModRM:reg, opcode 11H writes ModRM:r/m
(30_encoding.md R89). -/
def execMove (c : Move) (undefinedOpcode : Bool) (refuses : Option Refusal) (s : State) :
    Host.Outcome State Fault Refusal :=
  andThen (entryChecks s c.ilen undefinedOpcode refuses) fun _ =>
    match c.dir, c.modrm.rm with
    | .load, .reg r => .next (moveToReg s c (moveReg c) (readVec s (moveRmReg c r)))
    | .load, .mem o => andThen (memRead s (moveAccess s c o)) fun src => .next (moveToReg s c (moveReg c) src)
    | .store, .reg r => .next (moveToReg s c (moveRmReg c r) (readVec s (moveReg c)))
    | .store, .mem o => andThen (memWrite s (moveAccess s c o) (readVec s (moveReg c))) fun t => .next (retire t c.ilen)

end Sys2Proof.Machine
end

