-- ==== Sys2Proof/Machine/Vex.lean ====
section
/-! DEFINITION. The VEX forms (41_vmovups_vex.md). -/

namespace Sys2Proof.Machine

/-- 66H, F2H, F3H, REX or LOCK before a VEX or EVEX prefix (60_exceptions.md R179, R180). -/
def forbiddenPrefix (p : Prefixes) (rex : Option Rex) : Bool :=
  p.lock || p.opSize || p.rep.isSome || rex.isSome

/-- The vector registers are wide enough for the form, as they are for every form that is enabled (00_scope.md R7). That a
form which is too wide raises #UD, like any form that is not enabled, is the model's DESIGN CHOICE (log 11): with consistent
parameters there is none. -/
def withinMaxvl (s : State) (vl : VecLen) : Bool := decide (vl.bits ≤ s.params.maxvl.bits)

/-- #UD of a VEX form: vvvv, the CPUID flag, MAXVL, CR4.OSXSAVE and XCR0[2:1], a forbidden byte before the VEX prefix, the mode
(60_exceptions.md R174, R175, R177, R179, R180, R181; 00_scope.md R7). -/
def vexUndefined (s : State) (vl : VecLen) (p : Prefixes) (rex : Option Rex) (vvvv : BitVec 4) : Bool :=
  vvvv != 15#4 || !s.params.hasAvx || !withinMaxvl s vl || !cr4Osxsave s || !xcr0Avx s || forbiddenPrefix p rex
    || realOrV86 s

/-- The move of a two-byte VEX encoding (30_encoding.md R94, R97). -/
def vex2Move (vl : VecLen) (d : Direction) (p : Prefixes) (rex : Option Rex) (v : Vex2) (m : ModRM) (s : State) : Move where
  cls := .vex
  vl := vl
  dir := d
  ilen := vex2Ilen p rex m
  prefixes := p
  ext := vex2Ext (modeOf s) v
  n8 := 1
  modrm := m
  mask := fullMask vl
  zeroing := false

/-- The move of a three-byte VEX encoding (30_encoding.md R95, R97). -/
def vex3Move (vl : VecLen) (d : Direction) (p : Prefixes) (rex : Option Rex) (v : Vex3) (m : ModRM) (s : State) : Move where
  cls := .vex
  vl := vl
  dir := d
  ilen := vex3Ilen p rex m
  prefixes := p
  ext := vex3Ext (modeOf s) v
  n8 := 1
  modrm := m
  mask := fullMask vl
  zeroing := false

/-- B̅ = 0 outside `Mode64` is refused (30_encoding.md R97, R112). -/
def vex3Refuses (s : State) (v : Vex3) : Option Refusal :=
  if modeOf s != .mode64 && !v.bInv then some .extensionBitOutsideMode64 else none

/-- `VMOVUPS xmm1, xmm2/m128`, two-byte prefix (41_vmovups_vex.md R140). -/
def execVex2Load128 (p : Prefixes) (rex : Option Rex) (v : Vex2) (m : ModRM) (s : State) :
    Host.Outcome State Fault Refusal :=
  execMove (vex2Move .l128 .load p rex v m s) (vexUndefined s .l128 p rex v.vvvv) none s

/-- `VMOVUPS xmm1, xmm2/m128`, three-byte prefix (41_vmovups_vex.md R140). -/
def execVex3Load128 (p : Prefixes) (rex : Option Rex) (v : Vex3) (m : ModRM) (s : State) :
    Host.Outcome State Fault Refusal :=
  execMove (vex3Move .l128 .load p rex v m s) (vexUndefined s .l128 p rex v.vvvv) (vex3Refuses s v) s

/-- `VMOVUPS xmm2/m128, xmm1`, two-byte prefix (41_vmovups_vex.md R141). -/
def execVex2Store128 (p : Prefixes) (rex : Option Rex) (v : Vex2) (m : ModRM) (s : State) :
    Host.Outcome State Fault Refusal :=
  execMove (vex2Move .l128 .store p rex v m s) (vexUndefined s .l128 p rex v.vvvv) none s

/-- `VMOVUPS xmm2/m128, xmm1`, three-byte prefix (41_vmovups_vex.md R141). -/
def execVex3Store128 (p : Prefixes) (rex : Option Rex) (v : Vex3) (m : ModRM) (s : State) :
    Host.Outcome State Fault Refusal :=
  execMove (vex3Move .l128 .store p rex v m s) (vexUndefined s .l128 p rex v.vvvv) (vex3Refuses s v) s

/-- `VMOVUPS ymm1, ymm2/m256`, two-byte prefix (41_vmovups_vex.md R142). -/
def execVex2Load256 (p : Prefixes) (rex : Option Rex) (v : Vex2) (m : ModRM) (s : State) :
    Host.Outcome State Fault Refusal :=
  execMove (vex2Move .l256 .load p rex v m s) (vexUndefined s .l256 p rex v.vvvv) none s

/-- `VMOVUPS ymm1, ymm2/m256`, three-byte prefix (41_vmovups_vex.md R142). -/
def execVex3Load256 (p : Prefixes) (rex : Option Rex) (v : Vex3) (m : ModRM) (s : State) :
    Host.Outcome State Fault Refusal :=
  execMove (vex3Move .l256 .load p rex v m s) (vexUndefined s .l256 p rex v.vvvv) (vex3Refuses s v) s

/-- `VMOVUPS ymm2/m256, ymm1`, two-byte prefix (41_vmovups_vex.md R143). -/
def execVex2Store256 (p : Prefixes) (rex : Option Rex) (v : Vex2) (m : ModRM) (s : State) :
    Host.Outcome State Fault Refusal :=
  execMove (vex2Move .l256 .store p rex v m s) (vexUndefined s .l256 p rex v.vvvv) none s

/-- `VMOVUPS ymm2/m256, ymm1`, three-byte prefix (41_vmovups_vex.md R143). -/
def execVex3Store256 (p : Prefixes) (rex : Option Rex) (v : Vex3) (m : ModRM) (s : State) :
    Host.Outcome State Fault Refusal :=
  execMove (vex3Move .l256 .store p rex v m s) (vexUndefined s .l256 p rex v.vvvv) (vex3Refuses s v) s

end Sys2Proof.Machine
end

