-- ==== Sys2Proof/Machine/Evex.lean ====
section
/-! DEFINITION. The EVEX forms with writemask (42_vmovups_evex.md). -/

namespace Sys2Proof.Machine

/-- The r/m operand is memory. -/
def isMemRm (m : ModRM) : Bool :=
  match m.rm with
  | .reg _ => false
  | .mem _ => true

/-- The CPUID flags of an EVEX form: AVX512F, and AVX512VL at 128 and 256 bits (00_scope.md R2). -/
def evexFlags (s : State) (vl : VecLen) : Bool :=
  s.params.hasAvx512f && (vl == .l512 || s.params.hasAvx512vl)

/-- The reserved EVEX fields and the mask combinations that are #UD in every mode: P0[3:2], P1[2], W, b, z without a mask,
z with a memory destination (60_exceptions.md R182; 30_encoding.md R105, R106). -/
def evexReserved (d : Direction) (v : Evex) (m : ModRM) : Bool :=
  v.p0res != 0#2 || !v.p1fixed || v.w || v.b || (v.z && v.aaa == 0#3) || (v.z && d == .store && isMemRm m)

/-- #UD of an EVEX form (60_exceptions.md R174, R175, R178 to R182; MAXVL as for VEX, 00_scope.md R7, log 11). V̅' = 0 is #UD in `Mode64`; outside it, where the bit has
no register to extend, see `evexRefuses` (30_encoding.md R108, R109, R112). -/
def evexUndefined (s : State) (vl : VecLen) (d : Direction) (p : Prefixes) (rex : Option Rex) (v : Evex) (m : ModRM) : Bool :=
  v.vvvv != 15#4 || !evexFlags s vl || !withinMaxvl s vl || !cr4Osxsave s || !xcr0Avx s || !xcr0Avx512 s
    || forbiddenPrefix p rex || realOrV86 s || evexReserved d v m || (modeOf s == .mode64 && !v.vpInv)

/-- What the spec refuses: an extension bit outside `Mode64`, and a memory operand with 16-bit address size
(30_encoding.md R91, R109, R112; logs 20, 21). -/
def evexRefuses (s : State) (p : Prefixes) (v : Evex) (m : ModRM) : Option Refusal :=
  if modeOf s != .mode64 && (!v.bInv || !v.rpInv || !v.vpInv) then some .extensionBitOutsideMode64
  else if isMemRm m && addrSize (modeOf s) p.addrSize == .a16 then some .evexAddressSize16
  else none

/-- The move of an EVEX encoding: disp8 is scaled by VL/8 (30_encoding.md R104, R107), the mask is aaa's
(42_vmovups_evex.md R152). -/
def evexMove (vl : VecLen) (d : Direction) (p : Prefixes) (rex : Option Rex) (v : Evex) (m : ModRM) (s : State) : Move where
  cls := .evex
  vl := vl
  dir := d
  ilen := evexIlen p rex m
  prefixes := p
  ext := evexExt (modeOf s) v
  n8 := vl.bytes
  modrm := m
  mask := effectiveMask s v.aaa vl
  zeroing := v.z

/-- `VMOVUPS xmm1 k1 z, xmm2/m128` (42_vmovups_evex.md R154). -/
def execEvexLoad128 (p : Prefixes) (rex : Option Rex) (v : Evex) (m : ModRM) (s : State) :
    Host.Outcome State Fault Refusal :=
  execMove (evexMove .l128 .load p rex v m s) (evexUndefined s .l128 .load p rex v m) (evexRefuses s p v m) s

/-- `VMOVUPS ymm1 k1 z, ymm2/m256` (42_vmovups_evex.md R155). -/
def execEvexLoad256 (p : Prefixes) (rex : Option Rex) (v : Evex) (m : ModRM) (s : State) :
    Host.Outcome State Fault Refusal :=
  execMove (evexMove .l256 .load p rex v m s) (evexUndefined s .l256 .load p rex v m) (evexRefuses s p v m) s

/-- `VMOVUPS zmm1 k1 z, zmm2/m512` (42_vmovups_evex.md R156). -/
def execEvexLoad512 (p : Prefixes) (rex : Option Rex) (v : Evex) (m : ModRM) (s : State) :
    Host.Outcome State Fault Refusal :=
  execMove (evexMove .l512 .load p rex v m s) (evexUndefined s .l512 .load p rex v m) (evexRefuses s p v m) s

/-- `VMOVUPS xmm2/m128 k1 z, xmm1` (42_vmovups_evex.md R157). -/
def execEvexStore128 (p : Prefixes) (rex : Option Rex) (v : Evex) (m : ModRM) (s : State) :
    Host.Outcome State Fault Refusal :=
  execMove (evexMove .l128 .store p rex v m s) (evexUndefined s .l128 .store p rex v m) (evexRefuses s p v m) s

/-- `VMOVUPS ymm2/m256 k1 z, ymm1` (42_vmovups_evex.md R158). -/
def execEvexStore256 (p : Prefixes) (rex : Option Rex) (v : Evex) (m : ModRM) (s : State) :
    Host.Outcome State Fault Refusal :=
  execMove (evexMove .l256 .store p rex v m s) (evexUndefined s .l256 .store p rex v m) (evexRefuses s p v m) s

/-- `VMOVUPS zmm2/m512 k1 z, zmm1` (42_vmovups_evex.md R159). -/
def execEvexStore512 (p : Prefixes) (rex : Option Rex) (v : Evex) (m : ModRM) (s : State) :
    Host.Outcome State Fault Refusal :=
  execMove (evexMove .l512 .store p rex v m s) (evexUndefined s .l512 .store p rex v m) (evexRefuses s p v m) s

end Sys2Proof.Machine
end

