-- ==== Sys2Proof/Machine/Legacy.lean ====
section
/-! DEFINITION. The Legacy SSE forms (40_movups_legacy_sse.md). -/

namespace Sys2Proof.Machine

/-- #UD of a Legacy SSE form: the CPUID flag, CR0.EM, CR4.OSFXSR, LOCK (60_exceptions.md R175, R176, R179). -/
def legacyUndefined (s : State) (p : Prefixes) : Bool :=
  !s.params.hasSse || cr0Em s || !cr4Osfxsr s || p.lock

/-- The move of a Legacy SSE encoding (30_encoding.md R84, R85). -/
def legacyMove (d : Direction) (p : Prefixes) (rex : Option Rex) (m : ModRM) (s : State) : Move where
  cls := .legacy
  vl := .l128
  dir := d
  ilen := legacyIlen p rex m
  prefixes := p
  ext := legacyExt (modeOf s) rex
  n8 := 1
  modrm := m
  mask := fullMask .l128
  zeroing := false

/-- `MOVUPS xmm1, xmm2/m128` (40_movups_legacy_sse.md R130). -/
def execMovupsLoad (p : Prefixes) (rex : Option Rex) (m : ModRM) (s : State) : Host.Outcome State Fault Refusal :=
  execMove (legacyMove .load p rex m s) (legacyUndefined s p) none s

/-- `MOVUPS xmm2/m128, xmm1` (40_movups_legacy_sse.md R131). -/
def execMovupsStore (p : Prefixes) (rex : Option Rex) (m : ModRM) (s : State) : Host.Outcome State Fault Refusal :=
  execMove (legacyMove .store p rex m s) (legacyUndefined s p) none s

end Sys2Proof.Machine
end

