-- ==== Sys2Proof/Machine/Dispatch.lean ====
section
/-! DEFINITION. The meaning of an instruction: one arm per constructor. -/

namespace Sys2Proof.Machine

def exec (i : Instr) (s : State) : Host.Outcome State Fault Refusal :=
  match i with
  | .movupsLoad p rex m => Sys2Proof.Machine.execMovupsLoad p rex m s
  | .movupsStore p rex m => Sys2Proof.Machine.execMovupsStore p rex m s
  | .vex2Load128 p rex v m => Sys2Proof.Machine.execVex2Load128 p rex v m s
  | .vex3Load128 p rex v m => Sys2Proof.Machine.execVex3Load128 p rex v m s
  | .vex2Store128 p rex v m => Sys2Proof.Machine.execVex2Store128 p rex v m s
  | .vex3Store128 p rex v m => Sys2Proof.Machine.execVex3Store128 p rex v m s
  | .vex2Load256 p rex v m => Sys2Proof.Machine.execVex2Load256 p rex v m s
  | .vex3Load256 p rex v m => Sys2Proof.Machine.execVex3Load256 p rex v m s
  | .vex2Store256 p rex v m => Sys2Proof.Machine.execVex2Store256 p rex v m s
  | .vex3Store256 p rex v m => Sys2Proof.Machine.execVex3Store256 p rex v m s
  | .evexLoad128 p rex v m => Sys2Proof.Machine.execEvexLoad128 p rex v m s
  | .evexLoad256 p rex v m => Sys2Proof.Machine.execEvexLoad256 p rex v m s
  | .evexLoad512 p rex v m => Sys2Proof.Machine.execEvexLoad512 p rex v m s
  | .evexStore128 p rex v m => Sys2Proof.Machine.execEvexStore128 p rex v m s
  | .evexStore256 p rex v m => Sys2Proof.Machine.execEvexStore256 p rex v m s
  | .evexStore512 p rex v m => Sys2Proof.Machine.execEvexStore512 p rex v m s

end Sys2Proof.Machine
end

