-- ==== Sys2Proof/Machine/Run.lean ====
section
/-! DEFINITION. Fetching, decoding and running one instruction, the load of a program from outside, and the default launch
state (70_reset_and_hazards.md R210, R212, R214). -/

namespace Sys2Proof.Machine

/-- The refusal of a rejected byte sequence. -/
def refusalOf : DecodeError → Refusal
  | .notMovups => .notMovups
  | .repeatedPrefix => .repeatedPrefix
  | .misplacedRex => .misplacedRex
  | .truncated => .textNotFetchable

/-- Run what the decoder answered. -/
def runDecoded (s : State) : Decoded → Host.Outcome State Fault Refusal
  | .instr i _ => exec i s
  | .undefinedOpcode len => execUndefined len s
  | .reject e => .refused (refusalOf e)

/-- One step: the text must be fetchable, then the instruction at pc is fetched, decoded and run (92_eei_decisions.md D1;
60_exceptions.md R191, R196). -/
def runOne (s : State) : Host.Outcome State Fault Refusal :=
  if textFetchable s then runDecoded s (decode (modeOf s) (fetchBytes s)) else .refused .textNotFetchable

/-- The state in `Mode64`, the mode `decodeTableWord` decodes in (30_encoding.md R81); nothing else of it changes. -/
def inMode64 (s : State) : State :=
  { s with
    cr0 := s.cr0 ||| 1#64
    eflags := s.eflags &&& ~~~0x20000#32
    efer := s.efer ||| 0x400#64
    csL := true }

/-- The load of a program from outside: its bytes stand at the base address, which the text fields and pc then name
(70_reset_and_hazards.md R210, R214; log 2). -/
def loadProgram (s : State) (base : Addr) (bytes : List Byte) : State :=
  { s with
    mem := placeBytes s bytes base.toNat s.mem
    pc := base
    textBase := base
    textLen := bytes.length }

/-- How many of the bytes are the instruction they begin with; all of them, if the decoder rejects them. -/
def leadingLength (mode : Mode) (bytes : List Byte) : Nat :=
  match decode mode bytes with
  | .instr i _ => instrLength i
  | .undefinedOpcode n => n
  | .reject _ => bytes.length

/-- The load of a table word from outside, at pc: the state in `Mode64`, since the mode decides what the bytes are
(30_encoding.md R98, R109), with the program that is the word's instruction; the zero bytes after it, which the word may leave
out, are stored too (log 2). -/
def loadWord (s : State) (nbits w : Nat) : State :=
  { loadProgram (inMode64 s) s.pc (bytesOfWord nbits w) with textLen := leadingLength .mode64 (bytesOfWord nbits w) }

/-- A flat segment: base 0, no limit, every access permitted (00_scope.md R8, `SegCheck`). -/
def flatSegment : Segment where
  base := 0#64
  limit := 0xFFFFFFFF#32
  isNull := false
  readable := true
  writable := true

/-- The default launch state of 00_scope.md R8 and 70_reset_and_hazards.md R212: `Mode64`, CPL 3, every form enabled, alignment
checking off, flat segments, identity translation. What R8 gives no default for is as after reset. -/
def launch : State :=
  { State.reset with
    pc := 0x1000#64
    segs :=
      { es := flatSegment
        cs := flatSegment
        ss := flatSegment
        ds := flatSegment
        fs := flatSegment
        gs := flatSegment }
    csL := true
    cr0 := 0x60000011#64
    cr4 := 0x40200#64
    xcr0 := 0xE7#64
    efer := 0x400#64
    cpl := 3#2 }

/-- pc is at the base address of the program, where a run starts (70_reset_and_hazards.md R214). -/
def atStart (s : State) : Bool := s.pc == s.textBase

/-- pc has stepped past the last instruction of the program (70_reset_and_hazards.md R214). The sum is not reduced, since the
wrap of pc is not modelled (10_state.md R33; log 36). -/
def atEnd (s : State) : Bool := s.pc.toNat == s.textBase.toNat + s.textLen

end Sys2Proof.Machine
end

