-- ==== Sys2Proof/Machine/Move.lean ====
section
/-! DEFINITION. What each instruction moves in a state, by name, for statements about all of them: the move, the #UD condition
and the refusal its meaning passes to `execMove`. The meanings do not depend on this file. -/

namespace Sys2Proof.Machine

/-- The move of an instruction. -/
def moveOf (i : Instr) (s : State) : Move :=
  match i with
  | .movupsLoad p rex m => legacyMove .load p rex m s
  | .movupsStore p rex m => legacyMove .store p rex m s
  | .vex2Load128 p rex v m => vex2Move .l128 .load p rex v m s
  | .vex3Load128 p rex v m => vex3Move .l128 .load p rex v m s
  | .vex2Store128 p rex v m => vex2Move .l128 .store p rex v m s
  | .vex3Store128 p rex v m => vex3Move .l128 .store p rex v m s
  | .vex2Load256 p rex v m => vex2Move .l256 .load p rex v m s
  | .vex3Load256 p rex v m => vex3Move .l256 .load p rex v m s
  | .vex2Store256 p rex v m => vex2Move .l256 .store p rex v m s
  | .vex3Store256 p rex v m => vex3Move .l256 .store p rex v m s
  | .evexLoad128 p rex v m => evexMove .l128 .load p rex v m s
  | .evexLoad256 p rex v m => evexMove .l256 .load p rex v m s
  | .evexLoad512 p rex v m => evexMove .l512 .load p rex v m s
  | .evexStore128 p rex v m => evexMove .l128 .store p rex v m s
  | .evexStore256 p rex v m => evexMove .l256 .store p rex v m s
  | .evexStore512 p rex v m => evexMove .l512 .store p rex v m s

/-- The #UD condition of an instruction (60_exceptions.md R174 to R182). -/
def undefinedOf (i : Instr) (s : State) : Bool :=
  match i with
  | .movupsLoad p _ _ => legacyUndefined s p
  | .movupsStore p _ _ => legacyUndefined s p
  | .vex2Load128 p rex v _ => vexUndefined s .l128 p rex v.vvvv
  | .vex3Load128 p rex v _ => vexUndefined s .l128 p rex v.vvvv
  | .vex2Store128 p rex v _ => vexUndefined s .l128 p rex v.vvvv
  | .vex3Store128 p rex v _ => vexUndefined s .l128 p rex v.vvvv
  | .vex2Load256 p rex v _ => vexUndefined s .l256 p rex v.vvvv
  | .vex3Load256 p rex v _ => vexUndefined s .l256 p rex v.vvvv
  | .vex2Store256 p rex v _ => vexUndefined s .l256 p rex v.vvvv
  | .vex3Store256 p rex v _ => vexUndefined s .l256 p rex v.vvvv
  | .evexLoad128 p rex v m => evexUndefined s .l128 .load p rex v m
  | .evexLoad256 p rex v m => evexUndefined s .l256 .load p rex v m
  | .evexLoad512 p rex v m => evexUndefined s .l512 .load p rex v m
  | .evexStore128 p rex v m => evexUndefined s .l128 .store p rex v m
  | .evexStore256 p rex v m => evexUndefined s .l256 .store p rex v m
  | .evexStore512 p rex v m => evexUndefined s .l512 .store p rex v m

/-- What the spec refuses of an instruction (30_encoding.md R91, R97, R109, R112). -/
def refusesOf (i : Instr) (s : State) : Option Refusal :=
  match i with
  | .movupsLoad _ _ _ => none
  | .movupsStore _ _ _ => none
  | .vex2Load128 _ _ _ _ => none
  | .vex3Load128 _ _ v _ => vex3Refuses s v
  | .vex2Store128 _ _ _ _ => none
  | .vex3Store128 _ _ v _ => vex3Refuses s v
  | .vex2Load256 _ _ _ _ => none
  | .vex3Load256 _ _ v _ => vex3Refuses s v
  | .vex2Store256 _ _ _ _ => none
  | .vex3Store256 _ _ v _ => vex3Refuses s v
  | .evexLoad128 p _ v m => evexRefuses s p v m
  | .evexLoad256 p _ v m => evexRefuses s p v m
  | .evexLoad512 p _ v m => evexRefuses s p v m
  | .evexStore128 p _ v m => evexRefuses s p v m
  | .evexStore256 p _ v m => evexRefuses s p v m
  | .evexStore512 p _ v m => evexRefuses s p v m

/-- The vector register the instruction writes, if its destination is a register (10_state.md R23). -/
def destReg (i : Instr) (s : State) : Option (BitVec 5) :=
  match (moveOf i s).dir, (moveOf i s).modrm.rm with
  | .load, _ => some (moveReg (moveOf i s))
  | .store, .reg r => some (moveRmReg (moveOf i s) r)
  | .store, .mem _ => none

/-- The memory operand the instruction writes, if its destination is memory (30_encoding.md R89). -/
def storedOperand (i : Instr) (s : State) : Option MemOperand :=
  match (moveOf i s).dir, (moveOf i s).modrm.rm with
  | .store, .mem o => some o
  | _, _ => none

/-- The memory operand of the instruction, read or written. -/
def memOperand (i : Instr) (s : State) : Option MemOperand :=
  match (moveOf i s).modrm.rm with
  | .reg _ => none
  | .mem o => some o

/-- The access of the instruction's memory operand. -/
def accessOf (i : Instr) (s : State) (o : MemOperand) : Access := moveAccess s (moveOf i s) o

end Sys2Proof.Machine
end

