-- ==== Sys2Proof/Safety.lean ====
section
/-! DEFINITION. The terms statements are made in: what must hold before a form executes, what a completed instruction leaves,
the invariant of a machine, and a successful run (70_reset_and_hazards.md R212, R214). -/

namespace Sys2Proof.Machine

/-! ### The instructions by form, and what their encodings hold -/

/-- The two-byte VEX loads with their vector lengths (41_vmovups_vex.md R140, R142). -/
def vex2Loads : List (VecLen × (Prefixes → Option Rex → Vex2 → ModRM → Instr)) :=
  [(.l128, .vex2Load128), (.l256, .vex2Load256)]

/-- The two-byte VEX stores with their vector lengths (41_vmovups_vex.md R141, R143). -/
def vex2Stores : List (VecLen × (Prefixes → Option Rex → Vex2 → ModRM → Instr)) :=
  [(.l128, .vex2Store128), (.l256, .vex2Store256)]

/-- The three-byte VEX loads with their vector lengths (41_vmovups_vex.md R140, R142). -/
def vex3Loads : List (VecLen × (Prefixes → Option Rex → Vex3 → ModRM → Instr)) :=
  [(.l128, .vex3Load128), (.l256, .vex3Load256)]

/-- The three-byte VEX stores with their vector lengths (41_vmovups_vex.md R141, R143). -/
def vex3Stores : List (VecLen × (Prefixes → Option Rex → Vex3 → ModRM → Instr)) :=
  [(.l128, .vex3Store128), (.l256, .vex3Store256)]

/-- The EVEX loads with their vector lengths (42_vmovups_evex.md R154, R155, R156). -/
def evexLoads : List (VecLen × (Prefixes → Option Rex → Evex → ModRM → Instr)) :=
  [(.l128, .evexLoad128), (.l256, .evexLoad256), (.l512, .evexLoad512)]

/-- The EVEX stores with their vector lengths (42_vmovups_evex.md R157, R158, R159). -/
def evexStores : List (VecLen × (Prefixes → Option Rex → Evex → ModRM → Instr)) :=
  [(.l128, .evexStore128), (.l256, .evexStore256), (.l512, .evexStore512)]

/-- The legacy prefixes of an instruction (30_encoding.md R83). -/
def prefixesOf : Instr → Prefixes
  | .movupsLoad p _ _ => p
  | .movupsStore p _ _ => p
  | .vex2Load128 p _ _ _ => p
  | .vex3Load128 p _ _ _ => p
  | .vex2Store128 p _ _ _ => p
  | .vex3Store128 p _ _ _ => p
  | .vex2Load256 p _ _ _ => p
  | .vex3Load256 p _ _ _ => p
  | .vex2Store256 p _ _ _ => p
  | .vex3Store256 p _ _ _ => p
  | .evexLoad128 p _ _ _ => p
  | .evexLoad256 p _ _ _ => p
  | .evexLoad512 p _ _ _ => p
  | .evexStore128 p _ _ _ => p
  | .evexStore256 p _ _ _ => p
  | .evexStore512 p _ _ _ => p

/-- The REX byte of an instruction, if it has one (30_encoding.md R84). -/
def rexOf : Instr → Option Rex
  | .movupsLoad _ rex _ => rex
  | .movupsStore _ rex _ => rex
  | .vex2Load128 _ rex _ _ => rex
  | .vex3Load128 _ rex _ _ => rex
  | .vex2Store128 _ rex _ _ => rex
  | .vex3Store128 _ rex _ _ => rex
  | .vex2Load256 _ rex _ _ => rex
  | .vex3Load256 _ rex _ _ => rex
  | .vex2Store256 _ rex _ _ => rex
  | .vex3Store256 _ rex _ _ => rex
  | .evexLoad128 _ rex _ _ => rex
  | .evexLoad256 _ rex _ _ => rex
  | .evexLoad512 _ rex _ _ => rex
  | .evexStore128 _ rex _ _ => rex
  | .evexStore256 _ rex _ _ => rex
  | .evexStore512 _ rex _ _ => rex

/-- The vvvv field as it stands in the VEX or EVEX prefix; a Legacy SSE form has none (30_encoding.md R94, R95, R100). -/
def vvvvOf : Instr → Option (BitVec 4)
  | .movupsLoad _ _ _ => none
  | .movupsStore _ _ _ => none
  | .vex2Load128 _ _ v _ => some v.vvvv
  | .vex3Load128 _ _ v _ => some v.vvvv
  | .vex2Store128 _ _ v _ => some v.vvvv
  | .vex3Store128 _ _ v _ => some v.vvvv
  | .vex2Load256 _ _ v _ => some v.vvvv
  | .vex3Load256 _ _ v _ => some v.vvvv
  | .vex2Store256 _ _ v _ => some v.vvvv
  | .vex3Store256 _ _ v _ => some v.vvvv
  | .evexLoad128 _ _ v _ => some v.vvvv
  | .evexLoad256 _ _ v _ => some v.vvvv
  | .evexLoad512 _ _ v _ => some v.vvvv
  | .evexStore128 _ _ v _ => some v.vvvv
  | .evexStore256 _ _ v _ => some v.vvvv
  | .evexStore512 _ _ v _ => some v.vvvv

/-- The EVEX payload of an EVEX instruction (30_encoding.md R100). -/
def evexOf : Instr → Option Evex
  | .movupsLoad _ _ _ => none
  | .movupsStore _ _ _ => none
  | .vex2Load128 _ _ _ _ => none
  | .vex3Load128 _ _ _ _ => none
  | .vex2Store128 _ _ _ _ => none
  | .vex3Store128 _ _ _ _ => none
  | .vex2Load256 _ _ _ _ => none
  | .vex3Load256 _ _ _ _ => none
  | .vex2Store256 _ _ _ _ => none
  | .vex3Store256 _ _ _ _ => none
  | .evexLoad128 _ _ v _ => some v
  | .evexLoad256 _ _ v _ => some v
  | .evexLoad512 _ _ v _ => some v
  | .evexStore128 _ _ v _ => some v
  | .evexStore256 _ _ v _ => some v
  | .evexStore512 _ _ v _ => some v

/-- The VEX3 payload of a three-byte VEX instruction (30_encoding.md R95). -/
def vex3Of : Instr → Option Vex3
  | .movupsLoad _ _ _ => none
  | .movupsStore _ _ _ => none
  | .vex2Load128 _ _ _ _ => none
  | .vex3Load128 _ _ v _ => some v
  | .vex2Store128 _ _ _ _ => none
  | .vex3Store128 _ _ v _ => some v
  | .vex2Load256 _ _ _ _ => none
  | .vex3Load256 _ _ v _ => some v
  | .vex2Store256 _ _ _ _ => none
  | .vex3Store256 _ _ v _ => some v
  | .evexLoad128 _ _ _ _ => none
  | .evexLoad256 _ _ _ _ => none
  | .evexLoad512 _ _ _ _ => none
  | .evexStore128 _ _ _ _ => none
  | .evexStore256 _ _ _ _ => none
  | .evexStore512 _ _ _ _ => none

/-- VL of an instruction (00_scope.md R9). -/
def lengthOf : Instr → VecLen
  | .movupsLoad _ _ _ => .l128
  | .movupsStore _ _ _ => .l128
  | .vex2Load128 _ _ _ _ => .l128
  | .vex3Load128 _ _ _ _ => .l128
  | .vex2Store128 _ _ _ _ => .l128
  | .vex3Store128 _ _ _ _ => .l128
  | .vex2Load256 _ _ _ _ => .l256
  | .vex3Load256 _ _ _ _ => .l256
  | .vex2Store256 _ _ _ _ => .l256
  | .vex3Store256 _ _ _ _ => .l256
  | .evexLoad128 _ _ _ _ => .l128
  | .evexLoad256 _ _ _ _ => .l256
  | .evexLoad512 _ _ _ _ => .l512
  | .evexStore128 _ _ _ _ => .l128
  | .evexStore256 _ _ _ _ => .l256
  | .evexStore512 _ _ _ _ => .l512

/-- The encoding class of an instruction (10_state.md R22). -/
def classOf (i : Instr) : EncClass :=
  match evexOf i, vvvvOf i with
  | some _, _ => .evex
  | none, some _ => .vex
  | none, none => .legacy

/-- The group of a legacy prefix byte: LOCK, repeat, segment override, operand size, address size; any other byte has none
(30_encoding.md R83). -/
def prefixGroup (b : Byte) : Option Nat :=
  if b = 0xF0#8 then some 0
  else if b = 0xF2#8 ∨ b = 0xF3#8 then some 1
  else if b = 0x2E#8 ∨ b = 0x36#8 ∨ b = 0x3E#8 ∨ b = 0x26#8 ∨ b = 0x64#8 ∨ b = 0x65#8 then some 2
  else if b = 0x66#8 then some 3
  else if b = 0x67#8 then some 4
  else none

/-- The instruction raises the exception, with its own address as the return address (60_exceptions.md R190, R195). -/
def raises (i : Instr) (s : State) (k : ExcKind) : Prop := exec i s = .fault (.exception k s.pc)

/-- The checks of 60_exceptions.md R191 before the memory operand pass: at most 15 bytes, no #UD condition, no refusal,
CR0.TS = 0. -/
def reachesOperand (i : Instr) (s : State) : Prop :=
  instrLength i ≤ 15 ∧ undefinedOf i s = false ∧ refusesOf i s = none ∧ cr0Ts s = false

/-- Apply a change to the state of a next outcome; a fault or a refusal stays as it is. -/
def mapNext (f : State → State) : Host.Outcome State Fault Refusal → Host.Outcome State Fault Refusal
  | .next t => .next (f t)
  | .fault e => .fault e
  | .refused r => .refused r

/-! ### Addresses as exact integers (20_memory.md R60, 30_encoding.md R90 to R92) -/

/-- N: an EVEX 8-bit displacement counts in units of VL/8 bytes, any other in bytes (30_encoding.md R107). -/
def dispFactor (i : Instr) : Nat :=
  match evexOf i with
  | some _ => (lengthOf i).bits / 8
  | none => 1

/-- `Bx`, the bit that extends a base register: in `Mode64` the complement of B̅ of VEX3 or EVEX, REX.B of a Legacy SSE form;
0 without one and in every other mode (30_encoding.md R84, R90, R95, R97, R104). -/
def baseBit (mode : Mode) (i : Instr) : Bool :=
  decide (mode = .mode64) &&
    match evexOf i, vex3Of i, vvvvOf i, rexOf i with
    | some v, _, _, _ => !v.bInv
    | none, some v, _, _ => !v.bInv
    | none, none, none, some r => r.b
    | none, none, _, _ => false

/-- `Xx`, the bit that extends an index register: the same with X̅ and REX.X (30_encoding.md R84, R90, R95, R97, R104). -/
def indexBit (mode : Mode) (i : Instr) : Bool :=
  decide (mode = .mode64) &&
    match evexOf i, vex3Of i, vvvvOf i, rexOf i with
    | some v, _, _, _ => !v.xInv
    | none, some v, _, _ => !v.xInv
    | none, none, none, some r => r.x
    | none, none, _, _ => false

/-- The effective address of a memory operand in the instruction whose r/m it is, given the instruction but for its ModR/M. -/
def operandEa (f : ModRM → Instr) (s : State) (reg : BitVec 3) (o : MemOperand) : Addr :=
  (accessOf (f ⟨reg, .mem o⟩) s o).ea

/-- The displacement, an 8-bit one multiplied by N (30_encoding.md R92, R107). -/
def dispInt (n8 : Nat) : Disp → Int
  | .none => 0
  | .d8 d => d.toInt * n8
  | .d16 d => d.toInt
  | .d32 d => d.toInt

/-- The value of a base register; RIP-relative is the address of the next instruction. -/
def baseInt (s : State) (ilen : Nat) : BaseReg → Int
  | .none => 0
  | .gpr i => (s.gpr[i.toNat]'(i.isLt)).toNat
  | .nextPc => s.pc.toNat + ilen

/-- index * scale. -/
def indexInt (s : State) (xx : Bool) (o : MemOperand) : Int :=
  match indexOf xx o, o.sib with
  | some i, some sb => (s.gpr[i.toNat]'(i.isLt)).toNat * 2 ^ sb.scale.toNat
  | _, _ => 0

/-- General register n as a number. -/
def gprInt (s : State) (n : Fin 16) : Int := s.gpr[n.val].toNat

/-- base + index of the table for 16-bit address size: BX is 3, BP is 5, SI is 6, DI is 7 (30_encoding.md R91). -/
def tableInt16 (s : State) (o : MemOperand) : Int :=
  match o.rm.toNat with
  | 0 => gprInt s 3 + gprInt s 6
  | 1 => gprInt s 3 + gprInt s 7
  | 2 => gprInt s 5 + gprInt s 6
  | 3 => gprInt s 5 + gprInt s 7
  | 4 => gprInt s 6
  | 5 => gprInt s 7
  | 6 => if o.mod = .m00 then 0 else gprInt s 5
  | _ => gprInt s 3

/-! ### What must hold before a form executes (70_reset_and_hazards.md R212) -/

/-- No #UD from the control state for a Legacy SSE form: the flag SSE, CR0.EM = 0, CR4.OSFXSR = 1. -/
def legacyUsable (s : State) : Prop :=
  s.params.hasSse = true ∧ cr0Em s = false ∧ cr4Osfxsr s = true

/-- No #UD from the control state for a VEX form: the flag AVX, CR4.OSXSAVE = 1, XCR0[2:1] = 11b, neither `Real` nor `V86`. That VL
is at most MAXVL is a premise of its own (00_scope.md R7; log 11). -/
def vexUsable (s : State) : Prop :=
  s.params.hasAvx = true ∧ cr4Osxsave s = true ∧ xcr0Avx s = true ∧ modeOf s ≠ .real ∧ modeOf s ≠ .v86

/-- No #UD from the control state for an EVEX form at a vector length: the flags AVX512F and, below 512 bits, AVX512VL;
CR4.OSXSAVE = 1, XCR0[2:1] = 11b, XCR0[7:5] = 111b, neither `Real` nor `V86`. That VL is at most MAXVL is a premise of its own
(00_scope.md R7; log 11). -/
def evexUsable (s : State) (vl : VecLen) : Prop :=
  s.params.hasAvx512f = true ∧ (vl = .l512 ∨ s.params.hasAvx512vl = true) ∧ cr4Osxsave s = true ∧ xcr0Avx s = true
    ∧ xcr0Avx512 s = true ∧ modeOf s ≠ .real ∧ modeOf s ≠ .v86

/-- No byte stands before a VEX or EVEX prefix but a segment override and 67H (30_encoding.md R98, R109). -/
def plainPrefixes (p : Prefixes) (rex : Option Rex) : Prop :=
  p.lock = false ∧ p.opSize = false ∧ p.rep = none ∧ rex = none

/-- The fields of an EVEX encoding that must have one value have it; z = 1 stands only with a mask and a register destination
(30_encoding.md R99, R100, R105, R106, R108, R112). -/
def evexFieldsOk (d : Direction) (v : Evex) (m : ModRM) : Prop :=
  v.vvvv = 15#4 ∧ v.p0res = 0#2 ∧ v.p1fixed = true ∧ v.w = false ∧ v.b = false ∧ v.vpInv = true
    ∧ (v.z = true → v.aaa ≠ 0#3 ∧ (d = .load ∨ isMemRm m = false))

/-- VEX3: outside `Mode64` the bit B̅, which names no register there, is 1 (30_encoding.md R112). -/
def vex3BitsOk (s : State) (v : Vex3) : Prop := modeOf s = .mode64 ∨ v.bInv = true

/-- EVEX: outside `Mode64` the bits B̅ and R̅', which name no register there, are 1 (30_encoding.md R109). -/
def evexBitsOk (s : State) (v : Evex) : Prop := modeOf s = .mode64 ∨ (v.bInv = true ∧ v.rpInv = true)

/-- EVEX: a memory operand has 32- or 64-bit address size (30_encoding.md R91). -/
def evexAddressOk (s : State) (p : Prefixes) (m : ModRM) : Prop :=
  isMemRm m = true → addrSize (modeOf s) p.addrSize ≠ .a16

/-- A VEX2 encoding that raises no #UD: vvvv = 1111b, nothing forbidden before the prefix, the control state as it must be. -/
def vex2Usable (s : State) (p : Prefixes) (rex : Option Rex) (v : Vex2) : Prop :=
  vexUsable s ∧ plainPrefixes p rex ∧ v.vvvv = 15#4

/-- A VEX3 encoding that raises no #UD and is not refused. -/
def vex3Usable (s : State) (p : Prefixes) (rex : Option Rex) (v : Vex3) : Prop :=
  vexUsable s ∧ plainPrefixes p rex ∧ v.vvvv = 15#4 ∧ vex3BitsOk s v

/-- An EVEX encoding that raises no #UD and is not refused. -/
def evexEncUsable (s : State) (vl : VecLen) (d : Direction) (p : Prefixes) (rex : Option Rex) (v : Evex) (m : ModRM) : Prop :=
  evexUsable s vl ∧ plainPrefixes p rex ∧ evexFieldsOk d v m ∧ evexBitsOk s v ∧ evexAddressOk s p m

/-- #AC is ruled out at the linear address `la`: no alignment checking, AC_POLICY of the class is `Never`, or the operand is aligned
to AC_GRANULE (60_exceptions.md R186; 70_reset_and_hazards.md R212). -/
def noAlignmentFault (s : State) (a : Access) (la : Nat) : Prop :=
  alignmentChecking s = false ∨ acPolicy s a.cls = .never ∨ la % (Config.acGranule a.cls a.vl a.dir).bytes = 0

/-- Every accessed byte of an operand can be accessed, and `pa` gives its physical address: the segment check answers a linear
address, #AC is ruled out, every byte's page permits the access, no byte is a device's, and a store writes no byte of the program
text (70_reset_and_hazards.md R212). An operand of which no byte is accessed makes no check. -/
def accessible (s : State) (a : Access) (pa : Nat → Nat) : Prop :=
  a.offs = [] ∨
  ∃ la, segCheck s a = .next la
    ∧ noAlignmentFault s a la
    ∧ ∀ k ∈ a.offs, translate s (la + k) (accessKind a) = .ok (pa k) ∧ inDevice s (pa k) = false
        ∧ (a.dir = .store → inText s (pa k) = false)

/-! ### What a completed instruction leaves -/

/-- `t` is `s` but for the vector registers, the memory, pc and the model's counter: no flag, no opmask register, no general
register, no segment register, no control register, no parameter differs (00_scope.md R16). -/
def sameControl (s t : State) : Prop :=
  t = { s with zmm := t.zmm, mem := t.mem, pc := t.pc, draws := t.draws }

/-- `t` is `s` with pc advanced by `ilen` at the width of the mode (10_state.md R33), one more draw, and at most one vector
register `d` written. -/
def onlyRegChanged (s t : State) (d : BitVec 5) (ilen : Nat) : Prop :=
  t = { s with zmm := t.zmm, pc := t.pc, draws := s.draws + 1 }
    ∧ t.pc = BitVec.ofNat 64 ((pcOffset s + ilen) % 2 ^ pcBits (modeOf s))
    ∧ ∀ r, r ≠ d → readVec t r = readVec s r

/-- `t` is `s` with pc advanced by `ilen` at the width of the mode (10_state.md R33), one more draw, and memory written. -/
def onlyMemChanged (s t : State) (ilen : Nat) : Prop :=
  t = { s with mem := t.mem, pc := t.pc, draws := s.draws + 1 }
    ∧ t.pc = BitVec.ofNat 64 ((pcOffset s + ilen) % 2 ^ pcBits (modeOf s))

/-- A Legacy SSE write of `src` to register `d`: bits 127:0 are the source's, bits MAXVL-1:128 keep their value
(10_state.md R22). -/
def legacyWrites (s t : State) (d : BitVec 5) (src : Vec) : Prop :=
  (∀ b, b < 128 → (readVec t d).getLsbD b = src.getLsbD b)
    ∧ ∀ b, 128 ≤ b → b < s.params.maxvl.bits → (readVec t d).getLsbD b = (readVec s d).getLsbD b

/-- A VEX write of `src` to register `d`: bits VL-1:0 are the source's, the bits above are zero (10_state.md R22). -/
def vexWrites (vl : VecLen) (t : State) (d : BitVec 5) (src : Vec) : Prop :=
  (∀ b, b < vl.bits → (readVec t d).getLsbD b = src.getLsbD b) ∧ ∀ b, vl.bits ≤ b → (readVec t d).getLsbD b = false

/-- Bit j of the writemask an encoding selects; aaa = 000 selects every element (42_vmovups_evex.md R152). -/
def maskBit (s : State) (aaa : BitVec 3) (j : Nat) : Bool := aaa == 0#3 || (readMask s aaa).getLsbD j

/-- An EVEX write of `src` to register `d`, element by element under the mask; the bits above VL are zero
(42_vmovups_evex.md R150). -/
def evexWrites (vl : VecLen) (v : Evex) (s t : State) (d : BitVec 5) (src : Vec) : Prop :=
  (∀ j, j < vl.elems →
      elemOf (readVec t d) j
        = if maskBit s v.aaa j then elemOf src j else if v.z then 0#32 else elemOf (readVec s d) j)
    ∧ ∀ b, vl.bits ≤ b → (readVec t d).getLsbD b = false

/-- `src` holds the accessed bytes of a memory operand, byte k from the physical address `pa k` (20_memory.md R52). -/
def loadedFrom (s : State) (a : Access) (pa : Nat → Nat) (src : Vec) : Prop :=
  ∀ k ∈ a.offs, byteOf src k = readByte s.mem (pa k)

/-- The accessed bytes of a memory operand hold `src`, byte k at `pa k`, and every other byte is as it was
(20_memory.md R52, R57). -/
def storedTo (s t : State) (a : Access) (pa : Nat → Nat) (src : Vec) : Prop :=
  (∀ k ∈ a.offs, readByte t.mem (pa k) = byteOf src k)
    ∧ ∀ x, (∀ k ∈ a.offs, pa k ≠ x) → readByte t.mem x = readByte s.mem x

/-! ### The invariant -/

/-- Every vector register is MAXVL bits wide: the bits above are zero (10_state.md R20). -/
def vecsFit (s : State) : Prop := ∀ r, readVec s r = lowPart s.params.maxvl.bits (readVec s r)

/-- pc is as wide as the mode says (10_state.md R32). -/
def pcFits (s : State) : Prop := s.pc.toNat < 2 ^ pcBits (modeOf s)

/-- The machine's invariant: memory in canonical form, registers and pc at their widths, MAXVL consistent with the flags
(00_scope.md R7). -/
def machineInv (s : State) : Prop := s.mem.wf ∧ vecsFit s ∧ pcFits s ∧ s.params.consistent = true

/-! ### Runs -/

/-- `n` steps, stopping at the first fault or refusal. -/
def steps : Nat → State → Host.Outcome State Fault Refusal
  | 0, s => .next s
  | n + 1, s =>
    match step s with
    | .next t => steps n t
    | .fault e => .fault e
    | .refused r => .refused r

/-- pc reaches the end of the program within `n` steps, and no step before it faults or is refused. -/
def finishesWithin : Nat → State → Bool
  | 0, s => atEnd s
  | n + 1, s =>
    atEnd s ||
      match step s with
      | .next t => finishesWithin n t
      | .fault _ => false
      | .refused _ => false

/-- The state starts a run that ends successfully within `n` steps: pc is at the base address of the program, and reaches its
end without a fault or a refusal (70_reset_and_hazards.md R214). -/
def runSucceeds (n : Nat) (s : State) : Bool := atStart s && finishesWithin n s

end Sys2Proof.Machine
end

