-- ==== Sys2Proof/Certificates/Slice0/Obligations.lean ====
section
/-! DEFINITION. The statements for the provers, one `def` each; OBLIGATIONS.json lists them. -/

open Sys2Proof Sys2Proof.Machine

/-! ### Encoding -/

/-- Decoding the encoding of a well-formed instruction gives it back, with every operand at every value its encoding admits, and
leaves what follows (30_encoding.md R80 to R114). -/
def Obligations.DecodeEncodeRoundTrip : Prop :=
  ∀ (mode : Mode) (i : Instr) (rest : List Byte), i.wf mode = true → decode mode (encode i ++ rest) = .instr i rest

/-- What the decoder answers is an instruction of its row, and it took as many bytes as the instruction has
(30_encoding.md R82, R114). -/
def Obligations.DecodedInstructionsAreWellFormed : Prop :=
  ∀ (mode : Mode) (bs rest : List Byte) (i : Instr), decode mode bs = .instr i rest →
    i.wf mode = true ∧ (∃ taken, bs = taken ++ rest ∧ taken.length = instrLength i)

/-- One written encoding of each format decodes to the instruction it stands for (95_test_vectors.md L1, V1, V2, E1). -/
def Obligations.WrittenEncodingsDecode : Prop :=
  decode .mode64 [0x0F#8, 0x10#8, 0xCA#8] = .instr (.movupsLoad noPrefixes none ⟨1#3, .reg 2#3⟩) []
    ∧ decode .mode64 [0xC5#8, 0xF8#8, 0x10#8, 0xCA#8]
        = .instr (.vex2Load128 noPrefixes none ⟨true, 15#4⟩ ⟨1#3, .reg 2#3⟩) []
    ∧ decode .mode64 [0xC4#8, 0xE1#8, 0x78#8, 0x10#8, 0xCA#8]
        = .instr (.vex3Load128 noPrefixes none ⟨true, true, true, false, 15#4⟩ ⟨1#3, .reg 2#3⟩) []
    ∧ decode .mode64 [0x62#8, 0xF1#8, 0x7C#8, 0x48#8, 0x10#8, 0xCA#8]
        = .instr (.evexLoad512 noPrefixes none ⟨true, true, true, true, 0#2, false, 15#4, true, false, false, true, 0#3⟩
            ⟨1#3, .reg 2#3⟩) []

/-- The shortest encoding of each format and the longest without redundant prefixes (30_encoding.md R82). -/
def Obligations.EncodedLengthBounds : Prop :=
  ∀ (i : Instr) (mode : Mode), i.wf mode = true →
    (encode i).length = instrLength i
      ∧ ((prefixesOf i).lock = false → (prefixesOf i).opSize = false → (prefixesOf i).rep = none →
          (classOf i ≠ .legacy → rexOf i = none) →
          match classOf i with
          | .legacy => 3 ≤ instrLength i ∧ instrLength i ≤ 11
          | .vex => 4 ≤ instrLength i ∧ instrLength i ≤ 12
          | .evex => 6 ≤ instrLength i ∧ instrLength i ≤ 13)

/-- Two prefixes of one group, and a REX byte that a legacy prefix follows, are given no meaning, wherever they stand among the
prefixes (30_encoding.md R83, R84). That they are refused whatever follows, ahead of the length and #UD steps of 60_exceptions.md
R191, is the model's ranking and not the spec's (DESIGN CHOICE, log 22): F0 F0 0F 11 00 is #UD by R179 too, and is refused. -/
def Obligations.RepeatedOrMisplacedPrefixRejected : Prop :=
  (∀ (mode : Mode) (u v rest : List Byte) (b c : Byte) (g : Nat),
    (∀ x ∈ u ++ v, prefixGroup x ≠ none) → prefixGroup b = some g → prefixGroup c = some g →
      decode mode (u ++ b :: (v ++ c :: rest)) = .reject .repeatedPrefix)
    ∧ ∀ (p : Prefixes) (rex : Rex) (b : Byte) (rest : List Byte), prefixGroup b ≠ none →
      decode .mode64 (encodePrefixes p ++ byteOfRex rex :: b :: rest) = .reject .misplacedRex

/-- What is not MOVUPS, after any prefixes: 66H, F2H or F3H before the escape byte; outside `Mode64`, C4H, C5H and 62H before a byte
whose bits 7:6 are not 11b; the other pp (VMOVUPD, VMOVSS, VMOVSD) and the other opcode maps of VEX and EVEX; every opcode but 10H
and 11H; every byte that starts none of the four formats (30_encoding.md R86, R98, R109, R112, R114, R115). That this holds also of
bytes for which R112 has a #UD row too (LOCK, 66H, F2H, F3H or REX before VEX or EVEX, P0[3:2], P1[2], vvvv and the like) is the
model's ranking (DESIGN CHOICE, log 39). -/
def Obligations.NeighboursAreNotMovups : Prop :=
  (∀ (mode : Mode) (d : Direction) (p : Prefixes) (rex : Option Rex) (m : ModRM) (rest : List Byte),
    p.opSize = true ∨ p.rep ≠ none → rexWf mode rex = true →
      decode mode (encodeLegacy d p rex m ++ rest) = .reject .notMovups)
  ∧ (∀ (mode : Mode) (p : Prefixes) (b v : Byte) (rest : List Byte),
    mode ≠ .mode64 → b = 0xC4#8 ∨ b = 0xC5#8 ∨ b = 0x62#8 → v.extractLsb' 6 2 ≠ 3#2 →
      decode mode (encodePrefixes p ++ b :: v :: rest) = .reject .notMovups)
  ∧ (∀ (mode : Mode) (p : Prefixes) (rex : Option Rex) (x y z op : Byte) (rest : List Byte), rexWf mode rex = true →
    op = 0x10#8 ∨ op = 0x11#8 →
      (x.extractLsb' 0 2 ≠ 0#2 →
        decode mode (encodePrefixes p ++ encodeRex rex ++ 0xC5#8 :: x :: op :: rest) = .reject .notMovups)
      ∧ (x.extractLsb' 0 5 = 2#5 ∨ x.extractLsb' 0 5 = 3#5 ∨ (x.extractLsb' 0 5 = 1#5 ∧ y.extractLsb' 0 2 ≠ 0#2) →
        decode mode (encodePrefixes p ++ encodeRex rex ++ 0xC4#8 :: x :: y :: op :: rest) = .reject .notMovups)
      ∧ (x.extractLsb' 0 2 = 2#2 ∨ x.extractLsb' 0 2 = 3#2 ∨ (x.extractLsb' 0 2 = 1#2 ∧ y.extractLsb' 0 2 ≠ 0#2) →
        decode mode (encodePrefixes p ++ encodeRex rex ++ 0x62#8 :: x :: y :: z :: op :: rest) = .reject .notMovups))
  ∧ (∀ (mode : Mode) (p : Prefixes) (rex : Option Rex) (x y z op : Byte) (rest : List Byte), rexWf mode rex = true →
    op ≠ 0x10#8 → op ≠ 0x11#8 →
      decode mode (encodePrefixes p ++ encodeRex rex ++ 0x0F#8 :: op :: rest) = .reject .notMovups
      ∧ decode mode (encodePrefixes p ++ encodeRex rex ++ 0xC5#8 :: x :: op :: rest) = .reject .notMovups
      ∧ decode mode (encodePrefixes p ++ encodeRex rex ++ 0xC4#8 :: x :: y :: op :: rest) = .reject .notMovups
      ∧ decode mode (encodePrefixes p ++ encodeRex rex ++ 0x62#8 :: x :: y :: z :: op :: rest) = .reject .notMovups)
  ∧ ∀ (mode : Mode) (p : Prefixes) (rex : Option Rex) (b : Byte) (rest : List Byte), rexWf mode rex = true →
    b ≠ 0x0F#8 → b ≠ 0xC4#8 → b ≠ 0xC5#8 → b ≠ 0x62#8 → prefixGroup b = none → (mode = .mode64 → b.extractLsb' 4 4 ≠ 4#4) →
      decode mode (encodePrefixes p ++ encodeRex rex ++ b :: rest) = .reject .notMovups

/-- EVEX.mm = 00, EVEX.L'L = 11b and a reserved VEX.mmmmm select no row and are #UD, in every mode that recognises the prefix and
after any prefixes, with the length of the whole byte sequence. 30_encoding.md R103 and R112 write #UD beside each of them; that it
holds although R112 also files a reserved mmmmm, and mm = 00 with pp other than 00, under the bytes that are not MOVUPS is the
model's inference (DEDUCED, log 24). -/
def Obligations.RowlessEncodingsAreUndefined : Prop :=
  ∀ (mode : Mode) (p : Prefixes) (rex : Option Rex) (p0 p1 p2 : Byte) (d : Direction) (m : ModRM) (rest : List Byte),
    rexWf mode rex = true → m.wf (addrSize mode p.addrSize) = true → mode = .mode64 ∨ p0.extractLsb' 6 2 = 3#2 →
    (p0.extractLsb' 0 2 = 0#2 ∨ (p0.extractLsb' 0 2 = 1#2 ∧ p1.extractLsb' 0 2 = 0#2 ∧ p2.extractLsb' 5 2 = 3#2) →
      decode mode (encodePrefixes p ++ encodeRex rex ++ [0x62#8, p0, p1, p2, byteOfOpcode d] ++ encodeModRM m ++ rest)
        = .undefinedOpcode (prefixesLength p + rexLength rex + 5 + modrmLength m))
    ∧ (p0.extractLsb' 0 5 ≠ 1#5 → p0.extractLsb' 0 5 ≠ 2#5 → p0.extractLsb' 0 5 ≠ 3#5 →
      decode mode (encodePrefixes p ++ encodeRex rex ++ [0xC4#8, p0, p1, byteOfOpcode d] ++ encodeModRM m ++ rest)
        = .undefinedOpcode (prefixesLength p + rexLength rex + 4 + modrmLength m))

/-- The register numbers: ModR/M's three bits under the extension bits of REX, VEX and EVEX in `Mode64`, and the three bits alone
outside it; and the bits that extend a base and an index, none outside `Mode64` (30_encoding.md R84, R90, R95, R97, R104;
10_state.md R24). -/
def Obligations.RegisterNumbersFromExtensionBits : Prop :=
  ∀ (reg rm : BitVec 3) (rex : Rex) (v2 : Vex2) (v3 : Vex3) (ev : Evex),
    (vecNumber (legacyExt .mode64 (some rex)).reg reg).toNat = 8 * rex.r.toNat + reg.toNat
    ∧ (vecNumber (legacyExt .mode64 (some rex)).rmReg rm).toNat = 8 * rex.b.toNat + rm.toNat
    ∧ (vecNumber (legacyExt .mode64 none).reg reg).toNat = reg.toNat
    ∧ (vecNumber (legacyExt .mode64 none).rmReg rm).toNat = rm.toNat
    ∧ (vecNumber (vex2Ext .mode64 v2).reg reg).toNat = 8 * (!v2.rInv).toNat + reg.toNat
    ∧ (vecNumber (vex2Ext .mode64 v2).rmReg rm).toNat = rm.toNat
    ∧ (vecNumber (vex3Ext .mode64 v3).reg reg).toNat = 8 * (!v3.rInv).toNat + reg.toNat
    ∧ (vecNumber (vex3Ext .mode64 v3).rmReg rm).toNat = 8 * (!v3.bInv).toNat + rm.toNat
    ∧ (vecNumber (evexExt .mode64 ev).reg reg).toNat = 16 * (!ev.rpInv).toNat + 8 * (!ev.rInv).toNat + reg.toNat
    ∧ (vecNumber (evexExt .mode64 ev).rmReg rm).toNat = 16 * (!ev.xInv).toNat + 8 * (!ev.bInv).toNat + rm.toNat
    ∧ ((legacyExt .mode64 (some rex)).base = rex.b ∧ (legacyExt .mode64 (some rex)).index = rex.x)
    ∧ ((legacyExt .mode64 none).base = false ∧ (legacyExt .mode64 none).index = false)
    ∧ ((vex2Ext .mode64 v2).base = false ∧ (vex2Ext .mode64 v2).index = false)
    ∧ ((vex3Ext .mode64 v3).base = !v3.bInv ∧ (vex3Ext .mode64 v3).index = !v3.xInv)
    ∧ ((evexExt .mode64 ev).base = !ev.bInv ∧ (evexExt .mode64 ev).index = !ev.xInv)
    ∧ ∀ (mode : Mode) (ro : Option Rex), mode ≠ .mode64 →
        ((legacyExt mode ro).base = false ∧ (legacyExt mode ro).index = false)
        ∧ ((vex2Ext mode v2).base = false ∧ (vex2Ext mode v2).index = false)
        ∧ ((vex3Ext mode v3).base = false ∧ (vex3Ext mode v3).index = false)
        ∧ ((evexExt mode ev).base = false ∧ (evexExt mode ev).index = false)
        ∧ (vecNumber (legacyExt mode ro).reg reg).toNat = reg.toNat ∧ (vecNumber (legacyExt mode ro).rmReg rm).toNat = rm.toNat
        ∧ (vecNumber (vex2Ext mode v2).reg reg).toNat = reg.toNat ∧ (vecNumber (vex2Ext mode v2).rmReg rm).toNat = rm.toNat
        ∧ (vecNumber (vex3Ext mode v3).reg reg).toNat = reg.toNat ∧ (vecNumber (vex3Ext mode v3).rmReg rm).toNat = rm.toNat
        ∧ (vecNumber (evexExt mode ev).reg reg).toNat = reg.toNat ∧ (vecNumber (evexExt mode ev).rmReg rm).toNat = rm.toNat

/-! ### The step -/

/-- A step fetches, decodes and runs: nothing is added around exec (92_eei_decisions.md D1; 60_exceptions.md R191, R196). An undefined
opcode without a row is #UD, and #GP(0) when it is longer than 15 bytes (R188). -/
def Obligations.StepRunsDecoded : Prop :=
  ∀ s : State,
    (textFetchable s = false → step s = .refused .textNotFetchable)
    ∧ (textFetchable s = true →
        (∀ i rest, decode (modeOf s) (fetchBytes s) = .instr i rest → step s = exec i s)
        ∧ (∀ n, decode (modeOf s) (fetchBytes s) = .undefinedOpcode n → n ≤ 15 →
            step s = .fault (.exception .invalidOpcode s.pc))
        ∧ (∀ n, decode (modeOf s) (fetchBytes s) = .undefinedOpcode n → 15 < n →
            step s = .fault (.exception .generalProtection s.pc))
        ∧ (∀ e, decode (modeOf s) (fetchBytes s) = .reject e → step s = .refused (refusalOf e)))

/-- When the bytes at pc are the encoding of a well-formed instruction, the step is that instruction's meaning, whatever bytes
follow and even if none can be fetched (30_encoding.md R114; 10_state.md R32). -/
def Obligations.StepExecutesEncoding : Prop :=
  ∀ (s : State) (i : Instr), textFetchable s = true → i.wf (modeOf s) = true →
    (∀ (n : Nat) (b : Byte), (encode i)[n]? = some b → ∃ a, codeAddress s (pcOffset s + n) = some a ∧ readByte s.mem a = b) →
      step s = exec i s

/-! ### #UD, #NM and #GP before the operand -/

/-- vvvv other than 1111b is #UD for every VEX and EVEX form (60_exceptions.md R174). -/
def Obligations.ReservedVvvvRaisesUd : Prop :=
  ∀ (i : Instr) (s : State) (x : BitVec 4), instrLength i ≤ 15 → vvvvOf i = some x → x ≠ 15#4 → raises i s .invalidOpcode

/-- A CPUID flag the form needs is 0: #UD (60_exceptions.md R175, 00_scope.md R2). -/
def Obligations.MissingFeatureFlagRaisesUd : Prop :=
  ∀ (i : Instr) (s : State), instrLength i ≤ 15 →
    (classOf i = .legacy → s.params.hasSse = false → raises i s .invalidOpcode)
    ∧ (classOf i = .vex → s.params.hasAvx = false → raises i s .invalidOpcode)
    ∧ (classOf i = .evex → s.params.hasAvx512f = false → raises i s .invalidOpcode)
    ∧ (classOf i = .evex → (moveOf i s).vl ≠ .l512 → s.params.hasAvx512vl = false → raises i s .invalidOpcode)

/-- CR0.EM = 1 or CR4.OSFXSR = 0 is #UD for a Legacy SSE form, in every mode (60_exceptions.md R176). -/
def Obligations.LegacyControlBitsRaiseUd : Prop :=
  ∀ (i : Instr) (s : State), instrLength i ≤ 15 → classOf i = .legacy → cr0Em s = true ∨ cr4Osfxsr s = false →
    raises i s .invalidOpcode

/-- CR4.OSXSAVE = 0 or XCR0[2:1] other than 11b is #UD for a VEX form; CR0.EM and CR4.OSFXSR are not tested for it
(60_exceptions.md R177). -/
def Obligations.VexControlBitsRaiseUd : Prop :=
  ∀ (i : Instr) (s : State), classOf i = .vex →
    (instrLength i ≤ 15 → cr4Osxsave s = false ∨ s.xcr0.getLsbD 1 = false ∨ s.xcr0.getLsbD 2 = false →
      raises i s .invalidOpcode)
    ∧ undefinedOf i { s with cr0 := s.cr0 ^^^ 4#64, cr4 := s.cr4 ^^^ 0x200#64 } = undefinedOf i s

/-- CR4.OSXSAVE = 0, XCR0[2:1] other than 11b or XCR0[7:5] other than 111b is #UD for an EVEX form, at every length
(60_exceptions.md R178). -/
def Obligations.EvexControlBitsRaiseUd : Prop :=
  ∀ (i : Instr) (s : State), instrLength i ≤ 15 → classOf i = .evex →
    cr4Osxsave s = false ∨ s.xcr0.getLsbD 1 = false ∨ s.xcr0.getLsbD 2 = false ∨ s.xcr0.getLsbD 5 = false
      ∨ s.xcr0.getLsbD 6 = false ∨ s.xcr0.getLsbD 7 = false →
    raises i s .invalidOpcode

/-- A LOCK prefix is #UD on every form, in every mode (60_exceptions.md R179). -/
def Obligations.LockPrefixRaisesUd : Prop :=
  ∀ (i : Instr) (s : State), instrLength i ≤ 15 → (prefixesOf i).lock = true → raises i s .invalidOpcode

/-- 66H, F2H, F3H or REX before a VEX or EVEX prefix is #UD (60_exceptions.md R180). -/
def Obligations.PrefixBeforeVexRaisesUd : Prop :=
  ∀ (i : Instr) (s : State), instrLength i ≤ 15 → classOf i = .vex ∨ classOf i = .evex →
    (prefixesOf i).opSize = true ∨ (prefixesOf i).rep ≠ none ∨ rexOf i ≠ none → raises i s .invalidOpcode

/-- A VEX or EVEX form in `Real` or `V86` is #UD (60_exceptions.md R181). -/
def Obligations.VexInRealModeRaisesUd : Prop :=
  ∀ (i : Instr) (s : State), instrLength i ≤ 15 → classOf i = .vex ∨ classOf i = .evex →
    modeOf s = .real ∨ modeOf s = .v86 → raises i s .invalidOpcode

/-- The reserved EVEX fields and the forbidden uses of z are #UD (60_exceptions.md R182; mm and L'L are
`RowlessEncodingsAreUndefined`). V̅' = 0 is stated for `Mode64`: outside it the spec refuses the encoding (30_encoding.md R109;
log 21). -/
def Obligations.ReservedEvexFieldsRaiseUd : Prop :=
  ∀ (i : Instr) (s : State) (v : Evex), instrLength i ≤ 15 → evexOf i = some v →
    (v.p0res ≠ 0#2 ∨ v.p1fixed = false ∨ v.w = true ∨ v.b = true ∨ (v.z = true ∧ v.aaa = 0#3)
      ∨ (v.z = true ∧ storedOperand i s ≠ none) ∨ (modeOf s = .mode64 ∧ v.vpInv = false)) →
    raises i s .invalidOpcode

/-- CR0.TS = 1 is #NM for every form, register or memory, once no #UD condition holds (60_exceptions.md R183). -/
def Obligations.TaskSwitchedRaisesNm : Prop :=
  ∀ (i : Instr) (s : State), instrLength i ≤ 15 → undefinedOf i s = false → refusesOf i s = none → cr0Ts s = true →
    raises i s .deviceNotAvailable

/-- An instruction longer than 15 bytes is #GP(0) (60_exceptions.md R188). -/
def Obligations.TooLongRaisesGp : Prop :=
  ∀ (i : Instr) (s : State), 15 < instrLength i → raises i s .generalProtection

/-- The encodings the spec refuses, when no #UD condition holds: an extension bit with no register to extend outside `Mode64`, an
EVEX memory operand with 16-bit address size (30_encoding.md R91, R109, R112). That they come after #UD and before #NM is the
model's choice (log 21). -/
def Obligations.RefusedEncodings : Prop :=
  ∀ (s : State) (p : Prefixes) (rex : Option Rex) (m : ModRM),
    (∀ f ∈ vex3Loads ++ vex3Stores, ∀ v : Vex3, instrLength (f.2 p rex v m) ≤ 15 → undefinedOf (f.2 p rex v m) s = false →
      modeOf s ≠ .mode64 → v.bInv = false → exec (f.2 p rex v m) s = .refused .extensionBitOutsideMode64)
    ∧ (∀ f ∈ evexLoads ++ evexStores, ∀ v : Evex, instrLength (f.2 p rex v m) ≤ 15 →
      undefinedOf (f.2 p rex v m) s = false → modeOf s ≠ .mode64 → v.bInv = false ∨ v.rpInv = false ∨ v.vpInv = false →
      exec (f.2 p rex v m) s = .refused .extensionBitOutsideMode64)
    ∧ (∀ f ∈ evexLoads ++ evexStores, ∀ v : Evex, instrLength (f.2 p rex v m) ≤ 15 →
      undefinedOf (f.2 p rex v m) s = false → evexBitsOk s v → v.vpInv = true → isMemRm m = true →
      addrSize (modeOf s) p.addrSize = .a16 → exec (f.2 p rex v m) s = .refused .evexAddressSize16)

/-! ### The exceptions of a memory operand -/

/-- A fault changes nothing: its return address is pc, and only CR2 is written, by #PF (60_exceptions.md R190, R195). The counter
`draws` is the model's own (log 18). -/
def Obligations.FaultChangesOnlyCr2 : Prop :=
  ∀ (i : Instr) (s : State) (e : Fault), exec i s = .fault e →
    takeException s e = { s with cr2 := (takeException s e).cr2, draws := s.draws + 1 }
      ∧ faultReturn e = s.pc
      ∧ (∀ code address, faultKind e = .pageFault code address → (takeException s e).cr2 = address)
      ∧ ((∀ code address, faultKind e ≠ .pageFault code address) → (takeException s e).cr2 = s.cr2)

/-- #GP is raised for a length over 15 bytes or for an accessed byte outside the segment or not canonical, never for
misalignment (60_exceptions.md R187; 20_memory.md R54). -/
def Obligations.GpHasNoOtherCause : Prop :=
  ∀ (i : Instr) (s : State), raises i s .generalProtection →
    15 < instrLength i
      ∨ ∃ o, memOperand i s = some o ∧ (accessOf i s o).stack = false
          ∧ (match modeOf s with
              | .mode64 => ∃ k ∈ (accessOf i s o).offs, canonical s.params.laBits (linear64 s (accessOf i s o) + k) = false
              | .real => ∃ k ∈ (accessOf i s o).offs, 0xFFFF < (accessOf i s o).ea.toNat + k
              | .v86 => ∃ k ∈ (accessOf i s o).offs, 0xFFFF < (accessOf i s o).ea.toNat + k
              | _ => (segRegister s (accessOf i s o).seg).isNull = true
                  ∨ segPermits (segRegister s (accessOf i s o).seg) (accessKind (accessOf i s o)) = false
                  ∨ ∃ k ∈ (accessOf i s o).offs,
                      (segRegister s (accessOf i s o).seg).limit.toNat < (accessOf i s o).ea.toNat + k
                        ∨ ((accessOf i s o).asz = .a16 ∧ 0xFFFF < (accessOf i s o).ea.toNat + k))

/-- In `Mode64` an accessed byte with a non-canonical linear address is #SS(0) or #GP(0), whatever its page
(20_memory.md R61; 60_exceptions.md R184, R191). -/
def Obligations.NonCanonicalOperandFaults : Prop :=
  ∀ (i : Instr) (s : State) (o : MemOperand), reachesOperand i s → memOperand i s = some o → modeOf s = .mode64 →
    (∃ k ∈ (accessOf i s o).offs, canonical s.params.laBits (linear64 s (accessOf i s o) + k) = false) →
      raises i s (if (accessOf i s o).stack then .stackFault else .generalProtection)

/-- Outside `Mode64` an accessed byte beyond FFFFH (in `Real`, `V86` and with 16-bit address size) or beyond the segment limit, a
null selector and a missing right are #SS(0) or #GP(0) (20_memory.md R62; 60_exceptions.md R184). -/
def Obligations.SegmentViolationFaults : Prop :=
  ∀ (i : Instr) (s : State) (o : MemOperand), reachesOperand i s → memOperand i s = some o →
    (((modeOf s = .real ∨ modeOf s = .v86) ∧ ∃ k ∈ (accessOf i s o).offs, 0xFFFF < (accessOf i s o).ea.toNat + k)
      ∨ ((modeOf s = .prot16 ∨ modeOf s = .prot32 ∨ modeOf s = .compat32) ∧ (accessOf i s o).offs ≠ []
          ∧ ((segRegister s (accessOf i s o).seg).isNull = true
            ∨ ((moveOf i s).dir = .load ∧ (segRegister s (accessOf i s o).seg).readable = false)
            ∨ ((moveOf i s).dir = .store ∧ (segRegister s (accessOf i s o).seg).writable = false)
            ∨ ∃ k ∈ (accessOf i s o).offs, (accessOf i s o).ea.toNat + k < 2 ^ 32
                ∧ ((segRegister s (accessOf i s o).seg).limit.toNat < (accessOf i s o).ea.toNat + k
                  ∨ ((accessOf i s o).asz = .a16 ∧ 0xFFFF < (accessOf i s o).ea.toNat + k))))) →
      raises i s (if (accessOf i s o).stack then .stackFault else .generalProtection)

/-- Which of #SS(0) and #GP(0) a segment violation is: #SS(0) exactly when the segment is SS, the default or an override that
counts (60_exceptions.md R184; 30_encoding.md R93). Nothing is said of an override that `Mode64` ignores and that differs from
the default on SS (93_implementation_defined.md U16). -/
def Obligations.StackSegmentSelectsSs : Prop :=
  ∀ (mode : Mode) (dflt g : SegReg),
    violationIsStack mode none dflt = decide (dflt = .ss)
    ∧ (mode ≠ .mode64 ∨ g = .fs ∨ g = .gs →
        segmentOf mode (some g) dflt = g ∧ violationIsStack mode (some g) dflt = decide (g = .ss))
    ∧ (mode = .mode64 → g ≠ .fs → g ≠ .gs → segmentOf mode (some g) dflt = dflt)
    ∧ (mode = .mode64 → g ≠ .fs → g ≠ .gs → decide (g = .ss) = decide (dflt = .ss) →
        violationIsStack mode (some g) dflt = decide (dflt = .ss))

/-- Vector numbers and error codes, and every bit of the page-fault error code (60_exceptions.md R189). That P, RSVD and PK are set
independently of each other, also for a page with two causes and with P = 1 beside a reserved bit, is the model's inference
(DEDUCED, log 38). -/
def Obligations.VectorsAndErrorCodes : Prop :=
  (excVector .invalidOpcode = 6 ∧ excErrorCode .invalidOpcode = none)
  ∧ (excVector .deviceNotAvailable = 7 ∧ excErrorCode .deviceNotAvailable = none)
  ∧ (excVector .stackFault = 12 ∧ excErrorCode .stackFault = some 0#32)
  ∧ (excVector .generalProtection = 13 ∧ excErrorCode .generalProtection = some 0#32)
  ∧ (∀ code address, excVector (.pageFault code address) = 14 ∧ excErrorCode (.pageFault code address) = some code)
  ∧ (excVector .alignmentCheck = 17 ∧ excErrorCode .alignmentCheck = some 0#32)
  ∧ ∀ (s : State) (la : Nat) (kind : AccessKind) (code : BitVec 32) (l : List PageEntry),
      s.translation = .pages l → translate s la kind = .error code →
        code.getLsbD 0 = (findPage l la).isSome
        ∧ code.getLsbD 1 = decide (kind = .write)
        ∧ code.getLsbD 2 = decide (s.cpl = 3#2)
        ∧ (code.getLsbD 3 = true ↔ ∃ e, findPage l la = some e ∧ e.reservedBit = true)
        ∧ (code.getLsbD 5 = true ↔ ∃ e, findPage l la = some e ∧ keyDenies e kind = true)
        ∧ ∀ b, b = 4 ∨ 6 ≤ b → code.getLsbD b = false

/-- A page refuses a byte exactly when it is not mapped, or the access is a write to a read-only page, a CPL 3 access to a
supervisor page, meets a reserved bit, or is denied by the protection key (60_exceptions.md R185). -/
def Obligations.PageRefusesExactly : Prop :=
  ∀ (s : State) (la : Nat) (kind : AccessKind) (l : List PageEntry), s.translation = .pages l → modeOf s ≠ .real →
    ((∃ code, translate s la kind = .error code) ↔
      ∀ e, findPage l la = some e →
        (kind = .write ∧ e.writable = false) ∨ (s.cpl = 3#2 ∧ e.user = false) ∨ e.reservedBit = true
          ∨ (kind = .read ∧ e.keyDeniesRead = true) ∨ (kind = .write ∧ e.keyDeniesWrite = true))

/-- Where #AC is ruled out, an accessed byte whose page refuses it makes the instruction raise #PF for one such byte
(60_exceptions.md R185, R186, R191). -/
def Obligations.RefusedPageRaisesPf : Prop :=
  ∀ (i : Instr) (s : State) (o : MemOperand) (la : Nat), reachesOperand i s → memOperand i s = some o →
    segCheck s (accessOf i s o) = .next la → noAlignmentFault s (accessOf i s o) la →
    (∃ k ∈ (accessOf i s o).offs, ∃ code, translate s (la + k) (accessKind (accessOf i s o)) = .error code) →
      ∃ k ∈ (accessOf i s o).offs, ∃ code, translate s (la + k) (accessKind (accessOf i s o)) = .error code
        ∧ raises i s (.pageFault code (BitVec.ofNat 64 (la + k)))

/-- A #PF records the error code of an accessed byte whose page refuses it, and CR2 receives that byte's linear address
(60_exceptions.md R185, R190). -/
def Obligations.PageFaultNamesAnAccessedByte : Prop :=
  ∀ (i : Instr) (s : State) (code : BitVec 32) (address ra : BitVec 64),
    exec i s = .fault (.exception (.pageFault code address) ra) →
      ∃ o la k, memOperand i s = some o ∧ segCheck s (accessOf i s o) = .next la ∧ k ∈ (accessOf i s o).offs
        ∧ translate s (la + k) (accessKind (accessOf i s o)) = .error code ∧ address = BitVec.ofNat 64 (la + k)

/-- #AC(0): never without alignment checking, never under `Never`, never for an operand aligned to 64 bytes; under `Always` for an
operand that is not aligned to 4 bytes, unless a page fault is reported instead (60_exceptions.md R186, R191). -/
def Obligations.AlignmentCheckRaisesAc : Prop :=
  ∀ (i : Instr) (s : State) (o : MemOperand) (la : Nat), memOperand i s = some o → segCheck s (accessOf i s o) = .next la →
    (raises i s .alignmentCheck →
      alignmentChecking s = true ∧ acPolicy s (classOf i) ≠ .never ∧ la % 64 ≠ 0 ∧ (accessOf i s o).offs ≠ [])
    ∧ (reachesOperand i s → (accessOf i s o).offs ≠ [] → alignmentChecking s = true → acPolicy s (classOf i) = .always →
        la % 4 ≠ 0 →
        ((∀ k ∈ (accessOf i s o).offs, ∃ pa, translate s (la + k) (accessKind (accessOf i s o)) = .ok pa) →
          raises i s .alignmentCheck)
        ∧ (raises i s .alignmentCheck ∨ ∃ code address, raises i s (.pageFault code address)))

/-- The accesses that are refused: a device and a store into the program text (20_memory.md R59, R73), and outside `Mode64` an
operand that wraps past FFFFFFFFH, as an offset (R75), or as a linear address. Of a linear address R75 does not speak: refusing
that wrap too is the model's DESIGN CHOICE (log 14). -/
def Obligations.RefusedAccesses : Prop :=
  ∀ (i : Instr) (s : State) (o : MemOperand) (pa : Nat → Nat), reachesOperand i s → memOperand i s = some o →
    (∀ la, segCheck s (accessOf i s o) = .next la → noAlignmentFault s (accessOf i s o) la →
      (∀ k ∈ (accessOf i s o).offs, translate s (la + k) (accessKind (accessOf i s o)) = .ok (pa k)) →
      ((∃ k ∈ (accessOf i s o).offs, inDevice s (pa k) = true) → exec i s = .refused .deviceMemory)
      ∧ ((moveOf i s).dir = .store → (∀ k ∈ (accessOf i s o).offs, inDevice s (pa k) = false) →
          (∃ k ∈ (accessOf i s o).offs, inText s (pa k) = true) → exec i s = .refused .storeToText))
    ∧ ((∀ e, segCheck s (accessOf i s o) ≠ .fault e) → modeOf s ≠ .mode64 →
        (∃ k ∈ (accessOf i s o).offs,
          2 ^ 32 ≤ (accessOf i s o).ea.toNat + k ∨ 2 ^ 32 ≤ linear32 s (accessOf i s o) + k) →
        exec i s = .refused .operandWraps)

/-! ### Results: the instruction completes, with this next state -/

/-- MOVUPS between registers, by either opcode (40_movups_legacy_sse.md R130, R131; 10_state.md R22, R33). -/
def Obligations.LegacyRegisterCopyCompletes : Prop :=
  ∀ (s : State) (p : Prefixes) (rex : Option Rex) (reg r : BitVec 3),
    legacyUsable s → cr0Ts s = false → p.lock = false →
    (∃ t, exec (.movupsLoad p rex ⟨reg, .reg r⟩) s = .next t
      ∧ onlyRegChanged s t (vecNumber (legacyExt (modeOf s) rex).reg reg) (legacyIlen p rex ⟨reg, .reg r⟩)
      ∧ legacyWrites s t (vecNumber (legacyExt (modeOf s) rex).reg reg)
          (readVec s (vecNumber (legacyExt (modeOf s) rex).rmReg r)))
    ∧ ∃ t, exec (.movupsStore p rex ⟨reg, .reg r⟩) s = .next t
      ∧ onlyRegChanged s t (vecNumber (legacyExt (modeOf s) rex).rmReg r) (legacyIlen p rex ⟨reg, .reg r⟩)
      ∧ legacyWrites s t (vecNumber (legacyExt (modeOf s) rex).rmReg r)
          (readVec s (vecNumber (legacyExt (modeOf s) rex).reg reg))

/-- MOVUPS from memory: 16 bytes, into bits 127:0 (40_movups_legacy_sse.md R130; 20_memory.md R57, R64). -/
def Obligations.LegacyLoadCompletes : Prop :=
  ∀ (s : State) (p : Prefixes) (rex : Option Rex) (reg : BitVec 3) (o : MemOperand) (pa : Nat → Nat),
    legacyUsable s → cr0Ts s = false → p.lock = false →
    accessible s (accessOf (.movupsLoad p rex ⟨reg, .mem o⟩) s o) pa →
    (∀ k, k ∈ (accessOf (.movupsLoad p rex ⟨reg, .mem o⟩) s o).offs ↔ k < 16)
    ∧ ∃ t src, exec (.movupsLoad p rex ⟨reg, .mem o⟩) s = .next t
      ∧ loadedFrom s (accessOf (.movupsLoad p rex ⟨reg, .mem o⟩) s o) pa src
      ∧ onlyRegChanged s t (vecNumber (legacyExt (modeOf s) rex).reg reg) (legacyIlen p rex ⟨reg, .mem o⟩)
      ∧ legacyWrites s t (vecNumber (legacyExt (modeOf s) rex).reg reg) src

/-- MOVUPS to memory: 16 bytes and no other (40_movups_legacy_sse.md R131; 20_memory.md R57, R65). -/
def Obligations.LegacyStoreCompletes : Prop :=
  ∀ (s : State) (p : Prefixes) (rex : Option Rex) (reg : BitVec 3) (o : MemOperand) (pa : Nat → Nat),
    legacyUsable s → cr0Ts s = false → p.lock = false → s.mem.wf →
    accessible s (accessOf (.movupsStore p rex ⟨reg, .mem o⟩) s o) pa →
    (∀ k, k ∈ (accessOf (.movupsStore p rex ⟨reg, .mem o⟩) s o).offs ↔ k < 16)
    ∧ ∃ t, exec (.movupsStore p rex ⟨reg, .mem o⟩) s = .next t
      ∧ onlyMemChanged s t (legacyIlen p rex ⟨reg, .mem o⟩)
      ∧ storedTo s t (accessOf (.movupsStore p rex ⟨reg, .mem o⟩) s o) pa
          (readVec s (vecNumber (legacyExt (modeOf s) rex).reg reg))

/-- VMOVUPS (VEX) between registers, both prefixes, both lengths, both opcodes (41_vmovups_vex.md R140 to R144). -/
def Obligations.VexRegisterCopyCompletes : Prop :=
  ∀ (s : State) (p : Prefixes) (rex : Option Rex) (reg r : BitVec 3), cr0Ts s = false →
    (∀ v : Vex2, vex2Usable s p rex v →
      (∀ f ∈ vex2Loads, f.1.bits ≤ s.params.maxvl.bits → ∃ t, exec (f.2 p rex v ⟨reg, .reg r⟩) s = .next t
        ∧ onlyRegChanged s t (vecNumber (vex2Ext (modeOf s) v).reg reg) (vex2Ilen p rex ⟨reg, .reg r⟩)
        ∧ vexWrites f.1 t (vecNumber (vex2Ext (modeOf s) v).reg reg) (readVec s (vecNumber (vex2Ext (modeOf s) v).rmReg r)))
      ∧ ∀ f ∈ vex2Stores, f.1.bits ≤ s.params.maxvl.bits → ∃ t, exec (f.2 p rex v ⟨reg, .reg r⟩) s = .next t
        ∧ onlyRegChanged s t (vecNumber (vex2Ext (modeOf s) v).rmReg r) (vex2Ilen p rex ⟨reg, .reg r⟩)
        ∧ vexWrites f.1 t (vecNumber (vex2Ext (modeOf s) v).rmReg r) (readVec s (vecNumber (vex2Ext (modeOf s) v).reg reg)))
    ∧ ∀ v : Vex3, vex3Usable s p rex v →
      (∀ f ∈ vex3Loads, f.1.bits ≤ s.params.maxvl.bits → ∃ t, exec (f.2 p rex v ⟨reg, .reg r⟩) s = .next t
        ∧ onlyRegChanged s t (vecNumber (vex3Ext (modeOf s) v).reg reg) (vex3Ilen p rex ⟨reg, .reg r⟩)
        ∧ vexWrites f.1 t (vecNumber (vex3Ext (modeOf s) v).reg reg) (readVec s (vecNumber (vex3Ext (modeOf s) v).rmReg r)))
      ∧ ∀ f ∈ vex3Stores, f.1.bits ≤ s.params.maxvl.bits → ∃ t, exec (f.2 p rex v ⟨reg, .reg r⟩) s = .next t
        ∧ onlyRegChanged s t (vecNumber (vex3Ext (modeOf s) v).rmReg r) (vex3Ilen p rex ⟨reg, .reg r⟩)
        ∧ vexWrites f.1 t (vecNumber (vex3Ext (modeOf s) v).rmReg r) (readVec s (vecNumber (vex3Ext (modeOf s) v).reg reg))

/-- VMOVUPS (VEX) from memory: 16 or 32 bytes, the bits above cleared (41_vmovups_vex.md R140, R142, R144; 20_memory.md R57). -/
def Obligations.VexLoadCompletes : Prop :=
  ∀ (s : State) (p : Prefixes) (rex : Option Rex) (reg : BitVec 3) (o : MemOperand) (pa : Nat → Nat), cr0Ts s = false →
    (∀ v : Vex2, vex2Usable s p rex v → ∀ f ∈ vex2Loads, f.1.bits ≤ s.params.maxvl.bits →
      accessible s (accessOf (f.2 p rex v ⟨reg, .mem o⟩) s o) pa →
      (∀ k, k ∈ (accessOf (f.2 p rex v ⟨reg, .mem o⟩) s o).offs ↔ k < f.1.bytes)
      ∧ ∃ t src, exec (f.2 p rex v ⟨reg, .mem o⟩) s = .next t
        ∧ loadedFrom s (accessOf (f.2 p rex v ⟨reg, .mem o⟩) s o) pa src
        ∧ onlyRegChanged s t (vecNumber (vex2Ext (modeOf s) v).reg reg) (vex2Ilen p rex ⟨reg, .mem o⟩)
        ∧ vexWrites f.1 t (vecNumber (vex2Ext (modeOf s) v).reg reg) src)
    ∧ ∀ v : Vex3, vex3Usable s p rex v → ∀ f ∈ vex3Loads, f.1.bits ≤ s.params.maxvl.bits →
      accessible s (accessOf (f.2 p rex v ⟨reg, .mem o⟩) s o) pa →
      (∀ k, k ∈ (accessOf (f.2 p rex v ⟨reg, .mem o⟩) s o).offs ↔ k < f.1.bytes)
      ∧ ∃ t src, exec (f.2 p rex v ⟨reg, .mem o⟩) s = .next t
        ∧ loadedFrom s (accessOf (f.2 p rex v ⟨reg, .mem o⟩) s o) pa src
        ∧ onlyRegChanged s t (vecNumber (vex3Ext (modeOf s) v).reg reg) (vex3Ilen p rex ⟨reg, .mem o⟩)
        ∧ vexWrites f.1 t (vecNumber (vex3Ext (modeOf s) v).reg reg) src

/-- VMOVUPS (VEX) to memory: 16 or 32 bytes and no other, no register changed (41_vmovups_vex.md R141, R143, R144). -/
def Obligations.VexStoreCompletes : Prop :=
  ∀ (s : State) (p : Prefixes) (rex : Option Rex) (reg : BitVec 3) (o : MemOperand) (pa : Nat → Nat), cr0Ts s = false →
    s.mem.wf →
    (∀ v : Vex2, vex2Usable s p rex v → ∀ f ∈ vex2Stores, f.1.bits ≤ s.params.maxvl.bits →
      accessible s (accessOf (f.2 p rex v ⟨reg, .mem o⟩) s o) pa →
      (∀ k, k ∈ (accessOf (f.2 p rex v ⟨reg, .mem o⟩) s o).offs ↔ k < f.1.bytes)
      ∧ ∃ t, exec (f.2 p rex v ⟨reg, .mem o⟩) s = .next t ∧ onlyMemChanged s t (vex2Ilen p rex ⟨reg, .mem o⟩)
        ∧ storedTo s t (accessOf (f.2 p rex v ⟨reg, .mem o⟩) s o) pa (readVec s (vecNumber (vex2Ext (modeOf s) v).reg reg)))
    ∧ ∀ v : Vex3, vex3Usable s p rex v → ∀ f ∈ vex3Stores, f.1.bits ≤ s.params.maxvl.bits →
      accessible s (accessOf (f.2 p rex v ⟨reg, .mem o⟩) s o) pa →
      (∀ k, k ∈ (accessOf (f.2 p rex v ⟨reg, .mem o⟩) s o).offs ↔ k < f.1.bytes)
      ∧ ∃ t, exec (f.2 p rex v ⟨reg, .mem o⟩) s = .next t ∧ onlyMemChanged s t (vex3Ilen p rex ⟨reg, .mem o⟩)
        ∧ storedTo s t (accessOf (f.2 p rex v ⟨reg, .mem o⟩) s o) pa (readVec s (vecNumber (vex3Ext (modeOf s) v).reg reg))

/-- VMOVUPS (EVEX) between registers, three lengths, both opcodes: element by element under the mask, merging or zeroing, the bits
above cleared (42_vmovups_evex.md R150, R152 to R159). That this holds with 16-bit address size too (`Prot16`, and 67H in the 32-bit
modes) is the model's reading (DEDUCED, log 20): 30_encoding.md R91 and R112 say that EVEX with 16-bit address size is refused, and
the model refuses the memory forms only. -/
def Obligations.EvexRegisterCopyCompletes : Prop :=
  ∀ (s : State) (p : Prefixes) (rex : Option Rex) (v : Evex) (reg r : BitVec 3), cr0Ts s = false →
    (∀ f ∈ evexLoads, evexEncUsable s f.1 .load p rex v ⟨reg, .reg r⟩ → f.1.bits ≤ s.params.maxvl.bits →
      ∃ t, exec (f.2 p rex v ⟨reg, .reg r⟩) s = .next t
        ∧ onlyRegChanged s t (vecNumber (evexExt (modeOf s) v).reg reg) (evexIlen p rex ⟨reg, .reg r⟩)
        ∧ evexWrites f.1 v s t (vecNumber (evexExt (modeOf s) v).reg reg)
            (readVec s (vecNumber (evexExt (modeOf s) v).rmReg r)))
    ∧ ∀ f ∈ evexStores, evexEncUsable s f.1 .store p rex v ⟨reg, .reg r⟩ → f.1.bits ≤ s.params.maxvl.bits →
      ∃ t, exec (f.2 p rex v ⟨reg, .reg r⟩) s = .next t
        ∧ onlyRegChanged s t (vecNumber (evexExt (modeOf s) v).rmReg r) (evexIlen p rex ⟨reg, .reg r⟩)
        ∧ evexWrites f.1 v s t (vecNumber (evexExt (modeOf s) v).rmReg r)
            (readVec s (vecNumber (evexExt (modeOf s) v).reg reg))

/-- VMOVUPS (EVEX) from memory: the bytes of the selected elements are read and no other, and need be accessible; with no element
selected the load completes whatever its address (42_vmovups_evex.md R150, R152 to R156, R160; 60_exceptions.md R192). -/
def Obligations.EvexLoadCompletes : Prop :=
  ∀ (s : State) (p : Prefixes) (rex : Option Rex) (v : Evex) (reg : BitVec 3) (o : MemOperand) (pa : Nat → Nat),
    cr0Ts s = false →
    ∀ f ∈ evexLoads, evexEncUsable s f.1 .load p rex v ⟨reg, .mem o⟩ → f.1.bits ≤ s.params.maxvl.bits →
      accessible s (accessOf (f.2 p rex v ⟨reg, .mem o⟩) s o) pa →
      (∀ k, k ∈ (accessOf (f.2 p rex v ⟨reg, .mem o⟩) s o).offs ↔ k < f.1.bytes ∧ maskBit s v.aaa (k / 4) = true)
      ∧ ∃ t src, exec (f.2 p rex v ⟨reg, .mem o⟩) s = .next t
        ∧ loadedFrom s (accessOf (f.2 p rex v ⟨reg, .mem o⟩) s o) pa src
        ∧ onlyRegChanged s t (vecNumber (evexExt (modeOf s) v).reg reg) (evexIlen p rex ⟨reg, .mem o⟩)
        ∧ evexWrites f.1 v s t (vecNumber (evexExt (modeOf s) v).reg reg) src

/-- VMOVUPS (EVEX) to memory: the bytes of the selected elements are written and no other, and need be accessible
(42_vmovups_evex.md R151 to R153, R157 to R160; 60_exceptions.md R192). -/
def Obligations.EvexStoreCompletes : Prop :=
  ∀ (s : State) (p : Prefixes) (rex : Option Rex) (v : Evex) (reg : BitVec 3) (o : MemOperand) (pa : Nat → Nat),
    cr0Ts s = false → s.mem.wf →
    ∀ f ∈ evexStores, evexEncUsable s f.1 .store p rex v ⟨reg, .mem o⟩ → f.1.bits ≤ s.params.maxvl.bits →
      accessible s (accessOf (f.2 p rex v ⟨reg, .mem o⟩) s o) pa →
      (∀ k, k ∈ (accessOf (f.2 p rex v ⟨reg, .mem o⟩) s o).offs ↔ k < f.1.bytes ∧ maskBit s v.aaa (k / 4) = true)
      ∧ ∃ t, exec (f.2 p rex v ⟨reg, .mem o⟩) s = .next t ∧ onlyMemChanged s t (evexIlen p rex ⟨reg, .mem o⟩)
        ∧ storedTo s t (accessOf (f.2 p rex v ⟨reg, .mem o⟩) s o) pa
            (readVec s (vecNumber (evexExt (modeOf s) v).reg reg))

/-- In `Mode64` with identity translation, no device and #AC ruled out, an operand whose accessed bytes are canonical is accessible at
its linear address; without alignment checking and under AC_POLICY `Never`, at any alignment (20_memory.md R54, R61 to R63;
60_exceptions.md R186). A store must miss the program text. -/
def Obligations.FlatOperandIsAccessible : Prop :=
  ∀ (i : Instr) (s : State) (o : MemOperand), memOperand i s = some o → modeOf s = .mode64 → s.translation = .identity →
    s.devices = [] →
    noAlignmentFault s (accessOf i s o) (linear64 s (accessOf i s o)) →
    (∀ k ∈ (accessOf i s o).offs, canonical s.params.laBits (linear64 s (accessOf i s o) + k) = true) →
    ((moveOf i s).dir = .store → ∀ k ∈ (accessOf i s o).offs, inText s (linear64 s (accessOf i s o) + k) = false) →
      accessible s (accessOf i s o) fun k => linear64 s (accessOf i s o) + k

/-! ### Frames -/

/-- Whatever completes writes its destination and pc and nothing else: no flag, no opmask register, no general, segment or control
register; a register destination changes no memory and no other vector register; a memory destination changes no vector register
and no byte but the accessed ones, at the address the instruction computes (00_scope.md R16; 10_state.md R23, R28, R33, R34;
20_memory.md R57). And its VL is at most MAXVL (00_scope.md R7); that a form which is wider does not complete, whatever the
parameters, is the model's choice (log 11). -/
def Obligations.NothingButDestinationWritten : Prop :=
  ∀ (i : Instr) (s t : State), exec i s = .next t →
    (lengthOf i).bits ≤ s.params.maxvl.bits
    ∧ sameControl s t
    ∧ t.pc = BitVec.ofNat 64 ((pcOffset s + instrLength i) % 2 ^ pcBits (modeOf s))
    ∧ (∀ r, destReg i s ≠ some r → readVec t r = readVec s r)
    ∧ (storedOperand i s = none → t.mem = s.mem)
    ∧ (s.mem.wf → ∀ o, storedOperand i s = some o → ∀ x,
        (∀ la k, segCheck s (accessOf i s o) = .next la → k ∈ (accessOf i s o).offs → translate s (la + k) .write ≠ .ok x) →
        readByte t.mem x = readByte s.mem x)

/-- Over any number of steps the flags, the opmask, general, segment and control registers, the privilege level and the
parameters keep their values (00_scope.md R16; 10_state.md R28, R30, R34, R35, R36; 60_exceptions.md R207). -/
def Obligations.RunsKeepControlState : Prop :=
  ∀ (n : Nat) (s t : State), steps n s = .next t →
    t.k = s.k ∧ t.mxcsr = s.mxcsr ∧ t.gpr = s.gpr ∧ t.segs = s.segs ∧ t.csL = s.csL ∧ t.csD = s.csD ∧ t.eflags = s.eflags
      ∧ t.cr0 = s.cr0 ∧ t.cr2 = s.cr2 ∧ t.cr3 = s.cr3 ∧ t.cr4 = s.cr4 ∧ t.xcr0 = s.xcr0 ∧ t.efer = s.efer ∧ t.cpl = s.cpl
      ∧ t.translation = s.translation ∧ t.devices = s.devices ∧ t.params = s.params ∧ modeOf t = modeOf s

/-! ### The invariant -/

/-- The invariant holds after reset. -/
def Obligations.ResetMeetsInvariant : Prop := machineInv State.reset

/-- Every step keeps the memory in canonical form, every vector register within MAXVL bits, pc within the width of the mode, and
MAXVL consistent with the flags (00_scope.md R7; 10_state.md R20, R32, R33). -/
def Obligations.StepKeepsInvariant : Prop := ∀ s t : State, machineInv s → step s = .next t → machineInv t

/-! ### Equivalences and independence -/

/-- A register copy has two encodings, opcode 10H and opcode 11H with the ModR/M fields and their extension bits exchanged, and
they have the same outcome (30_encoding.md R111). VEX2 has no extension bit for r/m, so R̅ is 1 in its pair; outside `Mode64` the
bits that extend are 1. -/
def Obligations.TwoEncodingsOfACopyAgree : Prop :=
  ∀ (s : State) (p : Prefixes) (a b : BitVec 3),
    (exec (.movupsLoad p none ⟨a, .reg b⟩) s = exec (.movupsStore p none ⟨b, .reg a⟩) s
      ∧ ∀ w r x y : Bool,
        exec (.movupsLoad p (some ⟨w, r, x, y⟩) ⟨a, .reg b⟩) s = exec (.movupsStore p (some ⟨w, y, x, r⟩) ⟨b, .reg a⟩) s)
    ∧ (∀ (rex : Option Rex) (vv : BitVec 4),
        exec (.vex2Load128 p rex ⟨true, vv⟩ ⟨a, .reg b⟩) s = exec (.vex2Store128 p rex ⟨true, vv⟩ ⟨b, .reg a⟩) s
        ∧ exec (.vex2Load256 p rex ⟨true, vv⟩ ⟨a, .reg b⟩) s = exec (.vex2Store256 p rex ⟨true, vv⟩ ⟨b, .reg a⟩) s)
    ∧ (∀ (rex : Option Rex) (v : Vex3), modeOf s = .mode64 ∨ (v.rInv = true ∧ v.bInv = true) →
        exec (.vex3Load128 p rex v ⟨a, .reg b⟩) s
          = exec (.vex3Store128 p rex { v with rInv := v.bInv, bInv := v.rInv } ⟨b, .reg a⟩) s
        ∧ exec (.vex3Load256 p rex v ⟨a, .reg b⟩) s
          = exec (.vex3Store256 p rex { v with rInv := v.bInv, bInv := v.rInv } ⟨b, .reg a⟩) s)
    ∧ ∀ (rex : Option Rex) (v w : Evex),
        modeOf s = .mode64 ∨ (v.rInv = true ∧ v.xInv = true ∧ v.bInv = true ∧ v.rpInv = true) →
        w = { v with rInv := v.bInv, bInv := v.rInv, rpInv := v.xInv, xInv := v.rpInv } →
        exec (.evexLoad128 p rex v ⟨a, .reg b⟩) s = exec (.evexStore128 p rex w ⟨b, .reg a⟩) s
        ∧ exec (.evexLoad256 p rex v ⟨a, .reg b⟩) s = exec (.evexStore256 p rex w ⟨b, .reg a⟩) s
        ∧ exec (.evexLoad512 p rex v ⟨a, .reg b⟩) s = exec (.evexStore512 p rex w ⟨b, .reg a⟩) s

/-- Only bits 0 to KL-1 of the selected writemask matter, whatever the other opmask registers hold
(42_vmovups_evex.md R152, R160 item 7). -/
def Obligations.HighMaskBitsAreIgnored : Prop :=
  ∀ (s : State) (p : Prefixes) (rex : Option Rex) (v : Evex) (m : ModRM) (k : Vector (BitVec 64) 8),
    ∀ f ∈ evexLoads ++ evexStores,
      (v.aaa ≠ 0#3 → ∀ j, j < f.1.elems → (k[v.aaa.toNat]'(v.aaa.isLt)).getLsbD j = (s.k[v.aaa.toNat]'(v.aaa.isLt)).getLsbD j) →
      exec (f.2 p rex v m) { s with k := k } = mapNext (fun t => { t with k := k }) (exec (f.2 p rex v m) s)

/-- MXCSR is neither read nor written (10_state.md R29). -/
def Obligations.MxcsrIsNotRead : Prop :=
  ∀ (i : Instr) (s : State) (x : BitVec 32),
    exec i { s with mxcsr := x } = mapNext (fun t => { t with mxcsr := x }) (exec i s)

/-- A load depends on memory through the bytes of the selected elements only: if those read the same, so does the whole result
(20_memory.md R66; 42_vmovups_evex.md R150). -/
def Obligations.LoadsReadOnlySelectedBytes : Prop :=
  ∀ (i : Instr) (s t : State) (m : Memory), (moveOf i s).dir = .load → exec i s = .next t →
    (∀ o la k x, memOperand i s = some o → segCheck s (accessOf i s o) = .next la → k ∈ (accessOf i s o).offs →
      translate s (la + k) .read = .ok x → readByte m x = readByte s.mem x) →
    exec i { s with mem := m } = .next { t with mem := m }

/-- Element j of a register that a load has written is the little-endian value of the operand's bytes 4j to 4j+3, when the element
is selected (20_memory.md R52, R53). -/
def Obligations.LoadedElementsAreLittleEndian : Prop :=
  ∀ (i : Instr) (s t : State) (o : MemOperand) (pa : Nat → Nat) (j : Nat),
    (moveOf i s).dir = .load → memOperand i s = some o → (moveOf i s).vl.bits ≤ s.params.maxvl.bits →
    accessible s (accessOf i s o) pa → exec i s = .next t → 4 * j ∈ (accessOf i s o).offs →
      elemOf (readVec t (moveReg (moveOf i s))) j
        = readByte s.mem (pa (4 * j + 3)) ++ readByte s.mem (pa (4 * j + 2)) ++ readByte s.mem (pa (4 * j + 1))
            ++ readByte s.mem (pa (4 * j))

/-- A load that follows a store returns, for every byte that both access, the byte stored, whatever the two forms, sizes,
alignments and masks (20_memory.md R70; 70_reset_and_hazards.md R215). -/
def Obligations.LoadReturnsStoredBytes : Prop :=
  ∀ (i j : Instr) (s t u : State) (oi oj : MemOperand) (la lb ki kj x : Nat),
    s.mem.wf → exec i s = .next t → exec j t = .next u →
    storedOperand i s = some oi → (moveOf j t).dir = .load → memOperand j t = some oj →
    (moveOf j t).vl.bits ≤ t.params.maxvl.bits →
    segCheck s (accessOf i s oi) = .next la → segCheck t (accessOf j t oj) = .next lb →
    ki ∈ (accessOf i s oi).offs → kj ∈ (accessOf j t oj).offs →
    translate s (la + ki) .write = .ok x → translate t (lb + kj) .read = .ok x →
      byteOf (readVec u (moveReg (moveOf j t))) kj = byteOf (readVec s (moveReg (moveOf i s))) ki

/-! ### Reset -/

/-- What reset leaves, where 10_state.md R39 gives a value. What the model adds (RDX, segment registers but the base of CS, CS.L,
CS.D, IA32_EFER, memory) is its own (logs 3, 4, 5, 9) and not stated. -/
def Obligations.ResetLeavesTheListedValues : Prop :=
  (∀ r, readVec State.reset r = 0#512) ∧ (∀ i, readMask State.reset i = 0#64) ∧ State.reset.mxcsr = 0x1F80#32
    ∧ (∀ i : Fin 16, i ≠ 2 → State.reset.gpr[i.val] = 0#64)
    ∧ State.reset.pc = 0xFFF0#64 ∧ State.reset.segs.cs.base = 0xFFFF0000#64 ∧ codeLinear State.reset 0xFFF0 = some 0xFFFFFFF0
    ∧ State.reset.eflags = 2#32 ∧ State.reset.cr0 = 0x60000010#64 ∧ State.reset.cr2 = 0#64 ∧ State.reset.cr3 = 0#64
    ∧ State.reset.cr4 = 0#64 ∧ State.reset.xcr0 = 1#64 ∧ State.reset.cpl = 0#2 ∧ modeOf State.reset = .real

/-- Straight out of reset no form executes, whatever memory holds: every instruction of at most 15 bytes is #UD, and no step has a
next state (10_state.md R39; 70_reset_and_hazards.md R211). -/
def Obligations.NothingExecutesAfterReset : Prop :=
  ∀ m : Memory,
    (∀ i, instrLength i ≤ 15 → raises i { State.reset with mem := m } .invalidOpcode)
    ∧ ∀ t, step { State.reset with mem := m } ≠ .next t

/-! ### Addresses -/

/-- The effective address is (base + index * scale + disp) mod 2^asz, computed exactly, RIP-relative included; with 16-bit address
size the sum is the table's (20_memory.md R60; 30_encoding.md R90, R91, R92, R107). The access of an instruction is at that sum,
with the address size of R81, the instruction's own extension bits, length and disp8 factor; its linear address is the segment's
base plus that, in the segment of R93 (20_memory.md R61). -/
def Obligations.EffectiveAddressIsExactSum : Prop :=
  (∀ (s : State) (asz : AddrSize) (ext : RegExt) (ilen n8 : Nat) (o : MemOperand),
    (asz ≠ .a16 →
      ((effectiveAddress s asz ext ilen n8 o).toNat : Int)
        = (baseInt s ilen (baseOf (modeOf s) ext.base o) + indexInt s ext.index o + dispInt n8 o.disp) % 2 ^ asizeBits asz)
    ∧ ((effectiveAddress s .a16 ext ilen n8 o).toNat : Int) = (tableInt16 s o + dispInt n8 o.disp) % 2 ^ 16)
  ∧ ∀ (i : Instr) (s : State) (o : MemOperand),
    (modeOf s = .mode64 → (accessOf i s o).asz = if (prefixesOf i).addrSize then .a32 else .a64)
    ∧ (modeOf s = .compat32 ∨ modeOf s = .prot32 → (accessOf i s o).asz = if (prefixesOf i).addrSize then .a16 else .a32)
    ∧ (modeOf s = .prot16 ∨ modeOf s = .real ∨ modeOf s = .v86 →
        (accessOf i s o).asz = if (prefixesOf i).addrSize then .a32 else .a16)
    ∧ ((accessOf i s o).asz ≠ .a16 →
      ((accessOf i s o).ea.toNat : Int)
        = (baseInt s (instrLength i) (baseOf (modeOf s) (baseBit (modeOf s) i) o) + indexInt s (indexBit (modeOf s) i) o
            + dispInt (dispFactor i) o.disp) % 2 ^ asizeBits (accessOf i s o).asz)
    ∧ ((accessOf i s o).asz = .a16 →
      ((accessOf i s o).ea.toNat : Int) = (tableInt16 s o + dispInt (dispFactor i) o.disp) % 2 ^ 16)
    ∧ (∀ ext : RegExt, ext.base = baseBit (modeOf s) i →
      (accessOf i s o).seg
          = segmentOf (modeOf s) (prefixesOf i).seg (defaultSegment (modeOf s) (accessOf i s o).asz ext o)
        ∧ (accessOf i s o).stack
          = violationIsStack (modeOf s) (prefixesOf i).seg (defaultSegment (modeOf s) (accessOf i s o).asz ext o))
    ∧ ((accessOf i s o).seg = .fs ∨ (accessOf i s o).seg = .gs →
      linear64 s (accessOf i s o) = ((segRegister s (accessOf i s o).seg).base.toNat + (accessOf i s o).ea.toNat) % 2 ^ 64)
    ∧ ((accessOf i s o).seg ≠ .fs → (accessOf i s o).seg ≠ .gs →
      linear64 s (accessOf i s o) = (accessOf i s o).ea.toNat)
    ∧ linear32 s (accessOf i s o) = ((segRegister s (accessOf i s o).seg).base.toNat + (accessOf i s o).ea.toNat) % 2 ^ 32

/-- The bases and indexes of 32- and 64-bit addressing: SIB.base = 101 under mod = 00 is no base, rm = 101 under mod = 00 is
RIP-relative in `Mode64` and no base elsewhere, index 4 is no index and index 12 is one (30_encoding.md R90). -/
def Obligations.BaseAndIndexFollowTable : Prop :=
  ∀ (mode : Mode) (bx xx : Bool) (o : MemOperand),
    (∀ sb, o.sib = some sb →
      (sb.base = 5#3 → o.mod = .m00 → baseOf mode bx o = .none)
      ∧ (sb.base ≠ 5#3 ∨ o.mod ≠ .m00 → baseOf mode bx o = .gpr (BitVec.ofBool bx ++ sb.base))
      ∧ (BitVec.ofBool xx ++ sb.index = 4#4 → indexOf xx o = none)
      ∧ (BitVec.ofBool xx ++ sb.index ≠ 4#4 → indexOf xx o = some (BitVec.ofBool xx ++ sb.index)))
    ∧ (o.sib = none →
      indexOf xx o = none
      ∧ (o.rm = 5#3 → o.mod = .m00 → mode = .mode64 → baseOf mode bx o = .nextPc)
      ∧ (o.rm = 5#3 → o.mod = .m00 → mode ≠ .mode64 → baseOf mode bx o = .none)
      ∧ (o.rm ≠ 5#3 ∨ o.mod ≠ .m00 → baseOf mode bx o = .gpr (BitVec.ofBool bx ++ o.rm)))

/-- In an EVEX form an 8-bit displacement d is worth the 32-bit displacement d * N, N = VL/8; in a Legacy SSE or VEX form it is
worth d itself, at every address size (30_encoding.md R92, R107). -/
def Obligations.CompressedDisplacementIsScaled : Prop :=
  ∀ (s : State) (p : Prefixes) (rex : Option Rex) (reg rm : BitVec 3) (sib : Option Sib) (d : BitVec 8),
    (addrSize (modeOf s) p.addrSize ≠ .a16 → ∀ f ∈ evexLoads ++ evexStores, ∀ v : Evex,
      operandEa (f.2 p rex v) s reg ⟨.m01, rm, sib, .d8 d⟩
        = operandEa (f.2 p rex v) s reg ⟨.m10, rm, sib, .d32 (BitVec.ofInt 32 (d.toInt * (f.1.bits / 8 : Nat)))⟩)
    ∧ ∀ (v2 : Vex2) (v3 : Vex3),
      ∀ f ∈ [Instr.movupsLoad p rex, Instr.movupsStore p rex] ++ (vex2Loads ++ vex2Stores).map (fun g => g.2 p rex v2)
          ++ (vex3Loads ++ vex3Stores).map (fun g => g.2 p rex v3),
        (addrSize (modeOf s) p.addrSize ≠ .a16 →
          operandEa f s reg ⟨.m01, rm, sib, .d8 d⟩ = operandEa f s reg ⟨.m10, rm, sib, .d32 (BitVec.ofInt 32 d.toInt)⟩)
        ∧ (addrSize (modeOf s) p.addrSize = .a16 →
          operandEa f s reg ⟨.m01, rm, sib, .d8 d⟩ = operandEa f s reg ⟨.m10, rm, sib, .d16 (BitVec.ofInt 16 d.toInt)⟩)

/-- The default segment is SS exactly for a base of register 4 or 5 without extension, and for the BP rows of 16-bit addressing;
else DS (30_encoding.md R91, R93). -/
def Obligations.DefaultSegmentFollowsBase : Prop :=
  ∀ (mode : Mode) (asz : AddrSize) (ext : RegExt) (o : MemOperand), o.wf asz = true →
    (defaultSegment mode asz ext o = .ss ∨ defaultSegment mode asz ext o = .ds)
    ∧ (asz ≠ .a16 →
      (defaultSegment mode asz ext o = .ss ↔
        (o.rm = 5#3 ∧ o.mod ≠ .m00 ∧ ext.base = false)
          ∨ ∃ sb, o.sib = some sb ∧ ext.base = false ∧ (sb.base = 4#3 ∨ (sb.base = 5#3 ∧ o.mod ≠ .m00))))
    ∧ (asz = .a16 →
      (defaultSegment mode asz ext o = .ss ↔ o.rm = 2#3 ∨ o.rm = 3#3 ∨ (o.rm = 6#3 ∧ o.mod ≠ .m00)))

/-- A linear address is canonical exactly when its bits 63 to LA_BITS-1 are all equal (20_memory.md R61); past the top of the
address space none is (R75). -/
def Obligations.CanonicalMeansEqualTopBits : Prop :=
  ∀ b : LaBits,
    (∀ la : BitVec 64, canonical b la.toNat = true ↔ ∀ n, b.bits - 1 ≤ n → n < 64 → la.getLsbD n = la.getLsbD 63)
    ∧ ∀ la : Nat, 2 ^ 64 ≤ la → canonical b la = false
end

