-- ==== Sys2Proof/Laws/Decode.lean ====
section
/-! SUPPORT. The decoder reads back each part the encoder writes: the prefixes, REX, ModR/M with what follows it, and the
payloads of the VEX and EVEX prefixes. -/

namespace Sys2Proof

open Machine

/-! ### One byte -/

@[simp] theorem rexOfByte_byteOfRex (r : Rex) : rexOfByte (byteOfRex r) = r := by
  obtain ⟨w, x, y, z⟩ := r
  revert w x y z
  decide

@[simp] theorem extract_byteOfRex (r : Rex) : (byteOfRex r).extractLsb' 4 4 = 4#4 := by
  obtain ⟨w, x, y, z⟩ := r
  revert w x y z
  decide

@[simp] theorem addPrefix_byteOfRex (p : Prefixes) (r : Rex) : addPrefix p (byteOfRex r) = .notPrefix := by
  obtain ⟨w, x, y, z⟩ := r
  cases w <;> cases x <;> cases y <;> cases z <;> rfl

@[simp] theorem sibOfByte_byteOfSib (s : Sib) : sibOfByte (byteOfSib s) = s := by
  obtain ⟨a, b, c⟩ := s
  revert a b c
  decide

/-- The fields of a ModR/M byte. -/
theorem modrm_fields (mod : BitVec 2) (reg rm : BitVec 3) :
    (mod ++ reg ++ rm : BitVec 8).extractLsb' 6 2 = mod ∧ (mod ++ reg ++ rm : BitVec 8).extractLsb' 3 3 = reg
      ∧ (mod ++ reg ++ rm : BitVec 8).extractLsb' 0 3 = rm := by
  revert mod reg rm
  decide

/-- ModRM.mod of a memory operand reads back. -/
theorem memModOf_bitsOfMod (mod : MemMod) (reg rm : BitVec 3) :
    memModOf (bitsOfMod mod ++ reg ++ rm : BitVec 8) = some mod := by
  unfold memModOf
  rw [(modrm_fields (bitsOfMod mod) reg rm).1]
  cases mod <;> rfl

theorem memModOf_reg (reg rm : BitVec 3) : memModOf (3#2 ++ reg ++ rm : BitVec 8) = none := by
  unfold memModOf
  rw [(modrm_fields 3#2 reg rm).1]
  rfl

/-! ### The payloads -/

theorem vex2_fields (v : Vex2) (l : Bool) :
    vex2OfByte (byteOfVex2 v l) = v ∧ (byteOfVex2 v l).getLsbD 2 = l ∧ (byteOfVex2 v l).extractLsb' 0 2 = 0#2
      ∧ (byteOfVex2 v l).extractLsb' 6 2 = BitVec.ofBool v.rInv ++ BitVec.ofBool (v.vvvv.getLsbD 3) := by
  obtain ⟨a, b⟩ := v
  revert a b l
  decide

theorem vex3_fields (v : Vex3) (l : Bool) :
    vex3OfBytes (firstOfVex3 v) (secondOfVex3 v l) = v ∧ (secondOfVex3 v l).getLsbD 2 = l
      ∧ (secondOfVex3 v l).extractLsb' 0 2 = 0#2 ∧ (firstOfVex3 v).extractLsb' 0 5 = 1#5
      ∧ (firstOfVex3 v).extractLsb' 6 2 = BitVec.ofBool v.rInv ++ BitVec.ofBool v.xInv := by
  obtain ⟨a, b, c, d, e⟩ := v
  cases a <;> cases b <;> cases c <;> cases d <;> cases l <;> revert e <;> decide

theorem evex_first (v : Evex) :
    (firstOfEvex v).getLsbD 7 = v.rInv ∧ (firstOfEvex v).getLsbD 6 = v.xInv ∧ (firstOfEvex v).getLsbD 5 = v.bInv
      ∧ (firstOfEvex v).getLsbD 4 = v.rpInv ∧ (firstOfEvex v).extractLsb' 2 2 = v.p0res
      ∧ (firstOfEvex v).extractLsb' 0 2 = 1#2
      ∧ (firstOfEvex v).extractLsb' 6 2 = BitVec.ofBool v.rInv ++ BitVec.ofBool v.xInv := by
  have h : ∀ (a b c d : Bool) (e : BitVec 2),
      let w : Byte := BitVec.ofBool a ++ BitVec.ofBool b ++ BitVec.ofBool c ++ BitVec.ofBool d ++ e ++ 1#2
      w.getLsbD 7 = a ∧ w.getLsbD 6 = b ∧ w.getLsbD 5 = c ∧ w.getLsbD 4 = d ∧ w.extractLsb' 2 2 = e
        ∧ w.extractLsb' 0 2 = 1#2 ∧ w.extractLsb' 6 2 = BitVec.ofBool a ++ BitVec.ofBool b := by
    decide
  exact h v.rInv v.xInv v.bInv v.rpInv v.p0res

theorem evex_second (v : Evex) :
    (secondOfEvex v).getLsbD 7 = v.w ∧ (secondOfEvex v).extractLsb' 3 4 = v.vvvv ∧ (secondOfEvex v).getLsbD 2 = v.p1fixed
      ∧ (secondOfEvex v).extractLsb' 0 2 = 0#2 := by
  have h : ∀ (a b : Bool) (e : BitVec 4),
      let w : Byte := BitVec.ofBool a ++ e ++ BitVec.ofBool b ++ 0#2
      w.getLsbD 7 = a ∧ w.extractLsb' 3 4 = e ∧ w.getLsbD 2 = b ∧ w.extractLsb' 0 2 = 0#2 := by
    decide
  exact h v.w v.p1fixed v.vvvv

theorem evex_third (v : Evex) (vl : VecLen) :
    (thirdOfEvex v vl).getLsbD 7 = v.z ∧ (thirdOfEvex v vl).extractLsb' 5 2 = bitsOfVecLen vl
      ∧ (thirdOfEvex v vl).getLsbD 4 = v.b ∧ (thirdOfEvex v vl).getLsbD 3 = v.vpInv
      ∧ (thirdOfEvex v vl).extractLsb' 0 3 = v.aaa := by
  have h : ∀ (a b c : Bool) (e : BitVec 2) (f : BitVec 3),
      let w : Byte := BitVec.ofBool a ++ e ++ BitVec.ofBool b ++ BitVec.ofBool c ++ f
      w.getLsbD 7 = a ∧ w.extractLsb' 5 2 = e ∧ w.getLsbD 4 = b ∧ w.getLsbD 3 = c ∧ w.extractLsb' 0 3 = f := by
    decide
  exact h v.z v.b v.vpInv (bitsOfVecLen vl) v.aaa

theorem evex_fields (v : Evex) (vl : VecLen) :
    evexOfBytes (firstOfEvex v) (secondOfEvex v) (thirdOfEvex v vl) = v := by
  obtain ⟨h1, h2, h3, h4, h5, -, -⟩ := evex_first v
  obtain ⟨k1, k2, k3, -⟩ := evex_second v
  obtain ⟨l1, -, l3, l4, l5⟩ := evex_third v vl
  unfold evexOfBytes
  rw [h1, h2, h3, h4, h5, k1, k2, k3, l1, l3, l4, l5]

@[simp] theorem vecLenOf_bitsOfVecLen (vl : VecLen) : vecLenOf (bitsOfVecLen vl) = some vl := by
  cases vl <;> rfl

/-! ### Prefixes and REX -/

/-- Reading the prefixes the encoder wrote. -/
theorem takePrefixes_encodePrefixes (p : Prefixes) {l : List Byte}
    (h : ∀ q b t, l = b :: t → addPrefix q b = .notPrefix) :
    takePrefixes noPrefixes (encodePrefixes p ++ l) = some (p, l) := by
  have hl : ∀ q, takePrefixes q l = some (q, l) := by
    intro q
    cases l with
    | nil => rfl
    | cons b t => simp [takePrefixes, h q b t rfl]
  obtain ⟨lock, rep, seg, o, a⟩ := p
  rcases lock with _ | _ <;> rcases rep with _ | ⟨_ | _⟩ <;> rcases seg with _ | ⟨_ | _ | _ | _ | _ | _⟩ <;>
    rcases o with _ | _ <;> rcases a with _ | _ <;> exact hl _

/-- Reading the REX the encoder wrote. -/
theorem takeRex_encodeRex (mode : Mode) (rex : Option Rex) {l : List Byte} (hrex : rexWf mode rex = true)
    (h : ∀ b t, l = b :: t → isRexByte mode b = false) : takeRex mode (encodeRex rex ++ l) = (rex, l) := by
  cases rex with
  | none =>
    cases l with
    | nil => rfl
    | cons b t => simp [encodeRex, takeRex, h b t rfl]
  | some r =>
    have hm : mode = .mode64 := by simpa [rexWf] using hrex
    simp [encodeRex, takeRex, isRexByte, hm]

/-! ### ModR/M and what follows -/

theorem takeDisp_encodeDisp (d : Disp) (l : List Byte) : takeDisp (sizeOfDisp d) (encodeDisp d ++ l) = some (d, l) := by
  cases d with
  | none => rfl
  | d8 a => rfl
  | d16 a =>
    have h : (a.extractLsb' 8 8 ++ a.extractLsb' 0 8 : BitVec 16) = a := by
      apply BitVec.eq_of_getLsbD_eq
      intro i hi
      simp only [BitVec.getLsbD_append, BitVec.getLsbD_extractLsb']
      split
      · simp; omega
      · have : 8 + (i - 8) = i := by omega
        simp [this]; omega
    simp only [encodeDisp, sizeOfDisp, takeDisp, List.cons_append, List.nil_append, h]
  | d32 a =>
    have h : (a.extractLsb' 24 8 ++ a.extractLsb' 16 8 ++ a.extractLsb' 8 8 ++ a.extractLsb' 0 8 : BitVec 32) = a := by
      apply BitVec.eq_of_getLsbD_eq
      intro i hi
      simp only [BitVec.getLsbD_append, BitVec.getLsbD_extractLsb']
      split
      · simp; omega
      · split
        · have : 8 + (i - 8) = i := by omega
          simp [this]; omega
        · split
          · have : 16 + (i - 8 - 8) = i := by omega
            simp [this]; omega
          · have : 24 + (i - 8 - 8 - 8) = i := by omega
            simp [this]; omega
    simp only [encodeDisp, sizeOfDisp, takeDisp, List.cons_append, List.nil_append, h]

/-- Reading the ModR/M the encoder wrote. -/
theorem takeModRM_encodeModRM (asz : AddrSize) (m : ModRM) (l : List Byte) (hm : m.wf asz = true) :
    takeModRM asz (encodeModRM m ++ l) = some (m, l) := by
  obtain ⟨reg, rm⟩ := m
  cases rm with
  | reg r =>
    simp [encodeModRM, takeModRM, memModOf_reg, (modrm_fields 3#2 reg r).2.1, (modrm_fields 3#2 reg r).2.2]
  | mem o =>
    obtain ⟨mod, rm, sib, disp⟩ := o
    simp only [ModRM.wf, MemOperand.wf, Bool.and_eq_true, beq_iff_eq] at hm
    obtain ⟨hs, hd⟩ := hm
    have hsib : takeSib (needsSib asz rm) ((sib.map byteOfSib).toList ++ (encodeDisp disp ++ l))
        = some (sib, encodeDisp disp ++ l) := by
      rw [← hs]
      cases sib <;> simp [takeSib]
    simp only [encodeModRM, List.cons_append, List.append_assoc, takeModRM, memModOf_bitsOfMod,
      (modrm_fields (bitsOfMod mod) reg rm).2.1, (modrm_fields (bitsOfMod mod) reg rm).2.2, hsib, ← hd, takeDisp_encodeDisp]

end Sys2Proof
end

