-- ==== Sys2Proof/Laws/Memory.lean ====
section
/-! SUPPORT. Memory: a byte reads what was last written, every operation keeps the canonical form, and what an operand's load
and store do byte by byte. -/

namespace Sys2Proof.Machine

theorem wf_nil : Memory.wf [] := ⟨List.Pairwise.nil, by simp⟩

theorem wf_tail {c : Host.Cell} {m : Memory} (h : Memory.wf (c :: m)) : Memory.wf m :=
  ⟨h.1.of_cons, fun d hd => h.2 d (List.mem_cons_of_mem _ hd)⟩

theorem wf_head_lt {c : Host.Cell} {m : Memory} (h : Memory.wf (c :: m)) : ∀ d ∈ m, c.1 < d.1 :=
  (List.pairwise_cons.1 h.1).1

theorem readByte_consCell (m : Memory) (a x : Nat) (v : Byte) (h : readByte m a = unlistedByte) :
    readByte (consCell a v m) x = if x = a then v else readByte m x := by
  unfold consCell
  split
  · rename_i hv
    by_cases hx : x = a
    · simp [hx, h, hv]
    · simp [hx]
  · simp [readByte]

/-- An address below every listed one is not listed. -/
theorem readByte_of_lt {m : Memory} {a : Nat} (h : ∀ d ∈ m, a < d.1) : readByte m a = unlistedByte := by
  induction m with
  | nil => rfl
  | cons c t ih =>
    have hc := h c (List.mem_cons_self ..)
    simp only [readByte]
    rw [if_neg (Nat.ne_of_lt hc)]
    exact ih fun d hd => h d (List.mem_cons_of_mem _ hd)

/-- What a byte reads as after one byte is written. -/
theorem readByte_writeByte {m : Memory} (h : m.wf) (a x : Nat) (v : Byte) :
    readByte (writeByte m a v) x = if x = a then v else readByte m x := by
  induction m with
  | nil => exact readByte_consCell [] a x v rfl
  | cons c t ih =>
    obtain ⟨b, w⟩ := c
    have hlt := wf_head_lt h
    simp only [writeByte]
    split
    · rename_i hab
      refine readByte_consCell _ a x v (readByte_of_lt fun d hd => ?_)
      rcases List.mem_cons.1 hd with rfl | hd
      · exact hab
      · exact Nat.lt_trans hab (hlt d hd)
    · split
      · rename_i _ hab
        subst hab
        rw [readByte_consCell t a x v (readByte_of_lt hlt)]
        by_cases hx : x = a <;> simp [readByte, hx]
      · rename_i _ hab
        simp only [readByte, ih (wf_tail h)]
        by_cases hx : x = b
        · subst hx; simp [Ne.symm hab]
        · simp [hx]

@[simp] theorem readByte_writeByte_same {m : Memory} (h : m.wf) (a : Nat) (v : Byte) :
    readByte (writeByte m a v) a = v := by simp [readByte_writeByte h]

theorem readByte_writeByte_other {m : Memory} (h : m.wf) {a x : Nat} (v : Byte) (hx : x ≠ a) :
    readByte (writeByte m a v) x = readByte m x := by simp [readByte_writeByte h, hx]

theorem wf_consCell {m : Memory} (h : m.wf) {a : Nat} (v : Byte) (hlt : ∀ d ∈ m, a < d.1) : (consCell a v m).wf := by
  unfold consCell
  split
  · exact h
  · rename_i hv
    refine ⟨List.pairwise_cons.2 ⟨hlt, h.1⟩, fun d hd => ?_⟩
    rcases List.mem_cons.1 hd with rfl | hd
    · exact hv
    · exact h.2 d hd

theorem mem_writeByte {m : Memory} {a : Nat} {v : Byte} {d : Host.Cell} (hd : d ∈ writeByte m a v) :
    d = (a, v) ∨ d ∈ m := by
  induction m with
  | nil =>
    simp only [writeByte, consCell] at hd
    split at hd <;> simp_all
  | cons c t ih =>
    obtain ⟨b, w⟩ := c
    simp only [writeByte, consCell] at hd
    split at hd
    · split at hd
      · exact .inr hd
      · rcases List.mem_cons.1 hd with rfl | hd
        · exact .inl rfl
        · exact .inr hd
    · split at hd
      · split at hd
        · exact .inr (List.mem_cons_of_mem _ hd)
        · rcases List.mem_cons.1 hd with rfl | hd
          · exact .inl rfl
          · exact .inr (List.mem_cons_of_mem _ hd)
      · rcases List.mem_cons.1 hd with rfl | hd
        · exact .inr (List.mem_cons_self ..)
        · rcases ih hd with h | h
          · exact .inl h
          · exact .inr (List.mem_cons_of_mem _ h)

/-- A write keeps the canonical form. -/
theorem wf_writeByte {m : Memory} (h : m.wf) (a : Nat) (v : Byte) : (writeByte m a v).wf := by
  induction m with
  | nil => exact wf_consCell wf_nil v (by simp)
  | cons c t ih =>
    obtain ⟨b, w⟩ := c
    have hlt := wf_head_lt h
    simp only [writeByte]
    split
    · rename_i hab
      refine wf_consCell h v fun d hd => ?_
      rcases List.mem_cons.1 hd with rfl | hd
      · exact hab
      · exact Nat.lt_trans hab (hlt d hd)
    · split
      · rename_i _ hab
        subst hab
        exact wf_consCell (wf_tail h) v hlt
      · rename_i hnl hne
        have it := ih (wf_tail h)
        refine ⟨List.pairwise_cons.2 ⟨fun d hd => ?_, it.1⟩, fun d hd => ?_⟩
        · rcases mem_writeByte hd with rfl | hd
          · exact Nat.lt_of_le_of_ne (Nat.le_of_not_lt hnl) (Ne.symm hne)
          · exact hlt d hd
        · rcases List.mem_cons.1 hd with rfl | hd
          · exact h.2 _ (List.mem_cons_self ..)
          · exact it.2 d hd

/-- A store keeps the canonical form. -/
theorem wf_storeBytes (v : Vec) (l : List (Nat × Nat)) {m : Memory} (h : m.wf) : (storeBytes v l m).wf := by
  induction l generalizing m with
  | nil => exact h
  | cons c t ih => exact ih (wf_writeByte h _ _)

/-- Placing a program keeps the canonical form. -/
theorem wf_placeBytes (s : State) (l : List Byte) (n : Nat) {m : Memory} (h : m.wf) : (placeBytes s l n m).wf := by
  induction l generalizing n m with
  | nil => exact h
  | cons b t ih =>
    unfold placeBytes
    split
    · exact ih _ (wf_writeByte h _ _)
    · exact ih _ h

/-- A store leaves every byte it does not address as it was. -/
theorem readByte_storeBytes_other (v : Vec) (l : List (Nat × Nat)) {m : Memory} (h : m.wf) {x : Nat}
    (hx : ∀ c ∈ l, c.2 ≠ x) : readByte (storeBytes v l m) x = readByte m x := by
  induction l generalizing m with
  | nil => rfl
  | cons c t ih =>
    simp only [storeBytes]
    rw [ih (wf_writeByte h _ _) fun d hd => hx d (List.mem_cons_of_mem _ hd)]
    exact readByte_writeByte_other h _ (Ne.symm (hx c (List.mem_cons_self ..)))

/-- A store puts byte k of the value at the physical address of offset k, where no two offsets share an address. -/
theorem readByte_storeBytes_mem (v : Vec) {l : List (Nat × Nat)} {m : Memory} (h : m.wf)
    (hl : l.Pairwise fun c d => c.2 ≠ d.2) {c : Nat × Nat} (hc : c ∈ l) :
    readByte (storeBytes v l m) c.2 = byteOf v c.1 := by
  induction l generalizing m with
  | nil => simp at hc
  | cons d t ih =>
    obtain ⟨hd, ht⟩ := List.pairwise_cons.1 hl
    simp only [storeBytes]
    rcases List.mem_cons.1 hc with rfl | hc
    · rw [readByte_storeBytes_other v t (wf_writeByte h _ _) fun e he => (hd e he).symm]
      exact readByte_writeByte_same h _ _
    · exact ih (wf_writeByte h _ _) ht hc

theorem getLsbD_byteOf (v : Vec) (k b : Nat) : (byteOf v k).getLsbD b = (decide (b < 8) && v.getLsbD (8 * k + b)) := by
  simp [byteOf, BitVec.getLsbD_extractLsb']

theorem getLsbD_byteShift (x : Byte) (k i : Nat) (hk : 8 * k + 8 ≤ 512) :
    (x.setWidth 512 <<< (8 * k)).getLsbD i
      = (decide (8 * k ≤ i) && decide (i < 8 * k + 8) && x.getLsbD (i - 8 * k)) := by
  simp only [BitVec.getLsbD_shiftLeft, BitVec.getLsbD_setWidth]
  by_cases h1 : 8 * k ≤ i
  · by_cases h2 : i < 8 * k + 8
    · have h3 : i < 512 := by omega
      have h4 : i - 8 * k < 512 := by omega
      have h5 : ¬ i < 8 * k := by omega
      simp [h1, h2, h3, h4, h5]
    · have h4 : 8 ≤ i - 8 * k := by omega
      simp [h2, BitVec.getLsbD_of_ge _ _ h4]
  · have h5 : i < 8 * k := by omega
    simp [h1, h5]

/-- The byte at offset k of a loaded value is the byte at k's physical address. -/
theorem byteOf_loadBytes (m : Memory) {l : List (Nat × Nat)} (hl : l.Pairwise fun c d => c.1 ≠ d.1)
    (hb : ∀ c ∈ l, c.1 < 64) {c : Nat × Nat} (hc : c ∈ l) : byteOf (loadBytes m l) c.1 = readByte m c.2 := by
  have zero : ∀ (t : List (Nat × Nat)), (∀ d ∈ t, d.1 < 64) → (∀ d ∈ t, c.1 ≠ d.1) → ∀ b, b < 8 →
      (loadBytes m t).getLsbD (8 * c.1 + b) = false := by
    intro t
    induction t with
    | nil => intro _ _ b _; simp [loadBytes]
    | cons d u ih =>
      intro h1 h2 b hb8
      have hd := h1 d (List.mem_cons_self ..)
      have hne := h2 d (List.mem_cons_self ..)
      simp only [loadBytes, BitVec.getLsbD_or,
        ih (fun e he => h1 e (List.mem_cons_of_mem _ he)) (fun e he => h2 e (List.mem_cons_of_mem _ he)) b hb8,
        getLsbD_byteShift _ _ _ (by omega : 8 * d.1 + 8 ≤ 512), Bool.or_false]
      by_cases h3 : 8 * d.1 ≤ 8 * c.1 + b
      · have : ¬ 8 * c.1 + b < 8 * d.1 + 8 := by omega
        simp [this]
      · simp [h3]
  have hcb := hb c hc
  apply BitVec.eq_of_getLsbD_eq
  intro b hb8
  rw [getLsbD_byteOf]
  simp only [hb8, decide_true, Bool.true_and]
  induction l with
  | nil => simp at hc
  | cons d u ih =>
    obtain ⟨hd, hu⟩ := List.pairwise_cons.1 hl
    have hdb := hb d (List.mem_cons_self ..)
    simp only [loadBytes, BitVec.getLsbD_or, getLsbD_byteShift _ _ _ (by omega : 8 * d.1 + 8 ≤ 512)]
    rcases List.mem_cons.1 hc with rfl | hc
    · rw [zero u (fun e he => hb e (List.mem_cons_of_mem _ he)) hd b hb8]
      have h1 : 8 * c.1 + b < 8 * c.1 + 8 := by omega
      simp [h1]
    · rw [ih hu (fun e he => hb e (List.mem_cons_of_mem _ he)) hc]
      have hne : d.1 ≠ c.1 := hd c hc
      by_cases h3 : 8 * d.1 ≤ 8 * c.1 + b
      · have : ¬ 8 * c.1 + b < 8 * d.1 + 8 := by omega
        simp [this]
      · simp [h3]

end Sys2Proof.Machine
end

