-- ==== Sys2Proof/Laws/State.lean ====
section
/-! SUPPORT. One lemma per field per update of the state, and what the readings of a state see of an update. -/

namespace Sys2Proof.Machine

/-! ### writeVec -/

@[simp] theorem writeVec_k (s : State) (i : BitVec 5) (v : Vec) : (writeVec s i v).k = s.k := rfl
@[simp] theorem writeVec_mxcsr (s : State) (i : BitVec 5) (v : Vec) : (writeVec s i v).mxcsr = s.mxcsr := rfl
@[simp] theorem writeVec_gpr (s : State) (i : BitVec 5) (v : Vec) : (writeVec s i v).gpr = s.gpr := rfl
@[simp] theorem writeVec_pc (s : State) (i : BitVec 5) (v : Vec) : (writeVec s i v).pc = s.pc := rfl
@[simp] theorem writeVec_segs (s : State) (i : BitVec 5) (v : Vec) : (writeVec s i v).segs = s.segs := rfl
@[simp] theorem writeVec_csL (s : State) (i : BitVec 5) (v : Vec) : (writeVec s i v).csL = s.csL := rfl
@[simp] theorem writeVec_csD (s : State) (i : BitVec 5) (v : Vec) : (writeVec s i v).csD = s.csD := rfl
@[simp] theorem writeVec_eflags (s : State) (i : BitVec 5) (v : Vec) : (writeVec s i v).eflags = s.eflags := rfl
@[simp] theorem writeVec_cr0 (s : State) (i : BitVec 5) (v : Vec) : (writeVec s i v).cr0 = s.cr0 := rfl
@[simp] theorem writeVec_cr2 (s : State) (i : BitVec 5) (v : Vec) : (writeVec s i v).cr2 = s.cr2 := rfl
@[simp] theorem writeVec_cr3 (s : State) (i : BitVec 5) (v : Vec) : (writeVec s i v).cr3 = s.cr3 := rfl
@[simp] theorem writeVec_cr4 (s : State) (i : BitVec 5) (v : Vec) : (writeVec s i v).cr4 = s.cr4 := rfl
@[simp] theorem writeVec_xcr0 (s : State) (i : BitVec 5) (v : Vec) : (writeVec s i v).xcr0 = s.xcr0 := rfl
@[simp] theorem writeVec_efer (s : State) (i : BitVec 5) (v : Vec) : (writeVec s i v).efer = s.efer := rfl
@[simp] theorem writeVec_cpl (s : State) (i : BitVec 5) (v : Vec) : (writeVec s i v).cpl = s.cpl := rfl
@[simp] theorem writeVec_translation (s : State) (i : BitVec 5) (v : Vec) : (writeVec s i v).translation = s.translation := rfl
@[simp] theorem writeVec_mem (s : State) (i : BitVec 5) (v : Vec) : (writeVec s i v).mem = s.mem := rfl
@[simp] theorem writeVec_devices (s : State) (i : BitVec 5) (v : Vec) : (writeVec s i v).devices = s.devices := rfl
@[simp] theorem writeVec_textBase (s : State) (i : BitVec 5) (v : Vec) : (writeVec s i v).textBase = s.textBase := rfl
@[simp] theorem writeVec_textLen (s : State) (i : BitVec 5) (v : Vec) : (writeVec s i v).textLen = s.textLen := rfl
@[simp] theorem writeVec_params (s : State) (i : BitVec 5) (v : Vec) : (writeVec s i v).params = s.params := rfl
@[simp] theorem writeVec_draws (s : State) (i : BitVec 5) (v : Vec) : (writeVec s i v).draws = s.draws := rfl

@[simp] theorem readVec_writeVec_same (s : State) (i : BitVec 5) (v : Vec) :
    readVec (writeVec s i v) i = lowPart s.params.maxvl.bits v := by
  simp [readVec, writeVec]

theorem readVec_writeVec_other (s : State) {i j : BitVec 5} (v : Vec) (h : j ≠ i) :
    readVec (writeVec s i v) j = readVec s j := by
  have hne : i.toNat ≠ j.toNat := fun e => h (BitVec.eq_of_toNat_eq e.symm)
  simp only [readVec, writeVec]
  exact Vector.getElem_set_ne i.isLt j.isLt hne

/-! ### retire -/

@[simp] theorem retire_pc (s : State) (n : Nat) :
    (retire s n).pc = BitVec.ofNat 64 ((pcOffset s + n) % 2 ^ pcBits (modeOf s)) := rfl
@[simp] theorem retire_draws (s : State) (n : Nat) : (retire s n).draws = s.draws + 1 := rfl
@[simp] theorem retire_zmm (s : State) (n : Nat) : (retire s n).zmm = s.zmm := rfl
@[simp] theorem retire_k (s : State) (n : Nat) : (retire s n).k = s.k := rfl
@[simp] theorem retire_mxcsr (s : State) (n : Nat) : (retire s n).mxcsr = s.mxcsr := rfl
@[simp] theorem retire_gpr (s : State) (n : Nat) : (retire s n).gpr = s.gpr := rfl
@[simp] theorem retire_segs (s : State) (n : Nat) : (retire s n).segs = s.segs := rfl
@[simp] theorem retire_csL (s : State) (n : Nat) : (retire s n).csL = s.csL := rfl
@[simp] theorem retire_csD (s : State) (n : Nat) : (retire s n).csD = s.csD := rfl
@[simp] theorem retire_eflags (s : State) (n : Nat) : (retire s n).eflags = s.eflags := rfl
@[simp] theorem retire_cr0 (s : State) (n : Nat) : (retire s n).cr0 = s.cr0 := rfl
@[simp] theorem retire_cr2 (s : State) (n : Nat) : (retire s n).cr2 = s.cr2 := rfl
@[simp] theorem retire_cr3 (s : State) (n : Nat) : (retire s n).cr3 = s.cr3 := rfl
@[simp] theorem retire_cr4 (s : State) (n : Nat) : (retire s n).cr4 = s.cr4 := rfl
@[simp] theorem retire_xcr0 (s : State) (n : Nat) : (retire s n).xcr0 = s.xcr0 := rfl
@[simp] theorem retire_efer (s : State) (n : Nat) : (retire s n).efer = s.efer := rfl
@[simp] theorem retire_cpl (s : State) (n : Nat) : (retire s n).cpl = s.cpl := rfl
@[simp] theorem retire_translation (s : State) (n : Nat) : (retire s n).translation = s.translation := rfl
@[simp] theorem retire_mem (s : State) (n : Nat) : (retire s n).mem = s.mem := rfl
@[simp] theorem retire_devices (s : State) (n : Nat) : (retire s n).devices = s.devices := rfl
@[simp] theorem retire_textBase (s : State) (n : Nat) : (retire s n).textBase = s.textBase := rfl
@[simp] theorem retire_textLen (s : State) (n : Nat) : (retire s n).textLen = s.textLen := rfl
@[simp] theorem retire_params (s : State) (n : Nat) : (retire s n).params = s.params := rfl

/-! ### A store -/

@[simp] theorem storeMem_zmm (s : State) (m : Memory) : ({ s with mem := m } : State).zmm = s.zmm := rfl
@[simp] theorem storeMem_k (s : State) (m : Memory) : ({ s with mem := m } : State).k = s.k := rfl
@[simp] theorem storeMem_mxcsr (s : State) (m : Memory) : ({ s with mem := m } : State).mxcsr = s.mxcsr := rfl
@[simp] theorem storeMem_gpr (s : State) (m : Memory) : ({ s with mem := m } : State).gpr = s.gpr := rfl
@[simp] theorem storeMem_pc (s : State) (m : Memory) : ({ s with mem := m } : State).pc = s.pc := rfl
@[simp] theorem storeMem_segs (s : State) (m : Memory) : ({ s with mem := m } : State).segs = s.segs := rfl
@[simp] theorem storeMem_csL (s : State) (m : Memory) : ({ s with mem := m } : State).csL = s.csL := rfl
@[simp] theorem storeMem_csD (s : State) (m : Memory) : ({ s with mem := m } : State).csD = s.csD := rfl
@[simp] theorem storeMem_eflags (s : State) (m : Memory) : ({ s with mem := m } : State).eflags = s.eflags := rfl
@[simp] theorem storeMem_cr0 (s : State) (m : Memory) : ({ s with mem := m } : State).cr0 = s.cr0 := rfl
@[simp] theorem storeMem_cr2 (s : State) (m : Memory) : ({ s with mem := m } : State).cr2 = s.cr2 := rfl
@[simp] theorem storeMem_cr3 (s : State) (m : Memory) : ({ s with mem := m } : State).cr3 = s.cr3 := rfl
@[simp] theorem storeMem_cr4 (s : State) (m : Memory) : ({ s with mem := m } : State).cr4 = s.cr4 := rfl
@[simp] theorem storeMem_xcr0 (s : State) (m : Memory) : ({ s with mem := m } : State).xcr0 = s.xcr0 := rfl
@[simp] theorem storeMem_efer (s : State) (m : Memory) : ({ s with mem := m } : State).efer = s.efer := rfl
@[simp] theorem storeMem_cpl (s : State) (m : Memory) : ({ s with mem := m } : State).cpl = s.cpl := rfl
@[simp] theorem storeMem_translation (s : State) (m : Memory) : ({ s with mem := m } : State).translation = s.translation := rfl
@[simp] theorem storeMem_devices (s : State) (m : Memory) : ({ s with mem := m } : State).devices = s.devices := rfl
@[simp] theorem storeMem_textBase (s : State) (m : Memory) : ({ s with mem := m } : State).textBase = s.textBase := rfl
@[simp] theorem storeMem_textLen (s : State) (m : Memory) : ({ s with mem := m } : State).textLen = s.textLen := rfl
@[simp] theorem storeMem_params (s : State) (m : Memory) : ({ s with mem := m } : State).params = s.params := rfl
@[simp] theorem storeMem_draws (s : State) (m : Memory) : ({ s with mem := m } : State).draws = s.draws := rfl

/-! ### takeException -/

@[simp] theorem takeException_pc (s : State) (e : Fault) : (takeException s e).pc = faultReturn e := rfl
@[simp] theorem takeException_cr2 (s : State) (e : Fault) :
    (takeException s e).cr2 = (excCr2 (faultKind e)).getD s.cr2 := rfl
@[simp] theorem takeException_draws (s : State) (e : Fault) : (takeException s e).draws = s.draws + 1 := rfl
@[simp] theorem takeException_zmm (s : State) (e : Fault) : (takeException s e).zmm = s.zmm := rfl
@[simp] theorem takeException_k (s : State) (e : Fault) : (takeException s e).k = s.k := rfl
@[simp] theorem takeException_mxcsr (s : State) (e : Fault) : (takeException s e).mxcsr = s.mxcsr := rfl
@[simp] theorem takeException_gpr (s : State) (e : Fault) : (takeException s e).gpr = s.gpr := rfl
@[simp] theorem takeException_segs (s : State) (e : Fault) : (takeException s e).segs = s.segs := rfl
@[simp] theorem takeException_csL (s : State) (e : Fault) : (takeException s e).csL = s.csL := rfl
@[simp] theorem takeException_csD (s : State) (e : Fault) : (takeException s e).csD = s.csD := rfl
@[simp] theorem takeException_eflags (s : State) (e : Fault) : (takeException s e).eflags = s.eflags := rfl
@[simp] theorem takeException_cr0 (s : State) (e : Fault) : (takeException s e).cr0 = s.cr0 := rfl
@[simp] theorem takeException_cr3 (s : State) (e : Fault) : (takeException s e).cr3 = s.cr3 := rfl
@[simp] theorem takeException_cr4 (s : State) (e : Fault) : (takeException s e).cr4 = s.cr4 := rfl
@[simp] theorem takeException_xcr0 (s : State) (e : Fault) : (takeException s e).xcr0 = s.xcr0 := rfl
@[simp] theorem takeException_efer (s : State) (e : Fault) : (takeException s e).efer = s.efer := rfl
@[simp] theorem takeException_cpl (s : State) (e : Fault) : (takeException s e).cpl = s.cpl := rfl
@[simp] theorem takeException_translation (s : State) (e : Fault) : (takeException s e).translation = s.translation := rfl
@[simp] theorem takeException_mem (s : State) (e : Fault) : (takeException s e).mem = s.mem := rfl
@[simp] theorem takeException_devices (s : State) (e : Fault) : (takeException s e).devices = s.devices := rfl
@[simp] theorem takeException_textBase (s : State) (e : Fault) : (takeException s e).textBase = s.textBase := rfl
@[simp] theorem takeException_textLen (s : State) (e : Fault) : (takeException s e).textLen = s.textLen := rfl
@[simp] theorem takeException_params (s : State) (e : Fault) : (takeException s e).params = s.params := rfl

/-! ### What the readings see -/

@[simp] theorem readVec_retire (s : State) (n : Nat) (i : BitVec 5) : readVec (retire s n) i = readVec s i := rfl
@[simp] theorem readVec_storeMem (s : State) (m : Memory) (i : BitVec 5) :
    readVec ({ s with mem := m } : State) i = readVec s i := rfl
@[simp] theorem modeOf_writeVec (s : State) (i : BitVec 5) (v : Vec) : modeOf (writeVec s i v) = modeOf s := rfl
@[simp] theorem modeOf_retire (s : State) (n : Nat) : modeOf (retire s n) = modeOf s := rfl
@[simp] theorem modeOf_storeMem (s : State) (m : Memory) : modeOf ({ s with mem := m } : State) = modeOf s := rfl
@[simp] theorem pcOffset_writeVec (s : State) (i : BitVec 5) (v : Vec) : pcOffset (writeVec s i v) = pcOffset s := rfl
@[simp] theorem pcOffset_storeMem (s : State) (m : Memory) : pcOffset ({ s with mem := m } : State) = pcOffset s := rfl
@[simp] theorem readMask_writeVec (s : State) (i : BitVec 5) (v : Vec) (j : BitVec 3) :
    readMask (writeVec s i v) j = readMask s j := rfl
@[simp] theorem readMask_retire (s : State) (n : Nat) (j : BitVec 3) : readMask (retire s n) j = readMask s j := rfl

/-! ### loadProgram -/

@[simp] theorem loadProgram_pc (s : State) (b : Addr) (l : List Byte) : (loadProgram s b l).pc = b := rfl
@[simp] theorem loadProgram_textBase (s : State) (b : Addr) (l : List Byte) : (loadProgram s b l).textBase = b := rfl
@[simp] theorem loadProgram_textLen (s : State) (b : Addr) (l : List Byte) : (loadProgram s b l).textLen = l.length := rfl
@[simp] theorem loadProgram_mem (s : State) (b : Addr) (l : List Byte) :
    (loadProgram s b l).mem = placeBytes s l b.toNat s.mem := rfl
@[simp] theorem loadProgram_zmm (s : State) (b : Addr) (l : List Byte) : (loadProgram s b l).zmm = s.zmm := rfl
@[simp] theorem loadProgram_params (s : State) (b : Addr) (l : List Byte) : (loadProgram s b l).params = s.params := rfl
@[simp] theorem modeOf_loadProgram (s : State) (b : Addr) (l : List Byte) : modeOf (loadProgram s b l) = modeOf s := rfl

/-- A loaded program is at its start (70_reset_and_hazards.md R214). -/
@[simp] theorem atStart_loadProgram (s : State) (b : Addr) (l : List Byte) : atStart (loadProgram s b l) = true := by
  simp [atStart]

/-- pc after `retire` fits the mode's width. -/
theorem pcFits_retire (s : State) (n : Nat) : pcFits (retire s n) := by
  have hpos : 0 < 2 ^ pcBits (modeOf s) := Nat.two_pow_pos _
  have hle : 2 ^ pcBits (modeOf s) ≤ 2 ^ 64 := Nat.pow_le_pow_right (by decide) (by cases modeOf s <;> decide)
  have hlt := Nat.mod_lt (pcOffset s + n) hpos
  simp only [pcFits, retire_pc, modeOf_retire, BitVec.toNat_ofNat]
  rwa [Nat.mod_eq_of_lt (Nat.lt_of_lt_of_le hlt hle)]

theorem sameControl_refl (s : State) : sameControl s s := rfl

theorem sameControl_trans {s t u : State} (h : sameControl s t) (g : sameControl t u) : sameControl s u := by
  simp only [sameControl] at h g ⊢
  rw [g, h]

theorem sameControl_writeVec (s : State) (i : BitVec 5) (v : Vec) : sameControl s (writeVec s i v) := rfl
theorem sameControl_retire (s : State) (n : Nat) : sameControl s (retire s n) := rfl
theorem sameControl_storeMem (s : State) (m : Memory) : sameControl s { s with mem := m } := rfl

end Sys2Proof.Machine
end

