-- ==== Sys2Proof/Laws/Vector.lean ====
section
/-! SUPPORT. Vector values bit by bit and element by element, masks and the offsets they select. -/

namespace Sys2Proof.Machine

theorem getLsbD_lowPart (n : Nat) (v : Vec) (i : Nat) :
    (lowPart n v).getLsbD i = (decide (i < n) && v.getLsbD i) := by
  simp only [lowPart, BitVec.getLsbD_setWidth]
  by_cases h : i < 512
  · simp [h]
  · simp [h, BitVec.getLsbD_of_ge v i (by omega)]

@[simp] theorem lowPart_lowPart (n : Nat) (v : Vec) : lowPart n (lowPart n v) = lowPart n v := by
  apply BitVec.eq_of_getLsbD_eq
  intro i _
  simp only [getLsbD_lowPart]
  by_cases h : i < n <;> simp [h]

@[simp] theorem lowPart_512 (v : Vec) : lowPart 512 v = v := by
  simp [lowPart]

theorem getLsbD_replaceLow (n : Nat) (old src : Vec) (i : Nat) (hi : i < 512) :
    (replaceLow n old src).getLsbD i = if i < n then src.getLsbD i else old.getLsbD i := by
  simp only [replaceLow, BitVec.getLsbD_or, BitVec.getLsbD_and, BitVec.getLsbD_not, getLsbD_lowPart,
    BitVec.getLsbD_setWidth, BitVec.getLsbD_allOnes]
  by_cases h : i < n <;> simp [h, hi]

theorem getLsbD_elemOf (v : Vec) (j b : Nat) : (elemOf v j).getLsbD b = (decide (b < 32) && v.getLsbD (32 * j + b)) := by
  simp [elemOf, BitVec.getLsbD_extractLsb']

theorem getLsbD_elemShift (x : Elem) (j i : Nat) (hj : 32 * j + 32 ≤ 512) :
    (x.setWidth 512 <<< (32 * j)).getLsbD i
      = (decide (32 * j ≤ i) && decide (i < 32 * j + 32) && x.getLsbD (i - 32 * j)) := by
  simp only [BitVec.getLsbD_shiftLeft, BitVec.getLsbD_setWidth]
  by_cases h1 : 32 * j ≤ i
  · by_cases h2 : i < 32 * j + 32
    · have h3 : i < 512 := by omega
      have h4 : i - 32 * j < 512 := by omega
      have h5 : ¬ i < 32 * j := by omega
      simp [h1, h2, h3, h4, h5]
    · have h4 : 32 ≤ i - 32 * j := by omega
      simp [h2, BitVec.getLsbD_of_ge _ _ h4]
  · have h5 : i < 32 * j := by omega
    simp [h1, h5]

/-- Every bit of an assembled value is a bit of one element. -/
theorem getLsbD_ofElems (n : Nat) (f : Nat → Elem) (hn : n ≤ 16) (i : Nat) :
    (ofElems n f).getLsbD i = (decide (i < 32 * n) && (f (i / 32)).getLsbD (i % 32)) := by
  induction n with
  | zero => simp [ofElems]
  | succ n ih =>
    simp only [ofElems, BitVec.getLsbD_or, ih (by omega), getLsbD_elemShift _ _ _ (by omega : 32 * n + 32 ≤ 512)]
    by_cases h1 : i < 32 * n
    · have h2 : ¬ 32 * n ≤ i := by omega
      have h3 : i < 32 * (n + 1) := by omega
      simp [h1, h2, h3]
    · by_cases h2 : i < 32 * n + 32
      · have h3 : 32 * n ≤ i := by omega
        have h4 : i / 32 = n := by omega
        have h5 : i % 32 = i - 32 * n := by omega
        have h6 : i < 32 * (n + 1) := by omega
        simp [h1, h2, h3, h4, h5, h6]
      · have h6 : ¬ i < 32 * (n + 1) := by omega
        simp [h1, h2, h6]

theorem elemOf_ofElems {n : Nat} (f : Nat → Elem) (hn : n ≤ 16) {j : Nat} (hj : j < n) : elemOf (ofElems n f) j = f j := by
  apply BitVec.eq_of_getLsbD_eq
  intro b hb
  rw [getLsbD_elemOf, getLsbD_ofElems n f hn]
  have h1 : 32 * j + b < 32 * n := by omega
  have h2 : (32 * j + b) / 32 = j := by omega
  have h3 : (32 * j + b) % 32 = b := by omega
  simp [hb, h1, h2, h3]

theorem elems_le (vl : VecLen) : vl.elems ≤ 16 := by cases vl <;> decide
theorem bits_le (vl : VecLen) : vl.bits ≤ 512 := by cases vl <;> decide
theorem bits_eq (vl : VecLen) : vl.bits = 32 * vl.elems := by cases vl <;> rfl
theorem bytes_eq (vl : VecLen) : vl.bytes = 4 * vl.elems := by cases vl <;> rfl

/-- `MaskedRegResult`, element by element (42_vmovups_evex.md R150). -/
theorem elemOf_maskedRegResult (old src : Vec) (m : BitVec 16) (z : Bool) (vl : VecLen) {j : Nat} (hj : j < vl.elems) :
    elemOf (maskedRegResult old src m z vl) j
      = if m.getLsbD j then elemOf src j else if z then 0#32 else elemOf old j :=
  elemOf_ofElems _ (elems_le vl) hj

/-- `MaskedRegResult` is zero above the vector length (42_vmovups_evex.md R150). -/
theorem getLsbD_maskedRegResult_ge (old src : Vec) (m : BitVec 16) (z : Bool) (vl : VecLen) {i : Nat} (hi : vl.bits ≤ i) :
    (maskedRegResult old src m z vl).getLsbD i = false := by
  rw [maskedRegResult, getLsbD_ofElems _ _ (elems_le vl)]
  have : ¬ i < 32 * vl.elems := by rw [← bits_eq]; omega
  simp [this]

theorem getLsbD_fullMask (vl : VecLen) (j : Nat) : (fullMask vl).getLsbD j = decide (j < vl.elems) := by
  simp only [fullMask, BitVec.getLsbD_setWidth, BitVec.getLsbD_allOnes]
  have := elems_le vl
  by_cases h : j < vl.elems
  · have : j < 16 := by omega
    simp [h, this]
  · simp [h]

/-- The effective mask, bit by bit (42_vmovups_evex.md R152). -/
theorem getLsbD_effectiveMask (s : State) (aaa : BitVec 3) (vl : VecLen) (j : Nat) :
    (effectiveMask s aaa vl).getLsbD j = (decide (j < vl.elems) && (aaa == 0#3 || (readMask s aaa).getLsbD j)) := by
  unfold effectiveMask
  have := elems_le vl
  by_cases ha : aaa = 0#3
  · simp [ha, getLsbD_fullMask]
  · simp only [ha, if_false, BitVec.getLsbD_and, BitVec.getLsbD_setWidth, getLsbD_fullMask]
    by_cases h : j < vl.elems
    · have : j < 16 := by omega
      simp [h, this, ha]
    · simp [h]

/-- An offset is accessed when it lies in the operand and its element is selected (20_memory.md R57, R66). -/
theorem mem_maskedOffsets (vl : VecLen) (m : BitVec 16) (k : Nat) :
    k ∈ maskedOffsets vl m ↔ k < vl.bytes ∧ m.getLsbD (k / 4) = true := by
  simp [maskedOffsets]

theorem maskedOffsets_pairwise (vl : VecLen) (m : BitVec 16) : (maskedOffsets vl m).Pairwise (· < ·) :=
  List.Pairwise.filter _ List.pairwise_lt_range

theorem maskedOffsets_lt {vl : VecLen} {m : BitVec 16} {k : Nat} (hk : k ∈ maskedOffsets vl m) : k < 64 := by
  have := ((mem_maskedOffsets vl m k).1 hk).1
  have hb : vl.bytes ≤ 64 := by cases vl <;> decide
  omega

/-- All offsets of the operand are accessed when every element is selected. -/
theorem mem_maskedOffsets_full (vl : VecLen) (k : Nat) : k ∈ maskedOffsets vl (fullMask vl) ↔ k < vl.bytes := by
  rw [mem_maskedOffsets, getLsbD_fullMask]
  have := bytes_eq vl
  constructor
  · exact fun h => h.1
  · intro h
    exact ⟨h, by simp; omega⟩

/-- A vector value's bytes determine its bits. -/
theorem getLsbD_of_byteOf (v : Vec) (i : Nat) : v.getLsbD i = (byteOf v (i / 8)).getLsbD (i % 8) := by
  rw [byteOf, BitVec.getLsbD_extractLsb']
  have h1 : i % 8 < 8 := Nat.mod_lt _ (by decide)
  have h2 : 8 * (i / 8) + i % 8 = i := by omega
  simp [h1, h2]

end Sys2Proof.Machine
end

