-- ==== Sys2Proof/Laws/Ops.lean ====
section
/-! SUPPORT. What each shared operation can answer, said once: the checks, the segment check, an access, the move. -/

namespace Sys2Proof.Machine

/-! ### andThen and raise -/

@[simp] theorem andThen_next {α β : Type} (a : α) (f : α → Result β) : andThen (.next a) f = f a := rfl
@[simp] theorem andThen_fault {α β : Type} (e : Fault) (f : α → Result β) : andThen (.fault e) f = .fault e := rfl
@[simp] theorem andThen_refused {α β : Type} (e : Refusal) (f : α → Result β) : andThen (.refused e) f = .refused e := rfl

theorem andThen_eq_next {α β : Type} {r : Result α} {f : α → Result β} {b : β} :
    andThen r f = .next b ↔ ∃ a, r = .next a ∧ f a = .next b := by
  cases r <;> simp [andThen]

theorem andThen_eq_fault {α β : Type} {r : Result α} {f : α → Result β} {e : Fault} :
    andThen r f = .fault e ↔ r = .fault e ∨ ∃ a, r = .next a ∧ f a = .fault e := by
  cases r <;> simp [andThen]

theorem andThen_eq_refused {α β : Type} {r : Result α} {f : α → Result β} {e : Refusal} :
    andThen r f = .refused e ↔ r = .refused e ∨ ∃ a, r = .next a ∧ f a = .refused e := by
  cases r <;> simp [andThen]

theorem raise_ne_next {α : Type} (k : ExcKind) (s : State) (a : α) : raise k s ≠ .next a := by simp [raise]

theorem raise_eq_fault {α : Type} {k : ExcKind} {s : State} {e : Fault} :
    (raise k s : Result α) = .fault e ↔ e = .exception k s.pc := by
  simp [raise, eq_comm]

/-! ### The checks before the effect -/

/-- The checks pass exactly when none of 60_exceptions.md R191 steps 2 to 4 applies and nothing is refused. -/
theorem entryChecks_eq_next {s : State} {n : Nat} {ud : Bool} {rf : Option Refusal} :
    entryChecks s n ud rf = .next () ↔ n ≤ 15 ∧ ud = false ∧ rf = none ∧ cr0Ts s = false := by
  unfold entryChecks
  by_cases h : 15 < n
  · simp [h, raise_ne_next, Nat.not_le.2 h]
  · cases ud <;> cases rf <;> cases ht : cr0Ts s <;> simp [h, raise_ne_next, Nat.le_of_not_lt h]

/-- What the checks can raise. -/
theorem entryChecks_eq_fault {s : State} {n : Nat} {ud : Bool} {rf : Option Refusal} {e : Fault}
    (h : entryChecks s n ud rf = .fault e) :
    (15 < n ∧ e = .exception .generalProtection s.pc)
      ∨ (n ≤ 15 ∧ ud = true ∧ e = .exception .invalidOpcode s.pc)
      ∨ (n ≤ 15 ∧ ud = false ∧ rf = none ∧ cr0Ts s = true ∧ e = .exception .deviceNotAvailable s.pc) := by
  unfold entryChecks at h
  split at h
  · rename_i hn; exact .inl ⟨hn, raise_eq_fault.1 h⟩
  · rename_i hn
    have hn := Nat.le_of_not_lt hn
    split at h
    · rename_i hu; exact .inr (.inl ⟨hn, hu, raise_eq_fault.1 h⟩)
    · rename_i hu
      have hu : ud = false := by simpa using hu
      split at h
      · cases h
      · split at h
        · rename_i ht; exact .inr (.inr ⟨hn, hu, rfl, ht, raise_eq_fault.1 h⟩)
        · cases h

/-! ### The segment check -/

/-- A segment check raises only the segment's violation. -/
theorem segCheck_eq_fault {s : State} {a : Access} {e : Fault} (h : segCheck s a = .fault e) :
    e = .exception (segViolation a) s.pc := by
  unfold segCheck at h
  split at h <;> (try split at h) <;> (try split at h) <;>
    first
      | exact raise_eq_fault.1 h
      | cases h

/-- In `Mode64` the check is the canonical check of the accessed bytes and nothing else (20_memory.md R61, R62). -/
theorem segCheck_mode64 {s : State} {a : Access} (hm : modeOf s = .mode64) :
    segCheck s a = if a.offs.all (fun k => canonical s.params.laBits (linear64 s a + k)) then .next (linear64 s a)
      else raise (segViolation a) s := by
  simp [segCheck, hm]

/-! ### An access -/

theorem translate_near_ne {s : State} {k : AccessKind} {x y p q : Nat} (hx : translate s x k = .ok p)
    (hy : translate s y k = .ok q) (hlt : x < y) (hd : y < x + 4096) : p ≠ q := by
  have fin : ∀ {e f : PageEntry}, physical e x = p → physical f y = q → p ≠ q := by
    intro e f he hf
    simp only [physical] at he hf
    omega
  unfold translate at hx hy
  cases ht : s.translation with
  | identity => simp only [ht, Except.ok.injEq] at hx hy; omega
  | pages l =>
    simp only [ht] at hx hy
    by_cases hr : (modeOf s == .real) = true
    · simp only [hr, if_true, Except.ok.injEq] at hx hy; omega
    · simp only [hr, Bool.false_eq_true, if_false] at hx hy
      split at hx
      · cases hx
      · split at hx
        · cases hx
        · split at hy
          · cases hy
          · split at hy
            · cases hy
            · simp only [Except.ok.injEq] at hx hy
              exact fin hx hy

/-- Once no accessed byte faults, each accessed byte has its physical address. -/
theorem accessedBytes_eq_map {s : State} {a : Access} {la : Nat} {pa : Nat → Nat}
    (h : ∀ k ∈ a.offs, translate s (la + k) (accessKind a) = .ok (pa k)) :
    accessedBytes s a la = a.offs.map fun k => (k, pa k) := by
  unfold accessedBytes
  generalize a.offs = l at h
  induction l with
  | nil => rfl
  | cons k t ih =>
    rw [List.filterMap_cons, List.map_cons, ih fun j hj => h j (List.mem_cons_of_mem _ hj)]
    simp [h k (List.mem_cons_self ..)]

theorem pageFaults_eq_nil_iff {s : State} {a : Access} {la : Nat} :
    pageFaults s a la = [] ↔ ∀ k ∈ a.offs, ∃ p, translate s (la + k) (accessKind a) = .ok p := by
  unfold pageFaults
  rw [List.filterMap_eq_nil_iff]
  refine forall_congr' fun k => forall_congr' fun _ => ?_
  cases translate s (la + k) (accessKind a) <;> simp

/-- The physical address of an accessed byte, where there is one. -/
theorem mem_accessedBytes {s : State} {a : Access} {la : Nat} {c : Nat × Nat} :
    c ∈ accessedBytes s a la ↔ c.1 ∈ a.offs ∧ translate s (la + c.1) (accessKind a) = .ok c.2 := by
  unfold accessedBytes
  rw [List.mem_filterMap]
  constructor
  · rintro ⟨k, hk, h⟩
    cases ht : translate s (la + k) (accessKind a) with
    | ok p => simp only [ht, Option.some.injEq] at h; subst h; exact ⟨hk, ht⟩
    | error x => simp [ht] at h
  · rintro ⟨hk, h⟩
    exact ⟨c.1, hk, by simp [h]⟩

theorem mem_pageFaults {s : State} {a : Access} {la : Nat} {c : Nat × BitVec 32} (h : c ∈ pageFaults s a la) :
    ∃ k ∈ a.offs, c.1 = la + k ∧ translate s c.1 (accessKind a) = .error c.2 := by
  unfold pageFaults at h
  obtain ⟨k, hk, h⟩ := List.mem_filterMap.1 h
  cases ht : translate s (la + k) (accessKind a) with
  | ok p => simp [ht] at h
  | error x => simp only [ht, Option.some.injEq] at h; subst h; exact ⟨k, hk, rfl, ht⟩

theorem touch_eq_next {s : State} {k : AccessKind} {l l' : List (Nat × Nat)} (h : touch s k l = .next l') :
    l' = l ∧ (∀ c ∈ l, inDevice s c.2 = false) ∧ (k = .write → ∀ c ∈ l, inText s c.2 = false) := by
  unfold touch at h
  split at h
  · cases h
  · split at h
    · cases h
    · rename_i h1 h2
      refine ⟨by simpa using h.symm, by simpa using h1, fun hk => ?_⟩
      subst hk
      simpa using h2

theorem touch_ne_fault {s : State} {k : AccessKind} {l : List (Nat × Nat)} {e : Fault} : touch s k l ≠ .fault e := by
  unfold touch
  split
  · simp
  · split <;> simp

/-- The fault that is reported is one of the faulting bytes'. -/
theorem chosenFault_mem (s : State) (f : Nat × BitVec 32) (l : List (Nat × BitVec 32)) (hf : f ∈ l) :
    ∃ c ∈ l, chosenFault s f l = .pageFault c.2 (BitVec.ofNat 64 c.1) := by
  unfold chosenFault
  have hl : 0 < l.length := List.length_pos_of_mem hf
  have hlt := Nat.mod_lt (Config.pfChoice s.draws) hl
  refine ⟨l[Config.pfChoice s.draws % l.length], List.getElem_mem _, ?_⟩
  simp [List.getElem?_eq_getElem hlt]

/-- All an access that is granted can be: nothing is accessed, or every accessed byte passed every check. -/
theorem resolve_eq_next {s : State} {a : Access} {l : List (Nat × Nat)} (h : resolve s a = .next l) :
    (a.offs = [] ∧ l = [])
      ∨ ∃ la, segCheck s a = .next la ∧ pageFaults s a la = [] ∧ alignmentFault s a la = false
          ∧ l = accessedBytes s a la ∧ (∀ c ∈ l, inDevice s c.2 = false)
          ∧ (accessKind a = .write → ∀ c ∈ l, inText s c.2 = false) := by
  unfold resolve at h
  split at h
  · rename_i he
    exact .inl ⟨by simpa using he, by simpa using h.symm⟩
  · obtain ⟨la, hs, h⟩ := andThen_eq_next.1 h
    refine .inr ⟨la, hs, ?_⟩
    split at h
    · rename_i hp
      split at h
      · exact absurd h (raise_ne_next _ _ _)
      · rename_i ha
        obtain ⟨rfl, hd, ht⟩ := touch_eq_next h
        exact ⟨hp, by simpa using ha, rfl, hd, ht⟩
    · split at h <;> exact absurd h (raise_ne_next _ _ _)

/-- All an access can raise (60_exceptions.md R191 steps 5 and 6). -/
theorem resolve_eq_fault {s : State} {a : Access} {e : Fault} (h : resolve s a = .fault e) :
    a.offs ≠ []
      ∧ (e = .exception (segViolation a) s.pc ∧ segCheck s a = .fault e
        ∨ ∃ la, segCheck s a = .next la
            ∧ (alignmentFault s a la = true ∧ e = .exception .alignmentCheck s.pc
              ∨ ∃ c ∈ pageFaults s a la, e = .exception (.pageFault c.2 (BitVec.ofNat 64 c.1)) s.pc)) := by
  unfold resolve at h
  split at h
  · cases h
  · rename_i he
    refine ⟨by simpa using he, ?_⟩
    rcases andThen_eq_fault.1 h with hs | ⟨la, hs, h⟩
    · exact .inl ⟨segCheck_eq_fault hs, hs⟩
    · refine .inr ⟨la, hs, ?_⟩
      split at h
      · split at h
        · rename_i ha; exact .inl ⟨ha, raise_eq_fault.1 h⟩
        · exact absurd h touch_ne_fault
      · rename_i f t hp
        split at h
        · rename_i ha
          exact .inl ⟨by simp only [Bool.and_eq_true] at ha; exact ha.1, raise_eq_fault.1 h⟩
        · obtain ⟨c, hc, hcf⟩ := chosenFault_mem s f (f :: t) (List.mem_cons_self ..)
          exact .inr ⟨c, by rw [hp]; exact hc, by rw [← hcf]; exact raise_eq_fault.1 h⟩

theorem alignmentFault_eq_false {s : State} {a : Access} {la : Nat} (h : noAlignmentFault s a la) :
    alignmentFault s a la = false := by
  unfold alignmentFault
  rcases h with h | h | h <;> simp [h]

/-- An operand whose accessed bytes are all accessible is granted (70_reset_and_hazards.md R212). -/
theorem resolve_of_accessible {s : State} {a : Access} {pa : Nat → Nat} (h : accessible s a pa) :
    resolve s a = .next (a.offs.map fun k => (k, pa k)) := by
  unfold resolve
  split
  · rename_i he
    have : a.offs = [] := by simpa using he
    simp [this]
  · rename_i he
    have hne : a.offs ≠ [] := by simpa using he
    obtain ⟨la, hs, hal, hk⟩ := h.resolve_left hne
    rw [hs, andThen_next]
    have hp : pageFaults s a la = [] := pageFaults_eq_nil_iff.2 fun k hk' => ⟨pa k, (hk k hk').1⟩
    rw [hp]
    simp only [alignmentFault_eq_false hal, Bool.false_eq_true, if_false, accessedBytes_eq_map fun k hk' => (hk k hk').1]
    unfold touch
    have h1 : ((a.offs.map fun k => (k, pa k)).any fun c => inDevice s c.2) = false := by
      simp only [List.any_map, List.any_eq_false]
      intro k hk'
      simp [(hk k hk').2.1]
    have h2 : (accessKind a == .write && (a.offs.map fun k => (k, pa k)).any fun c => inText s c.2) = false := by
      cases hd : a.dir
      · simp [accessKind, hd]
      · simp only [accessKind, hd, List.any_map, Bool.and_eq_false_iff, List.any_eq_false]
        right
        intro k hk'
        simp [(hk k hk').2.2 hd]
    simp only [h1, h2, Bool.false_eq_true, if_false]

/-- The physical addresses of the bytes of one operand are all different. -/
theorem accessible_addresses_ne {s : State} {a : Access} {pa : Nat → Nat} (h : accessible s a pa)
    (hb : ∀ k ∈ a.offs, k < 64) {j k : Nat} (hj : j ∈ a.offs) (hk : k ∈ a.offs) (hne : j ≠ k) : pa j ≠ pa k := by
  obtain ⟨la, _, _, hall⟩ := h.resolve_left (List.ne_nil_of_mem hj)
  have tj := (hall j hj).1
  have tk := (hall k hk).1
  have bj := hb j hj
  have bk := hb k hk
  rcases Nat.lt_or_gt_of_ne hne with hlt | hgt
  · exact translate_near_ne tj tk (by omega) (by omega)
  · exact (translate_near_ne tk tj (by omega) (by omega)).symm

/-! ### The move -/

/-- A move that completes passed its checks and had its one effect. -/
theorem execMove_eq_next {c : Move} {ud : Bool} {rf : Option Refusal} {s t : State}
    (h : execMove c ud rf s = .next t) :
    entryChecks s c.ilen ud rf = .next ()
      ∧ ((∃ r, c.dir = .load ∧ c.modrm.rm = .reg r ∧ t = moveToReg s c (moveReg c) (readVec s (moveRmReg c r)))
        ∨ (∃ o l, c.dir = .load ∧ c.modrm.rm = .mem o ∧ resolve s (moveAccess s c o) = .next l
            ∧ t = moveToReg s c (moveReg c) (loadBytes s.mem l))
        ∨ (∃ r, c.dir = .store ∧ c.modrm.rm = .reg r ∧ t = moveToReg s c (moveRmReg c r) (readVec s (moveReg c)))
        ∨ (∃ o l, c.dir = .store ∧ c.modrm.rm = .mem o ∧ resolve s (moveAccess s c o) = .next l
            ∧ t = retire { s with mem := storeBytes (readVec s (moveReg c)) l s.mem } c.ilen)) := by
  unfold execMove at h
  obtain ⟨_, he, h⟩ := andThen_eq_next.1 h
  refine ⟨he, ?_⟩
  split at h
  · rename_i r hd hr
    exact .inl ⟨r, hd, hr, by simpa using h.symm⟩
  · rename_i o hd hr
    obtain ⟨v, hv, h⟩ := andThen_eq_next.1 h
    obtain ⟨l, hl, hv⟩ := andThen_eq_next.1 hv
    simp only [Host.Outcome.next.injEq] at hv h
    exact .inr (.inl ⟨o, l, hd, hr, hl, by rw [← h, ← hv]⟩)
  · rename_i r hd hr
    exact .inr (.inr (.inl ⟨r, hd, hr, by simpa using h.symm⟩))
  · rename_i o hd hr
    obtain ⟨v, hv, h⟩ := andThen_eq_next.1 h
    obtain ⟨l, hl, hv⟩ := andThen_eq_next.1 hv
    simp only [Host.Outcome.next.injEq] at hv h
    exact .inr (.inr (.inr ⟨o, l, hd, hr, hl, by rw [← h, ← hv]⟩))

/-- A move that faults failed a check or its access did. -/
theorem execMove_eq_fault {c : Move} {ud : Bool} {rf : Option Refusal} {s : State} {e : Fault}
    (h : execMove c ud rf s = .fault e) :
    entryChecks s c.ilen ud rf = .fault e
      ∨ (entryChecks s c.ilen ud rf = .next ()
          ∧ ∃ o, c.modrm.rm = .mem o ∧ resolve s (moveAccess s c o) = .fault e) := by
  unfold execMove at h
  rcases andThen_eq_fault.1 h with h | ⟨_, he, h⟩
  · exact .inl h
  · refine .inr ⟨he, ?_⟩
    split at h
    · cases h
    · rename_i o _ hr
      rcases andThen_eq_fault.1 h with h | ⟨_, _, h⟩
      · rcases andThen_eq_fault.1 h with h | ⟨_, _, h⟩
        · exact ⟨o, hr, h⟩
        · cases h
      · cases h
    · cases h
    · rename_i o _ hr
      rcases andThen_eq_fault.1 h with h | ⟨_, _, h⟩
      · rcases andThen_eq_fault.1 h with h | ⟨_, _, h⟩
        · exact ⟨o, hr, h⟩
        · cases h
      · cases h

theorem execMove_load_reg {c : Move} {ud : Bool} {rf : Option Refusal} {s : State} {r : BitVec 3}
    (he : entryChecks s c.ilen ud rf = .next ()) (hd : c.dir = .load) (hr : c.modrm.rm = .reg r) :
    execMove c ud rf s = .next (moveToReg s c (moveReg c) (readVec s (moveRmReg c r))) := by
  simp [execMove, he, hd, hr]

theorem execMove_store_reg {c : Move} {ud : Bool} {rf : Option Refusal} {s : State} {r : BitVec 3}
    (he : entryChecks s c.ilen ud rf = .next ()) (hd : c.dir = .store) (hr : c.modrm.rm = .reg r) :
    execMove c ud rf s = .next (moveToReg s c (moveRmReg c r) (readVec s (moveReg c))) := by
  simp [execMove, he, hd, hr]

theorem execMove_load_mem {c : Move} {ud : Bool} {rf : Option Refusal} {s : State} {o : MemOperand}
    {l : List (Nat × Nat)} (he : entryChecks s c.ilen ud rf = .next ()) (hd : c.dir = .load) (hr : c.modrm.rm = .mem o)
    (hl : resolve s (moveAccess s c o) = .next l) :
    execMove c ud rf s = .next (moveToReg s c (moveReg c) (loadBytes s.mem l)) := by
  simp [execMove, he, hd, hr, memRead, hl]

theorem execMove_store_mem {c : Move} {ud : Bool} {rf : Option Refusal} {s : State} {o : MemOperand}
    {l : List (Nat × Nat)} (he : entryChecks s c.ilen ud rf = .next ()) (hd : c.dir = .store) (hr : c.modrm.rm = .mem o)
    (hl : resolve s (moveAccess s c o) = .next l) :
    execMove c ud rf s = .next (retire { s with mem := storeBytes (readVec s (moveReg c)) l s.mem } c.ilen) := by
  simp [execMove, he, hd, hr, memWrite, hl]

/-! ### A register destination -/

@[simp] theorem readVec_moveToReg_same (s : State) (c : Move) (d : BitVec 5) (src : Vec) :
    readVec (moveToReg s c d src) d = lowPart s.params.maxvl.bits (moveResult c (readVec s d) src) := by
  simp [moveToReg]

theorem readVec_moveToReg_other (s : State) (c : Move) {d r : BitVec 5} (src : Vec) (h : r ≠ d) :
    readVec (moveToReg s c d src) r = readVec s r := by
  simp [moveToReg, readVec_writeVec_other s _ h]

/-- A register destination changes that register, pc and the counter. -/
theorem onlyRegChanged_moveToReg (s : State) (c : Move) (d : BitVec 5) (src : Vec) :
    onlyRegChanged s (moveToReg s c d src) d c.ilen :=
  ⟨rfl, rfl, fun _ h => readVec_moveToReg_other s c src h⟩

theorem sameControl_moveToReg (s : State) (c : Move) (d : BitVec 5) (src : Vec) : sameControl s (moveToReg s c d src) := rfl

/-! ### All instructions -/

/-- Every meaning is the one move with the instruction's own fields. -/
theorem exec_eq_execMove (i : Instr) (s : State) :
    exec i s = execMove (moveOf i s) (undefinedOf i s) (refusesOf i s) s := by
  cases i <;> rfl

end Sys2Proof.Machine
end

