-- ==== Sys2Proof/Laws/Enabled.lean ====
section
/-! SUPPORT. When the checks before the effect pass: a form that the control state and its own fields make usable, with CR0.TS = 0,
is not too long, not undefined and not refused (70_reset_and_hazards.md R212). -/

namespace Sys2Proof.Machine

theorem modrmLength_le (m : ModRM) : modrmLength m ≤ 6 := by
  obtain ⟨reg, rm⟩ := m
  cases rm with
  | reg r => simp [modrmLength]
  | mem o =>
    have : dispLength o.disp ≤ 4 := by cases o.disp <;> simp [dispLength]
    simp only [modrmLength]
    split <;> omega

theorem modrmLength_pos (m : ModRM) : 1 ≤ modrmLength m := by
  obtain ⟨reg, rm⟩ := m
  cases rm with
  | reg r => simp [modrmLength]
  | mem o => simp only [modrmLength]; omega

theorem rexLength_le (rex : Option Rex) : rexLength rex ≤ 1 := by
  cases rex <;> simp [rexLength]

theorem prefixesLength_le (p : Prefixes) : prefixesLength p ≤ 5 := by
  obtain ⟨a, b, c, d, e⟩ := p
  cases a <;> cases b <;> cases c <;> cases d <;> cases e <;> simp [prefixesLength]

theorem prefixesLength_le_of_lock {p : Prefixes} (h : p.lock = false) : prefixesLength p ≤ 4 := by
  obtain ⟨a, b, c, d, e⟩ := p
  cases b <;> cases c <;> cases d <;> cases e <;> simp_all [prefixesLength]

theorem prefixesLength_le_of_plain {p : Prefixes} {rex : Option Rex} (h : plainPrefixes p rex) : prefixesLength p ≤ 2 := by
  obtain ⟨a, b, c, d, e⟩ := p
  obtain ⟨h1, h2, h3, -⟩ := h
  cases c <;> cases e <;> simp_all [prefixesLength]

theorem forbiddenPrefix_of_plain {p : Prefixes} {rex : Option Rex} (h : plainPrefixes p rex) :
    forbiddenPrefix p rex = false := by
  obtain ⟨h1, h2, h3, h4⟩ := h
  simp [forbiddenPrefix, h1, h2, h3, h4]

theorem realOrV86_eq_false {s : State} (h1 : modeOf s ≠ .real) (h2 : modeOf s ≠ .v86) : realOrV86 s = false := by
  simp [realOrV86, h1, h2]

/-- A usable Legacy SSE form passes its checks. -/
theorem entryChecks_legacy {s : State} {p : Prefixes} {rex : Option Rex} {m : ModRM} (hu : legacyUsable s)
    (hl : p.lock = false) (ht : cr0Ts s = false) :
    entryChecks s (legacyIlen p rex m) (legacyUndefined s p) none = .next () := by
  refine entryChecks_eq_next.2 ⟨?_, ?_, rfl, ht⟩
  · have := prefixesLength_le_of_lock hl
    have := rexLength_le rex
    have := modrmLength_le m
    simp only [legacyIlen, ilenOf]
    omega
  · simp [legacyUndefined, hu.1, hu.2.1, hu.2.2, hl]

/-- With consistent parameters the flags alone decide whether a form is wide enough (00_scope.md R7). -/
theorem bits_le_maxvl_of_consistent {q : Params} {vl : VecLen} (h : q.consistent = true)
    (hf : q.hasAvx512f = true ∨ (vl ≠ .l512 ∧ q.hasAvx = true) ∨ vl = .l128) : vl.bits ≤ q.maxvl.bits := by
  have h' : q.maxvl = q.tiedMaxvl := by simpa [Params.consistent] using h
  rw [h', Params.tiedMaxvl]
  cases vl <;> (repeat' split) <;> simp_all [VecLen.bits]

theorem withinMaxvl_of_le {s : State} {vl : VecLen} (h : vl.bits ≤ s.params.maxvl.bits) : withinMaxvl s vl = true := by
  simpa [withinMaxvl] using h

theorem vexUndefined_of_usable {s : State} {vl : VecLen} {p : Prefixes} {rex : Option Rex} {vvvv : BitVec 4}
    (hu : vexUsable s) (hm : vl.bits ≤ s.params.maxvl.bits) (hp : plainPrefixes p rex) (hv : vvvv = 15#4) :
    vexUndefined s vl p rex vvvv = false := by
  simp [vexUndefined, hv, hu.1, hu.2.1, hu.2.2.1, withinMaxvl_of_le hm, forbiddenPrefix_of_plain hp,
    realOrV86_eq_false hu.2.2.2.1 hu.2.2.2.2]

/-- A usable two-byte VEX form passes its checks. -/
theorem entryChecks_vex2 {s : State} {vl : VecLen} {p : Prefixes} {rex : Option Rex} {v : Vex2} {m : ModRM}
    (hu : vex2Usable s p rex v) (hm : vl.bits ≤ s.params.maxvl.bits) (ht : cr0Ts s = false) :
    entryChecks s (vex2Ilen p rex m) (vexUndefined s vl p rex v.vvvv) none = .next () := by
  refine entryChecks_eq_next.2 ⟨?_, vexUndefined_of_usable hu.1 hm hu.2.1 hu.2.2, rfl, ht⟩
  have := prefixesLength_le_of_plain hu.2.1
  have := rexLength_le rex
  have := modrmLength_le m
  simp only [vex2Ilen, ilenOf]
  omega

theorem vex3Refuses_of_ok {s : State} {v : Vex3} (h : vex3BitsOk s v) : vex3Refuses s v = none := by
  unfold vex3Refuses
  rcases h with h | h <;> simp [h]

/-- A usable three-byte VEX form passes its checks. -/
theorem entryChecks_vex3 {s : State} {vl : VecLen} {p : Prefixes} {rex : Option Rex} {v : Vex3} {m : ModRM}
    (hu : vex3Usable s p rex v) (hm : vl.bits ≤ s.params.maxvl.bits) (ht : cr0Ts s = false) :
    entryChecks s (vex3Ilen p rex m) (vexUndefined s vl p rex v.vvvv) (vex3Refuses s v) = .next () := by
  refine entryChecks_eq_next.2 ⟨?_, vexUndefined_of_usable hu.1 hm hu.2.1 hu.2.2.1, vex3Refuses_of_ok hu.2.2.2, ht⟩
  have := prefixesLength_le_of_plain hu.2.1
  have := rexLength_le rex
  have := modrmLength_le m
  simp only [vex3Ilen, ilenOf]
  omega

theorem evexReserved_of_ok {d : Direction} {v : Evex} {m : ModRM} (h : evexFieldsOk d v m) : evexReserved d v m = false := by
  obtain ⟨-, h2, h3, h4, h5, -, h7⟩ := h
  simp only [evexReserved, h2, h3, h4, h5]
  cases hz : v.z
  · simp
  · obtain ⟨ha, hd⟩ := h7 hz
    rcases hd with hd | hd <;> simp [ha, hd]

theorem evexUndefined_of_usable {s : State} {vl : VecLen} {d : Direction} {p : Prefixes} {rex : Option Rex} {v : Evex}
    {m : ModRM} (hu : evexUsable s vl) (hm : vl.bits ≤ s.params.maxvl.bits) (hp : plainPrefixes p rex)
    (hf : evexFieldsOk d v m) : evexUndefined s vl d p rex v m = false := by
  obtain ⟨h1, h2, h3, h4, h5, h6, h7⟩ := hu
  have hfl : evexFlags s vl = true := by rcases h2 with h2 | h2 <;> simp [evexFlags, h1, h2]
  simp [evexUndefined, hf.1, hfl, withinMaxvl_of_le hm, h3, h4, h5, forbiddenPrefix_of_plain hp, realOrV86_eq_false h6 h7,
    evexReserved_of_ok hf, hf.2.2.2.2.2.1]

theorem evexRefuses_of_ok {s : State} {p : Prefixes} {v : Evex} {m : ModRM} (hb : evexBitsOk s v) (hv : v.vpInv = true)
    (ha : evexAddressOk s p m) : evexRefuses s p v m = none := by
  have h1 : (modeOf s != .mode64 && (!v.bInv || !v.rpInv || !v.vpInv)) = false := by
    rcases hb with h | ⟨h, h'⟩
    · simp [h]
    · simp [h, h', hv]
  have h2 : (isMemRm m && addrSize (modeOf s) p.addrSize == .a16) = false := by
    cases hm : isMemRm m
    · rfl
    · simpa using ha hm
  simp [evexRefuses, h1, h2]

/-- A usable EVEX form passes its checks. -/
theorem entryChecks_evex {s : State} {vl : VecLen} {d : Direction} {p : Prefixes} {rex : Option Rex} {v : Evex} {m : ModRM}
    (hu : evexEncUsable s vl d p rex v m) (hm : vl.bits ≤ s.params.maxvl.bits) (ht : cr0Ts s = false) :
    entryChecks s (evexIlen p rex m) (evexUndefined s vl d p rex v m) (evexRefuses s p v m) = .next () := by
  obtain ⟨h1, h2, h3, h4, h5⟩ := hu
  refine entryChecks_eq_next.2
    ⟨?_, evexUndefined_of_usable h1 hm h2 h3, evexRefuses_of_ok h4 h3.2.2.2.2.2.1 h5, ht⟩
  have := prefixesLength_le_of_plain h2
  have := rexLength_le rex
  have := modrmLength_le m
  have hr : rexLength rex = 0 := by simp [h2.2.2.2, rexLength]
  simp only [evexIlen, ilenOf]
  omega

end Sys2Proof.Machine
end

