-- ==== Sys2Proof/Laws/Move.lean ====
section
/-! SUPPORT. The move once its checks have passed: it completes, and what its destination holds (10_state.md R22;
20_memory.md R52, R57; 42_vmovups_evex.md R150). -/

namespace Sys2Proof.Machine

/-! ### The accessed bytes -/

theorem moveAccess_offs_lt (s : State) (c : Move) (o : MemOperand) : ∀ k ∈ (moveAccess s c o).offs, k < 64 :=
  fun _ hk => maskedOffsets_lt hk

theorem moveAccess_offs_pairwise (s : State) (c : Move) (o : MemOperand) : (moveAccess s c o).offs.Pairwise (· < ·) :=
  maskedOffsets_pairwise _ _

theorem mem_offs_evex (s : State) (v : Evex) (vl : VecLen) (k : Nat) :
    k ∈ maskedOffsets vl (effectiveMask s v.aaa vl) ↔ k < vl.bytes ∧ maskBit s v.aaa (k / 4) = true := by
  have hb := bytes_eq vl
  rw [mem_maskedOffsets, getLsbD_effectiveMask]
  constructor
  · rintro ⟨h, h2⟩
    exact ⟨h, by simpa [maskBit] using (by simpa using h2 : _ ∧ _).2⟩
  · rintro ⟨h, h2⟩
    refine ⟨h, ?_⟩
    simp only [maskBit] at h2
    simp only [h2, Bool.and_true, decide_eq_true_eq]
    omega

theorem loadedFrom_loadBytes (s : State) (c : Move) (o : MemOperand) (pa : Nat → Nat) :
    loadedFrom s (moveAccess s c o) pa (loadBytes s.mem ((moveAccess s c o).offs.map fun k => (k, pa k))) := by
  intro k hk
  refine byteOf_loadBytes s.mem ?_ ?_ (c := (k, pa k)) (List.mem_map.2 ⟨k, hk, rfl⟩)
  · rw [List.pairwise_map]
    exact (moveAccess_offs_pairwise s c o).imp Nat.ne_of_lt
  · simpa using moveAccess_offs_lt s c o

theorem accessible_pairwise {s : State} {c : Move} {o : MemOperand} {pa : Nat → Nat} (h : accessible s (moveAccess s c o) pa) :
    ((moveAccess s c o).offs.map fun k => (k, pa k)).Pairwise fun x y => x.2 ≠ y.2 := by
  rw [List.pairwise_map]
  refine (moveAccess_offs_pairwise s c o).imp_of_mem ?_
  intro x y hx hy hlt
  exact accessible_addresses_ne h (moveAccess_offs_lt s c o) hx hy (Nat.ne_of_lt hlt)

/-- The list an access resolves to holds every accessed byte with its physical address, no offset and no address twice. -/
theorem mem_of_resolve {s : State} {c : Move} {o : MemOperand} {l : List (Nat × Nat)}
    (h : resolve s (moveAccess s c o) = .next l) {la k x : Nat} (hs : segCheck s (moveAccess s c o) = .next la)
    (hk : k ∈ (moveAccess s c o).offs)
    (ht : Machine.translate s (la + k) (accessKind (moveAccess s c o)) = .ok x) :
    (k, x) ∈ l ∧ l.Pairwise (fun c d => c.1 ≠ d.1) ∧ l.Pairwise (fun c d => c.2 ≠ d.2) ∧ ∀ c ∈ l, c.1 < 64 := by
  rcases resolve_eq_next h with ⟨he, _⟩ | ⟨la', hs', hp, _, rfl, _⟩
  · rw [he] at hk
    simp at hk
  · rw [hs] at hs'
    cases hs'
    have hall := pageFaults_eq_nil_iff.1 hp
    let pa : Nat → Nat := fun k =>
      match Machine.translate s (la + k) (accessKind (moveAccess s c o)) with
      | .ok p => p
      | .error _ => 0
    have hpa : ∀ k ∈ (moveAccess s c o).offs,
        Machine.translate s (la + k) (accessKind (moveAccess s c o)) = .ok (pa k) := by
      intro k hk
      obtain ⟨p, hp⟩ := hall k hk
      simp [pa, hp]
    refine ⟨mem_accessedBytes.2 ⟨hk, ht⟩, ?_, ?_, ?_⟩
    · rw [accessedBytes_eq_map hpa, List.pairwise_map]
      exact (moveAccess_offs_pairwise s c o).imp Nat.ne_of_lt
    · rw [accessedBytes_eq_map hpa, List.pairwise_map]
      refine (moveAccess_offs_pairwise s c o).imp_of_mem ?_
      intro x y hx hy hlt
      have := moveAccess_offs_lt s c o y hy
      exact translate_near_ne (hpa x hx) (hpa y hy) (by omega) (by omega)
    · intro c hc
      exact moveAccess_offs_lt _ _ _ _ (mem_accessedBytes.1 hc).1

/-! ### The move completes -/

theorem execMove_load_completes {c : Move} {ud : Bool} {rf : Option Refusal} {s : State} {o : MemOperand} {pa : Nat → Nat}
    (he : entryChecks s c.ilen ud rf = .next ()) (hd : c.dir = .load) (hr : c.modrm.rm = .mem o)
    (ha : accessible s (moveAccess s c o) pa) :
    ∃ t src, execMove c ud rf s = .next t ∧ loadedFrom s (moveAccess s c o) pa src ∧ onlyRegChanged s t (moveReg c) c.ilen
      ∧ readVec t (moveReg c) = lowPart s.params.maxvl.bits (moveResult c (readVec s (moveReg c)) src) :=
  ⟨_, _, execMove_load_mem he hd hr (resolve_of_accessible ha), loadedFrom_loadBytes s c o pa, onlyRegChanged_moveToReg ..,
    readVec_moveToReg_same ..⟩

theorem execMove_store_completes {c : Move} {ud : Bool} {rf : Option Refusal} {s : State} {o : MemOperand} {pa : Nat → Nat}
    (he : entryChecks s c.ilen ud rf = .next ()) (hd : c.dir = .store) (hr : c.modrm.rm = .mem o) (hw : s.mem.wf)
    (ha : accessible s (moveAccess s c o) pa) :
    ∃ t, execMove c ud rf s = .next t ∧ onlyMemChanged s t c.ilen
      ∧ storedTo s t (moveAccess s c o) pa (readVec s (moveReg c)) := by
  refine ⟨_, execMove_store_mem he hd hr (resolve_of_accessible ha), ⟨rfl, rfl⟩, ?_, ?_⟩
  · intro k hk
    exact readByte_storeBytes_mem _ hw (accessible_pairwise ha) (c := (k, pa k)) (List.mem_map.2 ⟨k, hk, rfl⟩)
  · intro x hx
    exact readByte_storeBytes_other _ _ hw (by simpa using hx)

theorem execMove_load_reg_completes {c : Move} {ud : Bool} {rf : Option Refusal} {s : State} {r : BitVec 3}
    (he : entryChecks s c.ilen ud rf = .next ()) (hd : c.dir = .load) (hr : c.modrm.rm = .reg r) :
    ∃ t, execMove c ud rf s = .next t ∧ onlyRegChanged s t (moveReg c) c.ilen
      ∧ readVec t (moveReg c)
        = lowPart s.params.maxvl.bits (moveResult c (readVec s (moveReg c)) (readVec s (moveRmReg c r))) :=
  ⟨_, execMove_load_reg he hd hr, onlyRegChanged_moveToReg .., readVec_moveToReg_same ..⟩

theorem execMove_store_reg_completes {c : Move} {ud : Bool} {rf : Option Refusal} {s : State} {r : BitVec 3}
    (he : entryChecks s c.ilen ud rf = .next ()) (hd : c.dir = .store) (hr : c.modrm.rm = .reg r) :
    ∃ t, execMove c ud rf s = .next t ∧ onlyRegChanged s t (moveRmReg c r) c.ilen
      ∧ readVec t (moveRmReg c r)
        = lowPart s.params.maxvl.bits (moveResult c (readVec s (moveRmReg c r)) (readVec s (moveReg c))) :=
  ⟨_, execMove_store_reg he hd hr, onlyRegChanged_moveToReg .., readVec_moveToReg_same ..⟩

/-- A load that completed wrote what its access resolved to. -/
theorem readVec_of_load {i : Instr} {s t : State} {o : MemOperand} (h : exec i s = .next t) (hd : (moveOf i s).dir = .load)
    (ho : memOperand i s = some o) :
    ∃ l, resolve s (accessOf i s o) = .next l ∧ readVec t (moveReg (moveOf i s))
      = lowPart s.params.maxvl.bits (moveResult (moveOf i s) (readVec s (moveReg (moveOf i s))) (loadBytes s.mem l)) := by
  have hrm : (moveOf i s).modrm.rm = .mem o := by
    unfold memOperand at ho
    split at ho <;> simp_all
  rw [exec_eq_execMove] at h
  obtain ⟨_, h⟩ := execMove_eq_next h
  rcases h with ⟨r, hd', hr, rfl⟩ | ⟨o', l, hd', hr, hl, rfl⟩ | ⟨r, hd', hr, rfl⟩ | ⟨o', l, hd', hr, hl, rfl⟩
  · rw [hrm] at hr
    cases hr
  · rw [hrm] at hr
    cases hr
    exact ⟨l, hl, readVec_moveToReg_same ..⟩
  · rw [hd] at hd'
    cases hd'
  · rw [hd] at hd'
    cases hd'

/-! ### What the destination register holds -/

theorem maxvl_bounds (s : State) : 128 ≤ s.params.maxvl.bits ∧ s.params.maxvl.bits ≤ 512 := by
  cases s.params.maxvl <;> decide

theorem legacyWrites_of_readVec {s t : State} {d : BitVec 5} {src : Vec}
    (h : readVec t d = lowPart s.params.maxvl.bits (replaceLow 128 (readVec s d) src)) : legacyWrites s t d src := by
  have hm := maxvl_bounds s
  constructor
  · intro b hb
    rw [h, getLsbD_lowPart, getLsbD_replaceLow _ _ _ _ (by omega)]
    simp [hb, show b < s.params.maxvl.bits by omega]
  · intro b hb hb2
    rw [h, getLsbD_lowPart, getLsbD_replaceLow _ _ _ _ (by omega)]
    simp [hb2, show ¬ b < 128 by omega]

theorem vexWrites_of_readVec {s t : State} {d : BitVec 5} {src : Vec} {vl : VecLen} (hv : vl.bits ≤ s.params.maxvl.bits)
    (h : readVec t d = lowPart s.params.maxvl.bits (lowPart vl.bits src)) : vexWrites vl t d src := by
  constructor
  · intro b hb
    rw [h, getLsbD_lowPart, getLsbD_lowPart]
    simp [hb, show b < s.params.maxvl.bits by omega]
  · intro b hb
    rw [h, getLsbD_lowPart, getLsbD_lowPart]
    simp [show ¬ b < vl.bits by omega]

theorem evexWrites_of_readVec {s t : State} {d : BitVec 5} {src : Vec} {vl : VecLen} {v : Evex}
    (hv : vl.bits ≤ s.params.maxvl.bits)
    (h : readVec t d
      = lowPart s.params.maxvl.bits (maskedRegResult (readVec s d) src (effectiveMask s v.aaa vl) v.z vl)) :
    evexWrites vl v s t d src := by
  have hb := bits_eq vl
  constructor
  · intro j hj
    have e : elemOf (readVec t d) j = elemOf (maskedRegResult (readVec s d) src (effectiveMask s v.aaa vl) v.z vl) j := by
      apply BitVec.eq_of_getLsbD_eq
      intro b hb'
      rw [getLsbD_elemOf, getLsbD_elemOf, h, getLsbD_lowPart]
      simp [show 32 * j + b < s.params.maxvl.bits by omega]
    rw [e, elemOf_maskedRegResult _ _ _ _ _ hj, getLsbD_effectiveMask]
    simp [hj, maskBit]
  · intro b hb'
    rw [h, getLsbD_lowPart, getLsbD_maskedRegResult_ge _ _ _ _ _ hb']
    simp

/-- The destination of a move holds the source's bytes at the selected offsets, whatever its class. -/
theorem byteOf_moveResult (c : Move) (old src : Vec) {k n : Nat} (hn : c.vl.bits ≤ n)
    (hk : k ∈ maskedOffsets c.vl c.mask) : byteOf (lowPart n (moveResult c old src)) k = byteOf src k := by
  obtain ⟨h1, h2⟩ := (mem_maskedOffsets _ _ _).1 hk
  have hb := bits_eq c.vl
  have hb2 := bytes_eq c.vl
  have h5 := bits_le c.vl
  apply BitVec.eq_of_getLsbD_eq
  intro b hb'
  rw [getLsbD_byteOf, getLsbD_byteOf, getLsbD_lowPart]
  have h3 : 8 * k + b < n := by omega
  have h4 : 8 * k + b < c.vl.bits := by omega
  simp only [h3, decide_true, Bool.true_and, hb']
  unfold moveResult
  split
  · rw [getLsbD_replaceLow _ _ _ _ (by omega), if_pos h4]
  · rw [getLsbD_lowPart]
    simp [h4]
  · rw [maskedRegResult, getLsbD_ofElems _ _ (elems_le _)]
    have e1 : (8 * k + b) / 32 = k / 4 := by omega
    have e2 : (8 * k + b) % 32 = 8 * (k % 4) + b := by omega
    have e3 : 8 * k + b < 32 * c.vl.elems := by omega
    simp only [e1, e2, e3, h2, if_true, getLsbD_elemOf]
    simp [show 8 * (k % 4) + b < 32 by omega, show 32 * (k / 4) + (8 * (k % 4) + b) = 8 * k + b by omega]

end Sys2Proof.Machine
end

