-- ==== Sys2Proof/Laws/PerInstr.lean ====
section
/-! SUPPORT. A statement about every instruction, proved per constructor: the encoding of an instruction has the length
`instrLength` says (30_encoding.md R82). -/

namespace Sys2Proof.Laws.EncodedLength

open Machine

/-- The encoding of the instruction has `ilen` bytes. -/
def Statement (i : Instr) : Prop := (encode i).length = instrLength i

theorem length_encodePrefixes (p : Prefixes) : (encodePrefixes p).length = prefixesLength p := by
  obtain ⟨a, b, c, d, e⟩ := p
  cases a <;> cases b <;> cases c <;> cases d <;> cases e <;> rfl

theorem length_encodeRex (rex : Option Rex) : (encodeRex rex).length = rexLength rex := by
  cases rex <;> rfl

theorem length_encodeModRM (m : ModRM) : (encodeModRM m).length = modrmLength m := by
  obtain ⟨reg, rm⟩ := m
  cases rm with
  | reg r => rfl
  | mem o =>
    obtain ⟨mod, rm, sib, disp⟩ := o
    cases sib <;> cases disp <;> rfl

theorem length_encodeLegacy (d : Direction) (p : Prefixes) (rex : Option Rex) (m : ModRM) :
    (encodeLegacy d p rex m).length = legacyIlen p rex m := by
  simp only [encodeLegacy, legacyIlen, ilenOf, List.length_append, List.length_cons, List.length_nil, length_encodePrefixes,
    length_encodeRex, length_encodeModRM]
  omega

theorem length_encodeVex2 (d : Direction) (l : Bool) (p : Prefixes) (rex : Option Rex) (v : Vex2) (m : ModRM) :
    (encodeVex2 d l p rex v m).length = vex2Ilen p rex m := by
  simp only [encodeVex2, vex2Ilen, ilenOf, List.length_append, List.length_cons, List.length_nil, length_encodePrefixes,
    length_encodeRex, length_encodeModRM]
  omega

theorem length_encodeVex3 (d : Direction) (l : Bool) (p : Prefixes) (rex : Option Rex) (v : Vex3) (m : ModRM) :
    (encodeVex3 d l p rex v m).length = vex3Ilen p rex m := by
  simp only [encodeVex3, vex3Ilen, ilenOf, List.length_append, List.length_cons, List.length_nil, length_encodePrefixes,
    length_encodeRex, length_encodeModRM]
  omega

theorem length_encodeEvex (d : Direction) (vl : VecLen) (p : Prefixes) (rex : Option Rex) (v : Evex) (m : ModRM) :
    (encodeEvex d vl p rex v m).length = evexIlen p rex m := by
  simp only [encodeEvex, evexIlen, ilenOf, List.length_append, List.length_cons, List.length_nil, length_encodePrefixes,
    length_encodeRex, length_encodeModRM]
  omega

theorem movupsLoad (p : Prefixes) (rex : Option Rex) (m : ModRM) : Statement (.movupsLoad p rex m) :=
  length_encodeLegacy ..
theorem movupsStore (p : Prefixes) (rex : Option Rex) (m : ModRM) : Statement (.movupsStore p rex m) :=
  length_encodeLegacy ..
theorem vex2Load128 (p : Prefixes) (rex : Option Rex) (v : Vex2) (m : ModRM) : Statement (.vex2Load128 p rex v m) :=
  length_encodeVex2 ..
theorem vex3Load128 (p : Prefixes) (rex : Option Rex) (v : Vex3) (m : ModRM) : Statement (.vex3Load128 p rex v m) :=
  length_encodeVex3 ..
theorem vex2Store128 (p : Prefixes) (rex : Option Rex) (v : Vex2) (m : ModRM) : Statement (.vex2Store128 p rex v m) :=
  length_encodeVex2 ..
theorem vex3Store128 (p : Prefixes) (rex : Option Rex) (v : Vex3) (m : ModRM) : Statement (.vex3Store128 p rex v m) :=
  length_encodeVex3 ..
theorem vex2Load256 (p : Prefixes) (rex : Option Rex) (v : Vex2) (m : ModRM) : Statement (.vex2Load256 p rex v m) :=
  length_encodeVex2 ..
theorem vex3Load256 (p : Prefixes) (rex : Option Rex) (v : Vex3) (m : ModRM) : Statement (.vex3Load256 p rex v m) :=
  length_encodeVex3 ..
theorem vex2Store256 (p : Prefixes) (rex : Option Rex) (v : Vex2) (m : ModRM) : Statement (.vex2Store256 p rex v m) :=
  length_encodeVex2 ..
theorem vex3Store256 (p : Prefixes) (rex : Option Rex) (v : Vex3) (m : ModRM) : Statement (.vex3Store256 p rex v m) :=
  length_encodeVex3 ..
theorem evexLoad128 (p : Prefixes) (rex : Option Rex) (v : Evex) (m : ModRM) : Statement (.evexLoad128 p rex v m) :=
  length_encodeEvex ..
theorem evexLoad256 (p : Prefixes) (rex : Option Rex) (v : Evex) (m : ModRM) : Statement (.evexLoad256 p rex v m) :=
  length_encodeEvex ..
theorem evexLoad512 (p : Prefixes) (rex : Option Rex) (v : Evex) (m : ModRM) : Statement (.evexLoad512 p rex v m) :=
  length_encodeEvex ..
theorem evexStore128 (p : Prefixes) (rex : Option Rex) (v : Evex) (m : ModRM) : Statement (.evexStore128 p rex v m) :=
  length_encodeEvex ..
theorem evexStore256 (p : Prefixes) (rex : Option Rex) (v : Evex) (m : ModRM) : Statement (.evexStore256 p rex v m) :=
  length_encodeEvex ..
theorem evexStore512 (p : Prefixes) (rex : Option Rex) (v : Evex) (m : ModRM) : Statement (.evexStore512 p rex v m) :=
  length_encodeEvex ..

end Sys2Proof.Laws.EncodedLength
end

