-- ==== Sys2Proof/Tests/Slice0.lean ====
section
/-! SUPPORT. Tests of the model: ill-formed terms, decoded words, single steps, and for each statement of
Certificates/Slice0/Obligations.lean that has hypotheses a state and operands that meet them. Expected results are those of
spec/95_test_vectors.md (the vector's number stands in the comment) or are computed by hand from the rules. -/

namespace Sys2Proof.Tests

open Machine

-- One theorem at a time: each kernel evaluation would otherwise hold a thread of its own.
set_option Elab.async false

/-! ### Helpers -/

/-- The step completes and the state it leaves satisfies the test. -/
def nextAnd (o : Host.Outcome State Fault Refusal) (f : State → Bool) : Bool :=
  match o with
  | .next t => f t
  | .fault _ => false
  | .refused _ => false

/-- The step raises this exception, with this return address. -/
def faultsWith (o : Host.Outcome State Fault Refusal) (k : ExcKind) (a : BitVec 64) : Bool :=
  match o with
  | .next _ => false
  | .fault e => faultKind e == k && faultReturn e == a
  | .refused _ => false

/-- The step is refused for this reason. -/
def refusedWith (o : Host.Outcome State Fault Refusal) (r : Refusal) : Bool :=
  match o with
  | .next _ => false
  | .fault _ => false
  | .refused q => q == r

/-- `P(n)` of the vectors: element j is n, n, j in bytes 3, 2, 1 to 0. -/
def pat (n : Nat) : Vec := ofElems 16 fun j => BitVec.ofNat 32 (n * 0x1010000 + j)

/-- The first `n` elements. -/
def elems (v : Vec) (n : Nat) : List Nat := (List.range n).map fun j => (elemOf v j).toNat

/-- The pattern `M` on `n` bytes from `base`: a byte holds its address mod 256. -/
def patMem (base n : Nat) : Memory :=
  ((List.range n).map fun i => (base + i, BitVec.ofNat 8 (base + i))).filter fun c => c.2 != 0#8

/-- The state with the bytes at pc. -/
def withCode (s : State) (bs : List Byte) : State := { s with mem := placeBytes s bs (pcOffset s) s.mem }

/-- The state with a general register set. -/
def withGpr (s : State) (i : Fin 16) (x : BitVec 64) : State := { s with gpr := s.gpr.set i.val x }

/-- The state with an opmask register set. -/
def withMask (s : State) (i : Fin 8) (x : BitVec 64) : State := { s with k := s.k.set i.val x }

/-- The launch state with ZMM1 = P(1), ZMM2 = P(2). -/
def regs12 : State := writeVec (writeVec launch 1#5 (pat 1)) 2#5 (pat 2)

/-- The launch state with M on 48 bytes from 2000H. -/
def loads : State := { launch with mem := patMem 0x2000 48 }

/-- The bytes of memory from `a` on. -/
def bytesAt (t : State) (a n : Nat) : List Nat := (List.range n).map fun i => (readByte t.mem (a + i)).toNat

/-- A register r/m. -/
def rr (reg rm : BitVec 3) : ModRM := ⟨reg, .reg rm⟩

/-- A memory r/m without displacement: `[rm]`. -/
def rm0 (rm : BitVec 3) : MemOperand := ⟨.m00, rm, none, .none⟩

/-- The VEX2 payload with every inverted field 1. -/
def v2 : Vex2 := ⟨true, 15#4⟩

/-- The VEX3 payload with every inverted field 1. -/
def v3 : Vex3 := ⟨true, true, true, false, 15#4⟩

/-- The EVEX payload with every inverted field 1 and no mask. -/
def ev : Evex := ⟨true, true, true, true, 0#2, false, 15#4, true, false, false, true, 0#3⟩

/-- The same with the mask k1. -/
def evk : Evex := ⟨true, true, true, true, 0#2, false, 15#4, true, false, false, true, 1#3⟩

/-! ### Ill-formed terms -/

theorem test_wf_legacy_refuses_66 :
    Instr.wf .mode64 (.movupsLoad { noPrefixes with opSize := true } none (rr 0#3 0#3)) = false := by decide
theorem test_wf_legacy_refuses_repeat :
    Instr.wf .mode64 (.movupsStore { noPrefixes with rep := some .f3 } none (rr 0#3 0#3)) = false := by decide
theorem test_wf_refuses_rex_outside_mode64 :
    Instr.wf .compat32 (.movupsLoad noPrefixes (some ⟨false, false, false, false⟩) (rr 0#3 0#3)) = false := by decide
theorem test_wf_refuses_missing_sib :
    Instr.wf .mode64 (.movupsLoad noPrefixes none ⟨0#3, .mem ⟨.m00, 4#3, none, .none⟩⟩) = false := by decide
theorem test_wf_refuses_sib_in_16_bit :
    Instr.wf .real (.movupsLoad noPrefixes none ⟨0#3, .mem ⟨.m00, 4#3, some ⟨0#2, 0#3, 0#3⟩, .none⟩⟩) = false := by decide
theorem test_wf_refuses_displacement_size :
    Instr.wf .mode64 (.vex2Load256 noPrefixes none v2 ⟨0#3, .mem ⟨.m10, 0#3, none, .d8 1#8⟩⟩) = false := by decide
theorem test_wf_vex2_refuses_lds :
    Instr.wf .compat32 (.vex2Load128 noPrefixes none ⟨false, 15#4⟩ (rr 0#3 0#3)) = false := by decide
theorem test_wf_vex2_refuses_vvvv_as_lds :
    Instr.wf .prot32 (.vex2Store128 noPrefixes none ⟨true, 7#4⟩ (rr 0#3 0#3)) = false := by decide
theorem test_wf_vex3_refuses_les :
    Instr.wf .compat32 (.vex3Load128 noPrefixes none { v3 with xInv := false } (rr 0#3 0#3)) = false := by decide
theorem test_wf_evex_refuses_bound :
    Instr.wf .prot16 (.evexLoad512 noPrefixes none { ev with rInv := false } (rr 0#3 0#3)) = false := by decide

/-! ### Decoding: words written from the spec's encodings (95_test_vectors.md, 30_encoding.md R110) -/

/-- L1. -/
theorem test_decode_movupsLoad : decode .mode64 [0x0F#8, 0x10#8, 0xCA#8]
    = .instr (.movupsLoad noPrefixes none (rr 1#3 2#3)) [] := by decide
/-- L6. -/
theorem test_decode_movupsStore : decode .mode64 [0x0F#8, 0x11#8, 0x5F#8, 0x10#8]
    = .instr (.movupsStore noPrefixes none ⟨3#3, .mem ⟨.m01, 7#3, none, .d8 16#8⟩⟩) [] := by decide
/-- V1. -/
theorem test_decode_vex2Load128 : decode .mode64 [0xC5#8, 0xF8#8, 0x10#8, 0xCA#8]
    = .instr (.vex2Load128 noPrefixes none v2 (rr 1#3 2#3)) [] := by decide
/-- V8: B̅ = 0. -/
theorem test_decode_vex3Load128 : decode .mode64 [0xC4#8, 0xC1#8, 0x78#8, 0x10#8, 0x08#8]
    = .instr (.vex3Load128 noPrefixes none { v3 with bInv := false } ⟨1#3, .mem (rm0 0#3)⟩) [] := by decide
/-- V5. -/
theorem test_decode_vex2Store128 : decode .mode64 [0xC5#8, 0xF8#8, 0x11#8, 0x08#8]
    = .instr (.vex2Store128 noPrefixes none v2 ⟨1#3, .mem (rm0 0#3)⟩) [] := by decide
/-- V5 with the three-byte prefix of V3 (W = 1). -/
theorem test_decode_vex3Store128 : decode .mode64 [0xC4#8, 0xE1#8, 0xF8#8, 0x11#8, 0x08#8]
    = .instr (.vex3Store128 noPrefixes none { v3 with w := true } ⟨1#3, .mem (rm0 0#3)⟩) [] := by decide
/-- V11 with 256 bits: vvvv = 1110b is decoded, not refused. -/
theorem test_decode_vex2Load256 : decode .mode64 [0xC5#8, 0xF4#8, 0x10#8, 0xCA#8]
    = .instr (.vex2Load256 noPrefixes none ⟨true, 14#4⟩ (rr 1#3 2#3)) [] := by decide
/-- V6 with a three-byte prefix and R̅ = 0. -/
theorem test_decode_vex3Load256 : decode .mode64 [0xC4#8, 0x61#8, 0x7C#8, 0x10#8, 0x08#8]
    = .instr (.vex3Load256 noPrefixes none { v3 with rInv := false } ⟨1#3, .mem (rm0 0#3)⟩) [] := by decide
/-- V7. -/
theorem test_decode_vex2Store256 : decode .mode64 [0xC5#8, 0x7C#8, 0x11#8, 0x09#8]
    = .instr (.vex2Store256 noPrefixes none ⟨false, 15#4⟩ ⟨1#3, .mem (rm0 1#3)⟩) [] := by decide
/-- V7 with a three-byte prefix, X̅ = 0. -/
theorem test_decode_vex3Store256 : decode .mode64 [0xC4#8, 0xA1#8, 0x7C#8, 0x11#8, 0x0C#8, 0x08#8]
    = .instr (.vex3Store256 noPrefixes none { v3 with xInv := false }
        ⟨1#3, .mem ⟨.m00, 4#3, some ⟨0#2, 1#3, 0#3⟩, .none⟩⟩) [] := by decide
/-- E2. -/
theorem test_decode_evexLoad128 : decode .mode64 [0x62#8, 0x81#8, 0x7C#8, 0x08#8, 0x10#8, 0xCE#8]
    = .instr (.evexLoad128 noPrefixes none { ev with xInv := false, bInv := false, rpInv := false }
        (rr 1#3 6#3)) [] := by decide
/-- E5. -/
theorem test_decode_evexLoad256 : decode .mode64 [0x62#8, 0xF1#8, 0x7C#8, 0x2F#8, 0x10#8, 0x54#8, 0xB3#8, 0x01#8]
    = .instr (.evexLoad256 noPrefixes none { ev with aaa := 7#3 }
        ⟨2#3, .mem ⟨.m01, 4#3, some ⟨2#2, 6#3, 3#3⟩, .d8 1#8⟩⟩) [] := by decide
/-- E6. -/
theorem test_decode_evexLoad512 : decode .mode64 [0x62#8, 0xF1#8, 0x7C#8, 0xC9#8, 0x10#8, 0x08#8]
    = .instr (.evexLoad512 noPrefixes none { ev with z := true, aaa := 1#3 } ⟨1#3, .mem (rm0 0#3)⟩) [] := by decide
/-- E7. -/
theorem test_decode_evexStore128 : decode .mode64 [0x62#8, 0xE1#8, 0x7C#8, 0x0B#8, 0x11#8, 0x0A#8]
    = .instr (.evexStore128 noPrefixes none { ev with rpInv := false, aaa := 3#3 } ⟨1#3, .mem (rm0 2#3)⟩) [] := by decide
/-- E8. -/
theorem test_decode_evexStore256 : decode .mode64 [0x62#8, 0xF1#8, 0x7C#8, 0x28#8, 0x11#8, 0xC8#8]
    = .instr (.evexStore256 noPrefixes none ev (rr 1#3 0#3)) [] := by decide
/-- E10. -/
theorem test_decode_evexStore512 : decode .mode64 [0x62#8, 0xF1#8, 0x7C#8, 0x4A#8, 0x11#8, 0x58#8, 0x01#8]
    = .instr (.evexStore512 noPrefixes none { ev with aaa := 2#3 } ⟨3#3, .mem ⟨.m01, 0#3, none, .d8 1#8⟩⟩) [] := by decide

/-- L7: RIP-relative, a 32-bit displacement, least significant byte first. -/
theorem test_decode_rip_relative : decode .mode64 [0x0F#8, 0x10#8, 0x05#8, 0x10#8, 0#8, 0#8, 0#8]
    = .instr (.movupsLoad noPrefixes none ⟨0#3, .mem ⟨.m00, 5#3, none, .d32 16#32⟩⟩) [] := by decide
/-- L5: REX.R and REX.B. -/
theorem test_decode_rex : decode .mode64 [0x45#8, 0x0F#8, 0x10#8, 0x01#8]
    = .instr (.movupsLoad noPrefixes (some ⟨false, true, false, true⟩) ⟨0#3, .mem (rm0 1#3)⟩) [] := by decide
/-- 16-bit addressing: mod = 00 with rm = 110 has a 16-bit displacement (R91). -/
theorem test_decode_disp16 : decode .real [0x0F#8, 0x10#8, 0x06#8, 0x34#8, 0x12#8]
    = .instr (.movupsLoad noPrefixes none ⟨0#3, .mem ⟨.m00, 6#3, none, .d16 0x1234#16⟩⟩) [] := by decide
/-- SIB.base = 101 under mod = 00 has a 32-bit displacement (R90). -/
theorem test_decode_sib_disp32 : decode .mode64 [0x0F#8, 0x10#8, 0x04#8, 0x25#8, 4#8, 3#8, 2#8, 1#8]
    = .instr (.movupsLoad noPrefixes none ⟨0#3, .mem ⟨.m00, 4#3, some ⟨0#2, 4#3, 5#3⟩, .d32 0x01020304#32⟩⟩) [] := by decide
/-- L17: 66H, F3H, F2H are other instructions. -/
theorem test_decode_neighbours :
    decode .mode64 [0x66#8, 0x0F#8, 0x10#8, 0x00#8] = .reject .notMovups
      ∧ decode .mode64 [0xF3#8, 0x0F#8, 0x10#8, 0x00#8] = .reject .notMovups
      ∧ decode .mode64 [0xF2#8, 0x0F#8, 0x10#8, 0x00#8] = .reject .notMovups := by decide
/-- VMOVUPD, VMOVSS and VMOVSD in the VEX2, VEX3 and EVEX formats (R115); a 66H before VMOVUPD changes nothing (log 39). -/
theorem test_decode_other_pp :
    decode .mode64 [0xC5#8, 0xF9#8, 0x10#8, 0xCA#8] = .reject .notMovups
      ∧ decode .mode64 [0xC4#8, 0xE1#8, 0x7A#8, 0x11#8, 0xCA#8] = .reject .notMovups
      ∧ decode .mode64 [0x62#8, 0xF1#8, 0x7F#8, 0x48#8, 0x10#8, 0xCA#8] = .reject .notMovups
      ∧ decode .mode64 [0x66#8, 0xC5#8, 0xF9#8, 0x10#8, 0xCA#8] = .reject .notMovups := by decide
/-- V18: LDS. -/
theorem test_decode_lds : decode .compat32 [0xC5#8, 0x78#8, 0x10#8, 0x00#8] = .reject .notMovups := by decide
/-- E23: L'L = 11b. -/
theorem test_decode_reserved_length :
    decode .mode64 [0x62#8, 0xF1#8, 0x7C#8, 0x68#8, 0x10#8, 0xCA#8] = .undefinedOpcode 6 := by decide
/-- Two segment overrides; a REX byte before another prefix (R83, R84). -/
theorem test_decode_prefix_order :
    decode .mode64 [0x2E#8, 0x3E#8, 0x0F#8, 0x10#8, 0xCA#8] = .reject .repeatedPrefix
      ∧ decode .mode64 [0x48#8, 0x2E#8, 0x0F#8, 0x10#8, 0xCA#8] = .reject .misplacedRex := by decide
/-- A table word is the same bytes, the first the least significant. -/
theorem test_decode_table_word : decodeTableWord 24 0xCA100F = some (.movupsLoad noPrefixes none (rr 1#3 2#3)) := by decide

/-! ### Single steps -/

/-- L1: elements 4 to 15 keep their values. -/
theorem test_step_movups_reg : nextAnd (step (withCode regs12 [0x0F#8, 0x10#8, 0xCA#8])) (fun t =>
    elems (readVec t 1#5) 6 == [0x02020000, 0x02020001, 0x02020002, 0x02020003, 0x01010004, 0x01010005]
      && t.pc == 0x1003#64) = true := by decide +kernel
/-- L4: unaligned. -/
theorem test_step_movups_load : nextAnd (step (withCode (withGpr loads 0 0x2003#64) [0x0F#8, 0x10#8, 0x00#8])) (fun t =>
    elems (readVec t 0#5) 4 == [0x06050403, 0x0A090807, 0x0E0D0C0B, 0x1211100F]) = true := by decide +kernel
/-- L2: opcode 11H writes r/m. -/
theorem test_step_movups_rm_reg : nextAnd (step (withCode regs12 [0x0F#8, 0x11#8, 0xD1#8])) (fun t =>
    elems (readVec t 1#5) 5 == [0x02020000, 0x02020001, 0x02020002, 0x02020003, 0x01010004]) = true := by decide +kernel
/-- L6, with ZMM1 as the source: 16 bytes, disp8 not scaled. -/
theorem test_step_movups_store :
    nextAnd (step (withCode (withGpr regs12 7 0x1FF1#64) [0x0F#8, 0x11#8, 0x4F#8, 0x10#8])) (fun t =>
      bytesAt t 0x2000 18 == [0, 0, 0, 1, 1, 1, 0, 1, 1, 2, 0, 1, 1, 3, 0, 1, 1, 0]) = true := by decide +kernel
/-- V1: elements 4 to 15 are zero. -/
theorem test_step_vex2_reg : nextAnd (step (withCode regs12 [0xC5#8, 0xF8#8, 0x10#8, 0xCA#8])) (fun t =>
    elems (readVec t 1#5) 6 == [0x02020000, 0x02020001, 0x02020002, 0x02020003, 0, 0] && t.pc == 0x1004#64) = true := by decide +kernel
/-- V13: #NM before the memory faults. -/
theorem test_step_vex2_nm :
    faultsWith (step (withCode { withGpr launch 0 0x800000000000#64 with cr0 := 0x60000019#64 } [0xC5#8, 0xF8#8, 0x10#8, 0x00#8]))
      .deviceNotAvailable 0x1000#64 = true := by decide +kernel
/-- V3: VEX.W is ignored. -/
theorem test_step_vex3_w : nextAnd (step (withCode regs12 [0xC4#8, 0xE1#8, 0xF8#8, 0x10#8, 0xCA#8])) (fun t =>
    elems (readVec t 1#5) 5 == [0x02020000, 0x02020001, 0x02020002, 0x02020003, 0] && t.pc == 0x1005#64) = true := by decide +kernel
/-- V8: base R8. -/
theorem test_step_vex3_base :
    nextAnd (step (withCode (withGpr loads 8 0x2003#64) [0xC4#8, 0xC1#8, 0x78#8, 0x10#8, 0x08#8])) (fun t =>
      elems (readVec t 1#5) 5 == [0x06050403, 0x0A090807, 0x0E0D0C0B, 0x1211100F, 0]) = true := by decide +kernel
/-- V5: exactly 16 bytes. -/
theorem test_step_vex2_store128 :
    nextAnd (step (withCode (withGpr regs12 0 0x4009#64) [0xC5#8, 0xF8#8, 0x11#8, 0x08#8])) (fun t =>
      bytesAt t 0x4008 18 == [0, 0, 0, 1, 1, 1, 0, 1, 1, 2, 0, 1, 1, 3, 0, 1, 1, 0]) = true := by decide +kernel
/-- V5 with the three-byte prefix. -/
theorem test_step_vex3_store128 :
    nextAnd (step (withCode (withGpr regs12 0 0x4009#64) [0xC4#8, 0xE1#8, 0x78#8, 0x11#8, 0x08#8])) (fun t =>
      bytesAt t 0x4009 8 == [0, 0, 1, 1, 1, 0, 1, 1] && t.pc == 0x1005#64) = true := by decide +kernel
/-- V10: a VEX disp8 is not scaled; the data of V6. -/
theorem test_step_vex2_load256 :
    nextAnd (step (withCode (withGpr loads 0 0x2002#64) [0xC5#8, 0xFC#8, 0x10#8, 0x40#8, 0x01#8])) (fun t =>
      elems (readVec t 0#5) 9 == [0x06050403, 0x0A090807, 0x0E0D0C0B, 0x1211100F, 0x16151413, 0x1A191817, 0x1E1D1C1B,
        0x2221201F, 0]) = true := by decide +kernel
/-- V6 with base R8. -/
theorem test_step_vex3_load256 :
    nextAnd (step (withCode (withGpr loads 8 0x2003#64) [0xC4#8, 0xC1#8, 0x7C#8, 0x10#8, 0x08#8])) (fun t =>
      elems (readVec t 1#5) 9 == [0x06050403, 0x0A090807, 0x0E0D0C0B, 0x1211100F, 0x16151413, 0x1A191817, 0x1E1D1C1B,
        0x2221201F, 0]) = true := by decide +kernel
/-- V9: elements 8 to 15 are zeroed by the store opcode. -/
theorem test_step_vex2_rm_reg256 : nextAnd (step (withCode regs12 [0xC5#8, 0xFC#8, 0x11#8, 0xCA#8])) (fun t =>
    elems (readVec t 2#5) 9 == [0x01010000, 0x01010001, 0x01010002, 0x01010003, 0x01010004, 0x01010005, 0x01010006,
      0x01010007, 0]) = true := by decide +kernel
/-- V9 with the three-byte prefix and a memory destination: 32 bytes. -/
theorem test_step_vex3_store256 :
    nextAnd (step (withCode (withGpr regs12 0 0x4009#64) [0xC4#8, 0xE1#8, 0x7C#8, 0x11#8, 0x08#8])) (fun t =>
      bytesAt t 0x4025 5 == [7, 0, 1, 1, 0]) = true := by decide +kernel
/-- E3: merging. -/
theorem test_step_evex_merge :
    nextAnd (step (withCode (withMask regs12 1 0xFFF5#64) [0x62#8, 0xF1#8, 0x7C#8, 0x09#8, 0x10#8, 0xCA#8])) (fun t =>
      elems (readVec t 1#5) 5 == [0x02020000, 0x01010001, 0x02020002, 0x01010003, 0]) = true := by decide +kernel
/-- E13: an empty mask makes no access. -/
theorem test_step_evex_empty_mask :
    nextAnd (step (withCode (withGpr regs12 0 0x800000000000#64) [0x62#8, 0xF1#8, 0x7C#8, 0x09#8, 0x10#8, 0x08#8])) (fun t =>
      elems (readVec t 1#5) 5 == [0x01010000, 0x01010001, 0x01010002, 0x01010003, 0]) = true := by decide +kernel
/-- E5: disp8 times 32. -/
theorem test_step_evex_load256 :
    nextAnd (step (withCode (withMask (withGpr (withGpr { regs12 with mem := patMem 0x2000 32 } 3 0x1000#64) 6 0x3F8#64) 7 0xF0#64)
      [0x62#8, 0xF1#8, 0x7C#8, 0x2F#8, 0x10#8, 0x54#8, 0xB3#8, 0x01#8])) (fun t =>
      elems (readVec t 2#5) 9 == [0x02020000, 0x02020001, 0x02020002, 0x02020003, 0x13121110, 0x17161514, 0x1B1A1918,
        0x1F1E1D1C, 0] && t.pc == 0x1008#64) = true := by decide +kernel
/-- E6: zeroing. -/
theorem test_step_evex_zeroing :
    nextAnd (step (withCode (withMask (withGpr { regs12 with mem := patMem 0x3001 64 } 0 0x3001#64) 1 0x8001#64)
      [0x62#8, 0xF1#8, 0x7C#8, 0xC9#8, 0x10#8, 0x08#8])) (fun t =>
      elems (readVec t 1#5) 16 == [0x04030201, 0, 0, 0, 0, 0, 0, 0, 0, 0, 0, 0, 0, 0, 0, 0x403F3E3D]) = true := by decide +kernel
/-- E1. -/
theorem test_step_evex_reg512 : nextAnd (step (withCode regs12 [0x62#8, 0xF1#8, 0x7C#8, 0x48#8, 0x10#8, 0xCA#8])) (fun t =>
    readVec t 1#5 == pat 2 && t.pc == 0x1006#64) = true := by decide +kernel
/-- E7: elements 1 and 2 of ZMM17. -/
theorem test_step_evex_store128 :
    nextAnd (step (withCode (withMask (withGpr (writeVec launch 17#5 (pat 0x11)) 2 0x4009#64) 3 6#64)
      [0x62#8, 0xE1#8, 0x7C#8, 0x0B#8, 0x11#8, 0x0A#8])) (fun t =>
      bytesAt t 0x4009 16 == [0, 0, 0, 0, 1, 0, 0x11, 0x11, 2, 0, 0x11, 0x11, 0, 0, 0, 0]) = true := by decide +kernel
/-- E9: zeroing with opcode 11H and a register destination. -/
theorem test_step_evex_store_reg :
    nextAnd (step (withCode (withMask regs12 1 0xF#64) [0x62#8, 0xF1#8, 0x7C#8, 0xA9#8, 0x11#8, 0xCA#8])) (fun t =>
      elems (readVec t 2#5) 9 == [0x01010000, 0x01010001, 0x01010002, 0x01010003, 0, 0, 0, 0, 0]) = true := by decide +kernel
/-- E10, with ZMM1 as the source: disp8 times 64. -/
theorem test_step_evex_store512 :
    nextAnd (step (withCode (withMask (withGpr regs12 0 0x5FC7#64) 2 0xFFFF#64)
      [0x62#8, 0xF1#8, 0x7C#8, 0x4A#8, 0x11#8, 0x48#8, 0x01#8])) (fun t =>
      bytesAt t 0x6006 5 == [0, 0, 0, 1, 1] && bytesAt t 0x6043 5 == [15, 0, 1, 1, 0]) = true := by decide +kernel
/-- E21: z = 1 with a memory destination. -/
theorem test_step_evex_zeroing_store :
    faultsWith (step (withCode (withGpr launch 7 0x4000#64) [0x62#8, 0xF1#8, 0x7C#8, 0xCA#8, 0x11#8, 0x07#8]))
      .invalidOpcode 0x1000#64 = true := by decide +kernel
/-- E23: L'L = 11b, at the step. -/
theorem test_step_reserved_length :
    faultsWith (step (withCode launch [0x62#8, 0xF1#8, 0x7C#8, 0x68#8, 0x10#8, 0xCA#8])) .invalidOpcode 0x1000#64 = true := by
  decide +kernel
/-- L17 at the step. -/
theorem test_step_movupd :
    refusedWith (step (withCode launch [0x66#8, 0x0F#8, 0x10#8, 0x00#8])) .notMovups = true := by decide +kernel
/-- A table word after reset is fetched and run; the form is not enabled (70_reset_and_hazards.md R211). -/
theorem test_step_table_word :
    faultsWith (step (State.reset.withFetchWord 24 0x1000C5)) .invalidOpcode 0xFFF0#64 = true := by decide +kernel
/-- L1 as a table word at launch. -/
theorem test_step_table_word_launch :
    nextAnd (step (regs12.withFetchWord 24 0xCA100F)) (fun t => t.pc == 0x1003#64) = true := by decide +kernel
/-- Parameters that 00_scope.md R7 forbids, AVX with MAXVL = 128: the 256-bit form is not enabled, the 128-bit one is (log 11). -/
theorem test_step_wider_than_maxvl :
    faultsWith (step (withCode { regs12 with params := { Params.defaults with maxvl := .l128 } } [0xC5#8, 0xFC#8, 0x10#8, 0xCA#8]))
        .invalidOpcode 0x1000#64 = true
      ∧ nextAnd (step (withCode { regs12 with params := { Params.defaults with maxvl := .l128 } } [0xC5#8, 0xF8#8, 0x10#8, 0xCA#8]))
        (fun t => t.pc == 0x1004#64) = true := by decide +kernel
/-- P1 loaded at 1000H: the run starts there, takes its two steps and ends; from the end no run starts. -/
theorem test_run_p1 :
    runSucceeds 2 (loadProgram (withGpr (withGpr launch 6 0x2003#64) 7 0x4009#64) 0x1000#64
        [0x0F#8, 0x10#8, 0x06#8, 0x0F#8, 0x11#8, 0x07#8]) = true
      ∧ runSucceeds 0 { loadProgram launch 0x1000#64 [0x0F#8, 0x10#8, 0xCA#8] with pc := 0x1003#64 } = false := by decide +kernel

/-! ### Reflecting outcomes -/

/-- The outcome is a next with this value. -/
def isNext {α : Type} [DecidableEq α] (r : Result α) (a : α) : Bool :=
  match r with
  | .next b => decide (b = a)
  | .fault _ => false
  | .refused _ => false

theorem eq_next_of_isNext {α : Type} [DecidableEq α] {r : Result α} {a : α} (h : isNext r a = true) : r = .next a := by
  cases r <;> simp_all [isNext]

theorem exists_next {o : Host.Outcome State Fault Refusal} {f : State → Bool} (h : nextAnd o f = true) :
    ∃ t, o = .next t ∧ f t = true := by
  cases o <;> simp_all [nextAnd]

theorem raises_of_faultsWith {i : Instr} {s : State} {k : ExcKind} (h : faultsWith (exec i s) k s.pc = true) :
    raises i s k := by
  unfold raises
  cases he : exec i s with
  | next t => simp [he, faultsWith] at h
  | fault e =>
    obtain ⟨k', a⟩ := e
    simp_all [faultsWith, faultKind, faultReturn]
  | refused r => simp [he, faultsWith] at h

/-- The outcome is a #PF. -/
def isPageFault (o : Host.Outcome State Fault Refusal) : Bool :=
  match o with
  | .next _ => false
  | .fault (.exception k _) =>
    match k with
    | .pageFault _ _ => true
    | _ => false
  | .refused _ => false

theorem exists_pageFault {o : Host.Outcome State Fault Refusal} (h : isPageFault o = true) :
    ∃ code address ra, o = .fault (.exception (.pageFault code address) ra) := by
  cases o with
  | next t => simp [isPageFault] at h
  | refused r => simp [isPageFault] at h
  | fault e =>
    obtain ⟨k, a⟩ := e
    cases k <;> simp_all [isPageFault]

/-- The translation faults with this code. -/
def translateFails (s : State) (la : Nat) (kind : AccessKind) (code : BitVec 32) : Bool :=
  match Machine.translate s la kind with
  | .ok _ => false
  | .error c => c == code

theorem translate_of_fails {s : State} {la : Nat} {kind : AccessKind} {code : BitVec 32}
    (h : translateFails s la kind code = true) : Machine.translate s la kind = .error code := by
  unfold translateFails at h
  split at h
  · cases h
  · rename_i hc
    rw [hc, eq_of_beq h]

/-- `accessible` at the linear address `la`, with alignment checking off or AC_POLICY `Never`. -/
def accessibleAt (s : State) (a : Access) (la : Nat) (pa : Nat → Nat) : Bool :=
  isNext (segCheck s a) la && (!alignmentChecking s || acPolicy s a.cls == .never)
    && a.offs.all fun k =>
        (match Machine.translate s (la + k) (accessKind a) with
         | .ok p => p == pa k
         | .error _ => false)
        && !inDevice s (pa k) && (a.dir == .load || !inText s (pa k))

theorem accessible_of_check {s : State} {a : Access} {la : Nat} {pa : Nat → Nat} (h : accessibleAt s a la pa = true) :
    accessible s a pa := by
  simp only [accessibleAt, Bool.and_eq_true, Bool.not_eq_true', List.all_eq_true, Bool.or_eq_true, beq_iff_eq] at h
  obtain ⟨⟨h1, h2⟩, h3⟩ := h
  refine .inr ⟨la, eq_next_of_isNext h1, h2.imp_right .inl, fun k hk => ?_⟩
  obtain ⟨⟨h4, h5⟩, h6⟩ := h3 k hk
  refine ⟨?_, h5, fun hd => ?_⟩
  · split at h4
    · rename_i hp
      rw [hp]
      simpa using h4
    · cases h4
  · rcases h6 with h6 | h6
    · rw [hd] at h6
      cases h6
    · exact h6

/-! ### States and instructions for the witnesses -/

/-- A memory operand `[rax]`, and a load from it. -/
def loadRax : Instr := .movupsLoad noPrefixes none ⟨0#3, .mem (rm0 0#3)⟩

/-- A store to `[rax]`. -/
def storeRax : Instr := .movupsStore noPrefixes none ⟨0#3, .mem (rm0 0#3)⟩

/-- The launch state with RAX. -/
def atRax (x : BitVec 64) : State := withGpr launch 0 x

/-- Protected mode, 32-bit code, CPL 3, every form enabled, flat segments. -/
def prot : State := { launch with csL := false, csD := true, efer := 0#64 }

/-- Real mode with the SSE forms enabled, segments as after reset. -/
def realMode : State := { launch with cr0 := 0x60000010#64, segs := State.reset.segs }

/-- A page that maps to itself, readable, writable, user. -/
def plainPage (n : Nat) : PageEntry := ⟨n, n, true, true, true, false, false, false⟩

/-- L9: page 2000H mapped, page 3000H not. -/
def paged : State := { atRax 0x2FF8#64 with translation := .pages [plainPage 1, plainPage 2] }

/-- No CPUID flag. -/
def noFeatures : State := { launch with params := ⟨.l128, false, false, false, false, .la48, .k16, .never, .never, .never⟩ }

/-- CR0.AM = 1, EFLAGS.AC = 1, CPL 3, #AC always. -/
def alignChecked : State :=
  { atRax 0x2003#64 with cr0 := 0x60040011#64, eflags := 0x40002#32, params := { Params.defaults with acLegacy := .always } }

/-- The same with AC_POLICY `Never`. -/
def neverChecked : State := { alignChecked with params := { Params.defaults with acLegacy := .never, acVex := .never, acEvex := .never } }

/-- L9 misaligned, alignment checking on, AC_POLICY `Never`. -/
def pagedNever : State := { neverChecked with gpr := (atRax 0x2FF9#64).gpr, translation := .pages [plainPage 1, plainPage 2] }

/-- Every prefix, SIB and a 32-bit displacement. -/
def allPrefixes : Prefixes := ⟨true, some .f3, some .fs, true, true⟩
/-- Segment override and address size. -/
def twoPrefixes : Prefixes := { noPrefixes with seg := some .gs, addrSize := true }
/-- The longest memory operand. -/
def longest : ModRM := ⟨7#3, .mem ⟨.m10, 4#3, some ⟨3#2, 7#3, 7#3⟩, .d32 0xFFFFFFFF#32⟩⟩
/-- A REX byte. -/
def rexAll : Rex := ⟨true, true, true, true⟩

/-! ### Witnesses: encoding -/

theorem test_witness_DecodeEncodeRoundTrip :
    Instr.wf .mode64 (.evexStore512 allPrefixes (some rexAll) ev longest) = true
      ∧ Instr.wf .compat32 (.vex3Load256 noPrefixes none v3 (rr 7#3 7#3)) = true
      ∧ Instr.wf .real (.movupsStore noPrefixes none ⟨0#3, .mem ⟨.m00, 6#3, none, .d16 0xFFFF#16⟩⟩) = true := by decide

theorem test_witness_DecodedInstructionsAreWellFormed :
    decode .mode64 [0xC5#8, 0xF8#8, 0x10#8, 0xCA#8, 0x90#8] = .instr (.vex2Load128 noPrefixes none v2 (rr 1#3 2#3)) [0x90#8] := by
  decide

/-- The shortest and the longest of each format. -/
theorem test_witness_EncodedLengthBounds :
    (Instr.wf .mode64 (.movupsLoad noPrefixes none (rr 0#3 0#3)) = true
        ∧ instrLength (.movupsLoad noPrefixes none (rr 0#3 0#3)) = 3
        ∧ Instr.wf .mode64 (.movupsLoad twoPrefixes (some rexAll) longest) = true
        ∧ instrLength (.movupsLoad twoPrefixes (some rexAll) longest) = 11)
      ∧ (Instr.wf .mode64 (.vex2Load128 noPrefixes none v2 (rr 0#3 0#3)) = true
        ∧ instrLength (.vex2Load128 noPrefixes none v2 (rr 0#3 0#3)) = 4
        ∧ Instr.wf .mode64 (.vex3Load128 twoPrefixes none v3 longest) = true
        ∧ instrLength (.vex3Load128 twoPrefixes none v3 longest) = 12)
      ∧ (Instr.wf .mode64 (.evexLoad128 noPrefixes none ev (rr 0#3 0#3)) = true
        ∧ instrLength (.evexLoad128 noPrefixes none ev (rr 0#3 0#3)) = 6
        ∧ Instr.wf .mode64 (.evexLoad128 twoPrefixes none ev longest) = true
        ∧ instrLength (.evexLoad128 twoPrefixes none ev longest) = 13) := by decide

theorem test_witness_RepeatedOrMisplacedPrefixRejected :
    (∀ x ∈ [0x2E#8] ++ [0x66#8], prefixGroup x ≠ none) ∧ prefixGroup 0xF2#8 = some 1 ∧ prefixGroup 0xF3#8 = some 1
      ∧ prefixGroup 0x67#8 ≠ none := by decide

/-- Every clause: the payloads C5 F9 (pp = 01), C4 E2 (map 2), C4 E1 7B (pp = 11), 62 F2 (map 2), 62 F1 7E (pp = 10). -/
theorem test_witness_NeighboursAreNotMovups :
    { noPrefixes with opSize := true }.opSize = true ∧ { noPrefixes with rep := some .f2 }.rep ≠ none
      ∧ rexWf .mode64 (some rexAll) = true ∧ rexWf .real none = true
      ∧ Mode.compat32 ≠ .mode64 ∧ (0xBF#8).extractLsb' 6 2 ≠ 3#2 ∧ (0x00#8).extractLsb' 6 2 ≠ 3#2
      ∧ (0xF9#8).extractLsb' 0 2 ≠ 0#2
      ∧ ((0xE2#8).extractLsb' 0 5 = 2#5 ∧ (0xE1#8).extractLsb' 0 5 = 1#5 ∧ (0x7B#8).extractLsb' 0 2 ≠ 0#2)
      ∧ ((0xF2#8).extractLsb' 0 2 = 2#2 ∧ (0xF1#8).extractLsb' 0 2 = 1#2 ∧ (0x7E#8).extractLsb' 0 2 ≠ 0#2)
      ∧ (0x12#8 ≠ 0x10#8 ∧ 0x12#8 ≠ 0x11#8)
      ∧ (prefixGroup 0x90#8 = none ∧ (0x90#8).extractLsb' 4 4 ≠ 4#4) := by decide

theorem test_witness_RowlessEncodingsAreUndefined :
    (rexWf .mode64 (some rexAll) = true ∧ longest.wf (addrSize .mode64 false) = true)
      ∧ (rexWf .prot16 none = true ∧ longest.wf (addrSize .prot16 true) = true ∧ (0xF0#8).extractLsb' 6 2 = 3#2)
      ∧ longest.wf .a64 = true ∧ (0xF0#8).extractLsb' 0 2 = 0#2
      ∧ ((0xF1#8).extractLsb' 0 2 = 1#2 ∧ (0x7C#8).extractLsb' 0 2 = 0#2 ∧ (0x68#8).extractLsb' 5 2 = 3#2)
      ∧ ((0xE0#8).extractLsb' 0 5 ≠ 1#5 ∧ (0xE0#8).extractLsb' 0 5 ≠ 2#5 ∧ (0xE0#8).extractLsb' 0 5 ≠ 3#5) := by decide

theorem test_witness_RegisterNumbersFromExtensionBits : Mode.v86 ≠ .mode64 := by decide

/-! ### Witnesses: the step -/

/-- The five clauses; the undefined opcodes have 15 and 17 bytes. -/
theorem test_witness_StepRunsDecoded :
    textFetchable { launch with textBase := 0x7FFFFFFFFFFF#64, textLen := 2 } = false
      ∧ (textFetchable (withCode launch [0x0F#8, 0x10#8, 0xCA#8]) = true
        ∧ ∃ rest, decode (modeOf (withCode launch [0x0F#8, 0x10#8, 0xCA#8])) (fetchBytes (withCode launch [0x0F#8, 0x10#8, 0xCA#8]))
            = .instr (.movupsLoad noPrefixes none (rr 1#3 2#3)) rest)
      ∧ decode .mode64 [0xF0#8, 0x2E#8, 0x66#8, 0x67#8, 0x62#8, 0xF1#8, 0x7C#8, 0x68#8, 0x10#8, 0x84#8, 0x25#8, 0#8, 0#8, 0#8, 0#8]
          = .undefinedOpcode 15
      ∧ decode .mode64 [0xF0#8, 0xF3#8, 0x2E#8, 0x66#8, 0x67#8, 0x48#8, 0x62#8, 0xF1#8, 0x7C#8, 0x68#8, 0x10#8, 0x84#8, 0x25#8, 0#8, 0#8,
          0#8, 0#8] = .undefinedOpcode 17
      ∧ decode .mode64 [0xF3#8, 0x0F#8, 0x10#8, 0xCA#8] = .reject .notMovups := by
  exact ⟨by decide +kernel, ⟨by decide +kernel, List.replicate 14 0#8, by decide +kernel⟩, by decide, by decide, by decide⟩

theorem test_witness_StepExecutesEncoding :
    textFetchable (withCode launch [0x0F#8, 0x10#8, 0xCA#8]) = true
      ∧ Instr.wf (modeOf (withCode launch [0x0F#8, 0x10#8, 0xCA#8])) (.movupsLoad noPrefixes none (rr 1#3 2#3)) = true
      ∧ ∀ (n : Nat) (b : Byte), (encode (.movupsLoad noPrefixes none (rr 1#3 2#3)))[n]? = some b →
          ∃ a, codeAddress (withCode launch [0x0F#8, 0x10#8, 0xCA#8]) (pcOffset (withCode launch [0x0F#8, 0x10#8, 0xCA#8]) + n) = some a
            ∧ readByte (withCode launch [0x0F#8, 0x10#8, 0xCA#8]).mem a = b := by
  refine ⟨by decide +kernel, by decide +kernel, ?_⟩
  have henc : encode (.movupsLoad noPrefixes none (rr 1#3 2#3)) = [0x0F#8, 0x10#8, 0xCA#8] := by decide
  intro n b hb
  rw [henc] at hb
  match n with
  | 0 =>
    cases hb
    exact ⟨0x1000, by decide +kernel, by decide +kernel⟩
  | 1 =>
    cases hb
    exact ⟨0x1001, by decide +kernel, by decide +kernel⟩
  | 2 =>
    cases hb
    exact ⟨0x1002, by decide +kernel, by decide +kernel⟩
  | m + 3 => simp at hb

/-! ### Witnesses: #UD, #NM, #GP -/

/-- At the longest length that is no #GP. -/
theorem test_witness_ReservedVvvvRaisesUd :
    instrLength (.vex3Load128 { twoPrefixes with lock := true } (some rexAll) { v3 with vvvv := 14#4 } longest) ≤ 15
      ∧ vvvvOf (.vex3Load128 { twoPrefixes with lock := true } (some rexAll) { v3 with vvvv := 14#4 } longest) = some 14#4
      ∧ vvvvOf (.evexStore512 noPrefixes none { ev with vvvv := 0#4 } longest) = some 0#4 ∧ (14#4) ≠ 15#4 := by decide

/-- A machine with none of the four flags, and a form of each class. -/
theorem test_witness_MissingFeatureFlagRaisesUd :
    (classOf loadRax = .legacy ∧ instrLength loadRax ≤ 15 ∧ noFeatures.params.hasSse = false)
      ∧ (classOf (.vex2Load256 noPrefixes none v2 (rr 0#3 0#3)) = .vex
        ∧ instrLength (.vex2Load256 noPrefixes none v2 (rr 0#3 0#3)) ≤ 15 ∧ noFeatures.params.hasAvx = false)
      ∧ (classOf (.evexLoad512 noPrefixes none ev (rr 0#3 0#3)) = .evex
        ∧ instrLength (.evexLoad512 noPrefixes none ev (rr 0#3 0#3)) ≤ 15 ∧ noFeatures.params.hasAvx512f = false)
      ∧ (classOf (.evexLoad256 noPrefixes none ev (rr 0#3 0#3)) = .evex
        ∧ (moveOf (.evexLoad256 noPrefixes none ev (rr 0#3 0#3)) noFeatures).vl ≠ .l512
        ∧ noFeatures.params.hasAvx512vl = false) := by decide +kernel

theorem test_witness_LegacyControlBitsRaiseUd :
    classOf storeRax = .legacy ∧ instrLength storeRax ≤ 15 ∧ cr0Em { launch with cr0 := 0x60000015#64 } = true
      ∧ cr4Osfxsr { launch with cr4 := 0#64 } = false := by decide +kernel

theorem test_witness_VexControlBitsRaiseUd :
    classOf (.vex3Store128 noPrefixes none v3 (rr 0#3 0#3)) = .vex
      ∧ instrLength (.vex3Store128 noPrefixes none v3 (rr 0#3 0#3)) ≤ 15
      ∧ cr4Osxsave { launch with cr4 := 0x200#64 } = false ∧ ({ launch with xcr0 := 5#64 } : State).xcr0.getLsbD 1 = false
      ∧ ({ launch with xcr0 := 3#64 } : State).xcr0.getLsbD 2 = false := by decide +kernel

/-- One bit missing at a time. -/
theorem test_witness_EvexControlBitsRaiseUd :
    classOf (.evexLoad128 noPrefixes none ev (rr 0#3 0#3)) = .evex
      ∧ instrLength (.evexLoad128 noPrefixes none ev (rr 0#3 0#3)) ≤ 15 ∧ cr4Osxsave { launch with cr4 := 0x200#64 } = false
      ∧ (0xE5#64).getLsbD 1 = false ∧ (0xE3#64).getLsbD 2 = false ∧ (0xC7#64).getLsbD 5 = false
      ∧ (0xA7#64).getLsbD 6 = false ∧ (0x67#64).getLsbD 7 = false := by decide +kernel

theorem test_witness_LockPrefixRaisesUd :
    instrLength (.movupsStore { noPrefixes with lock := true } none ⟨0#3, .mem (rm0 0#3)⟩) ≤ 15
      ∧ (prefixesOf (.movupsStore { noPrefixes with lock := true } none ⟨0#3, .mem (rm0 0#3)⟩)).lock = true := by decide

theorem test_witness_PrefixBeforeVexRaisesUd :
    (classOf (.vex2Load128 { noPrefixes with rep := some .f3 } none v2 (rr 0#3 0#3)) = .vex
        ∧ instrLength (.vex2Load128 { noPrefixes with rep := some .f3 } none v2 (rr 0#3 0#3)) ≤ 15
        ∧ (prefixesOf (.vex2Load128 { noPrefixes with rep := some .f3 } none v2 (rr 0#3 0#3))).rep ≠ none)
      ∧ (classOf (.evexLoad128 noPrefixes (some rexAll) ev longest) = .evex
        ∧ instrLength (.evexLoad128 noPrefixes (some rexAll) ev longest) ≤ 15
        ∧ rexOf (.evexLoad128 noPrefixes (some rexAll) ev longest) ≠ none)
      ∧ (instrLength (.evexLoad128 { noPrefixes with opSize := true } none ev longest) ≤ 15
        ∧ (prefixesOf (.evexLoad128 { noPrefixes with opSize := true } none ev longest)).opSize = true) := by decide

theorem test_witness_VexInRealModeRaisesUd :
    modeOf realMode = .real ∧ modeOf { launch with eflags := 0x20002#32 } = .v86
      ∧ classOf (.vex2Load128 noPrefixes none v2 (rr 0#3 0#3)) = .vex
      ∧ instrLength (.vex2Load128 noPrefixes none v2 (rr 0#3 0#3)) ≤ 15 := by decide +kernel

/-- Each reserved field in turn. -/
theorem test_witness_ReservedEvexFieldsRaiseUd :
    (evexOf (.evexLoad512 noPrefixes none { ev with p0res := 1#2 } longest) = some { ev with p0res := 1#2 }
        ∧ instrLength (.evexLoad512 noPrefixes none { ev with p0res := 1#2 } longest) ≤ 15)
      ∧ { ev with p1fixed := false }.p1fixed = false ∧ { ev with w := true }.w = true ∧ { ev with b := true }.b = true
      ∧ ({ ev with z := true }.z = true ∧ { ev with z := true }.aaa = 0#3)
      ∧ ({ evk with z := true }.z = true
        ∧ evexOf (.evexStore512 noPrefixes none { evk with z := true } ⟨0#3, .mem (rm0 7#3)⟩) = some { evk with z := true }
        ∧ storedOperand (.evexStore512 noPrefixes none { evk with z := true } ⟨0#3, .mem (rm0 7#3)⟩) launch ≠ none)
      ∧ modeOf launch = .mode64 ∧ { ev with vpInv := false }.vpInv = false := by decide +kernel

theorem test_witness_TaskSwitchedRaisesNm :
    instrLength loadRax ≤ 15 ∧ undefinedOf loadRax { launch with cr0 := 0x60000019#64 } = false
      ∧ refusesOf loadRax { launch with cr0 := 0x60000019#64 } = none ∧ cr0Ts { launch with cr0 := 0x60000019#64 } = true := by
  decide +kernel

/-- 16 bytes, the shortest that is too long. -/
theorem test_witness_TooLongRaisesGp :
    instrLength (.evexLoad512 { twoPrefixes with lock := true, opSize := true } (some rexAll) ev
      ⟨0#3, .mem ⟨.m10, 4#3, some ⟨0#2, 4#3, 5#3⟩, .d32 0#32⟩⟩) = 16 := by decide

theorem test_witness_RefusedEncodings :
    (undefinedOf (.vex3Load128 noPrefixes none { v3 with bInv := false } (rr 0#3 0#3)) prot = false ∧ modeOf prot ≠ .mode64)
      ∧ undefinedOf (.evexLoad512 noPrefixes none { ev with rpInv := false } (rr 0#3 0#3)) prot = false
      ∧ undefinedOf (.evexStore256 noPrefixes none { ev with vpInv := false } (rr 0#3 0#3)) prot = false
      ∧ undefinedOf (.evexStore128 { noPrefixes with addrSize := true } none ev ⟨0#3, .mem (rm0 0#3)⟩) prot = false
      ∧ (ev.bInv = true ∧ ev.rpInv = true ∧ ev.vpInv = true ∧ isMemRm ⟨0#3, .mem (rm0 0#3)⟩ = true)
      ∧ addrSize (modeOf prot) true = .a16 := by decide +kernel

/-! ### Witnesses: exceptions of a memory operand -/

/-- A page fault and another fault. -/
theorem test_witness_FaultChangesOnlyCr2 :
    (∃ code address ra, exec loadRax paged = .fault (.exception (.pageFault code address) ra))
      ∧ exec loadRax (atRax 0x800000000000#64) = .fault (.exception .generalProtection 0x1000#64) :=
  ⟨exists_pageFault (by decide +kernel), raises_of_faultsWith (by decide +kernel)⟩

/-- Length 17; a non-canonical last byte (L11); an offset 10000H in real mode; a limit. -/
theorem test_witness_GpHasNoOtherCause :
    raises (.evexLoad512 allPrefixes (some rexAll) ev longest) launch .generalProtection
      ∧ raises loadRax (atRax 0x7FFFFFFFFFF1#64) .generalProtection
      ∧ raises (.movupsLoad noPrefixes none ⟨0#3, .mem (rm0 7#3)⟩) (withGpr realMode 3 0xFFF1#64) .generalProtection
      ∧ raises loadRax { withGpr prot 0 0xFFF1#64 with segs := State.reset.segs } .generalProtection :=
  ⟨raises_of_faultsWith (by decide +kernel), raises_of_faultsWith (by decide +kernel),
    raises_of_faultsWith (by decide +kernel), raises_of_faultsWith (by decide +kernel)⟩

/-- L11 with only the last byte non-canonical, and L12 with base RBP. -/
theorem test_witness_NonCanonicalOperandFaults :
    (reachesOperand loadRax (atRax 0x7FFFFFFFFFF1#64) ∧ memOperand loadRax (atRax 0x7FFFFFFFFFF1#64) = some (rm0 0#3)
        ∧ modeOf (atRax 0x7FFFFFFFFFF1#64) = .mode64
        ∧ 15 ∈ (accessOf loadRax (atRax 0x7FFFFFFFFFF1#64) (rm0 0#3)).offs
        ∧ canonical (atRax 0x7FFFFFFFFFF1#64).params.laBits
            (linear64 (atRax 0x7FFFFFFFFFF1#64) (accessOf loadRax (atRax 0x7FFFFFFFFFF1#64) (rm0 0#3)) + 15) = false)
      ∧ faultsWith (step (withCode (withGpr launch 5 0x7FFFFFFFFFF8#64) [0x0F#8, 0x10#8, 0x45#8, 0x00#8])) .stackFault 0x1000#64
          = true := by
  unfold reachesOperand
  decide +kernel

/-- Each violation at its boundary: real mode and V86 past FFFFH, a limit, a null selector, no read right, no write right,
16-bit addressing past FFFFH. -/
theorem test_witness_SegmentViolationFaults :
    (reachesOperand (.movupsLoad noPrefixes none ⟨0#3, .mem (rm0 7#3)⟩) (withGpr realMode 3 0xFFF1#64)
        ∧ 0xFFFF < (accessOf (.movupsLoad noPrefixes none ⟨0#3, .mem (rm0 7#3)⟩) (withGpr realMode 3 0xFFF1#64) (rm0 7#3)).ea.toNat + 15)
      ∧ (modeOf { withGpr prot 3 0xFFF1#64 with eflags := 0x20002#32 } = .v86
        ∧ 0xFFFF < (accessOf (.movupsLoad noPrefixes none ⟨0#3, .mem (rm0 7#3)⟩)
            { withGpr prot 3 0xFFF1#64 with eflags := 0x20002#32 } (rm0 7#3)).ea.toNat + 15)
      ∧ (reachesOperand loadRax { withGpr prot 0 0xFFF1#64 with segs := State.reset.segs } ∧ modeOf prot = .prot32
        ∧ (segRegister { withGpr prot 0 0xFFF1#64 with segs := State.reset.segs } .ds).limit.toNat
            < (accessOf loadRax { withGpr prot 0 0xFFF1#64 with segs := State.reset.segs } (rm0 0#3)).ea.toNat + 15)
      ∧ (reachesOperand storeRax { prot with segs := { prot.segs with ds := { flatSegment with writable := false } } }
        ∧ (moveOf storeRax prot).dir = .store
        ∧ (segRegister { prot with segs := { prot.segs with ds := { flatSegment with writable := false } } } .ds).writable = false
        ∧ (segRegister { prot with segs := { prot.segs with ds := { flatSegment with isNull := true, readable := false } } } .ds).isNull
            = true)
      ∧ ((accessOf (.movupsLoad { noPrefixes with addrSize := true } none ⟨0#3, .mem (rm0 7#3)⟩) (withGpr prot 3 0xFFF1#64) (rm0 7#3)).asz
            = .a16
        ∧ 0xFFFF < (accessOf (.movupsLoad { noPrefixes with addrSize := true } none ⟨0#3, .mem (rm0 7#3)⟩) (withGpr prot 3 0xFFF1#64)
            (rm0 7#3)).ea.toNat + 15) := by
  unfold reachesOperand
  decide +kernel

theorem test_witness_StackSegmentSelectsSs :
    (Mode.prot32 ≠ .mode64) ∧ (SegReg.gs = .fs ∨ SegReg.gs = .gs) ∧ (SegReg.ss ≠ .fs ∧ SegReg.ss ≠ .gs)
      ∧ decide (SegReg.cs = .ss) = decide (SegReg.ds = .ss) := by decide

/-- L9: a CPL 3 read of a page that is not mapped has code 04H. -/
theorem test_witness_VectorsAndErrorCodes :
    paged.translation = .pages [plainPage 1, plainPage 2] ∧ Machine.translate paged 0x3000 .read = .error 4#32 :=
  ⟨by decide +kernel, translate_of_fails (by decide +kernel)⟩

theorem test_witness_PageRefusesExactly :
    paged.translation = .pages [plainPage 1, plainPage 2] ∧ modeOf paged ≠ .real := by decide +kernel

/-- L9: byte 8 is the first of the absent page. -/
theorem test_witness_RefusedPageRaisesPf :
    reachesOperand loadRax paged ∧ memOperand loadRax paged = some (rm0 0#3)
      ∧ segCheck paged (accessOf loadRax paged (rm0 0#3)) = .next 0x2FF8
      ∧ noAlignmentFault paged (accessOf loadRax paged (rm0 0#3)) 0x2FF8
      ∧ 8 ∈ (accessOf loadRax paged (rm0 0#3)).offs
      ∧ Machine.translate paged (0x2FF8 + 8) (accessKind (accessOf loadRax paged (rm0 0#3))) = .error 4#32
      ∧ (reachesOperand loadRax pagedNever ∧ memOperand loadRax pagedNever = some (rm0 0#3)
        ∧ segCheck pagedNever (accessOf loadRax pagedNever (rm0 0#3)) = .next 0x2FF9
        ∧ alignmentChecking pagedNever = true ∧ noAlignmentFault pagedNever (accessOf loadRax pagedNever (rm0 0#3)) 0x2FF9
        ∧ Machine.translate pagedNever (0x2FF9 + 7) (accessKind (accessOf loadRax pagedNever (rm0 0#3))) = .error 4#32) := by
  refine ⟨?_, by decide +kernel, eq_next_of_isNext (by decide +kernel), .inl (by decide +kernel), by decide +kernel,
    translate_of_fails (by decide +kernel), ?_, by decide +kernel, eq_next_of_isNext (by decide +kernel), by decide +kernel,
    .inr (.inl (by decide +kernel)), translate_of_fails (by decide +kernel)⟩ <;>
  · unfold reachesOperand
    decide +kernel

theorem test_witness_PageFaultNamesAnAccessedByte :
    ∃ code address ra, exec loadRax paged = .fault (.exception (.pageFault code address) ra) :=
  exists_pageFault (by decide +kernel)

/-- An operand at 2003H is misaligned to every granule; the model's granule is not known. -/
theorem test_witness_AlignmentCheckRaisesAc :
    (memOperand loadRax alignChecked = some (rm0 0#3)
        ∧ segCheck alignChecked (accessOf loadRax alignChecked (rm0 0#3)) = .next 0x2003)
      ∧ raises loadRax alignChecked .alignmentCheck
      ∧ reachesOperand loadRax alignChecked ∧ (accessOf loadRax alignChecked (rm0 0#3)).offs ≠ []
      ∧ alignmentChecking alignChecked = true ∧ acPolicy alignChecked (classOf loadRax) = .always ∧ 0x2003 % 4 ≠ 0
      ∧ ∀ k ∈ (accessOf loadRax alignChecked (rm0 0#3)).offs,
          ∃ pa, Machine.translate alignChecked (0x2003 + k) (accessKind (accessOf loadRax alignChecked (rm0 0#3))) = .ok pa := by
  have hs : segCheck alignChecked (accessOf loadRax alignChecked (rm0 0#3)) = .next 0x2003 := eq_next_of_isNext (by decide +kernel)
  have hp : pageFaults alignChecked (accessOf loadRax alignChecked (rm0 0#3)) 0x2003 = [] := by decide +kernel
  have hg : ∀ g : Granule, 0x2003 % g.bytes ≠ 0 := by intro g; cases g <;> decide
  have ha : alignmentFault alignChecked (accessOf loadRax alignChecked (rm0 0#3)) 0x2003 = true := by
    unfold alignmentFault
    rw [decide_eq_true (hg _)]
    decide +kernel
  have he : entryChecks alignChecked (moveOf loadRax alignChecked).ilen (undefinedOf loadRax alignChecked)
      (refusesOf loadRax alignChecked) = .next () := eq_next_of_isNext (by decide +kernel)
  have hne : (accessOf loadRax alignChecked (rm0 0#3)).offs.isEmpty = false := by decide +kernel
  refine ⟨⟨by decide +kernel, hs⟩, ?_, ?_, by decide +kernel, by decide +kernel, by decide +kernel, by decide, ?_⟩
  · unfold raises
    rw [exec_eq_execMove]
    unfold execMove
    rw [he]
    have hr : resolve alignChecked (accessOf loadRax alignChecked (rm0 0#3)) = raise .alignmentCheck alignChecked := by
      unfold resolve
      rw [hne, hs]
      simp only [andThen, hp, ha]
      rfl
    show andThen (memRead alignChecked (accessOf loadRax alignChecked (rm0 0#3))) _ = _
    unfold memRead
    rw [hr]
    rfl
  · unfold reachesOperand
    decide +kernel
  · exact pageFaults_eq_nil_iff.1 hp

/-- Protected mode with the base of DS at 10H. -/
def protDs10 : State := { prot with segs := { prot.segs with ds := { flatSegment with base := 0x10#64 } } }

/-- A device at 200FH; the text at 200FH; in protected mode an operand whose offset wraps, and one whose linear address wraps while
its offset does not. -/
theorem test_witness_RefusedAccesses :
    refusedWith (exec loadRax { atRax 0x2000#64 with devices := [⟨0x200F, 1⟩] }) .deviceMemory = true
      ∧ refusedWith (exec storeRax { atRax 0x2000#64 with textBase := 0x200F#64, textLen := 1 }) .storeToText = true
      ∧ refusedWith (exec loadRax (withGpr prot 0 0xFFFFFFF1#64)) .operandWraps = true
      ∧ reachesOperand loadRax { atRax 0x2000#64 with devices := [⟨0x200F, 1⟩] }
      ∧ accessibleAt (atRax 0x2000#64) (accessOf loadRax (atRax 0x2000#64) (rm0 0#3)) 0x2000 (fun k => 0x2000 + k) = true
      ∧ reachesOperand loadRax (withGpr prot 0 0xFFFFFFF1#64) ∧ modeOf (withGpr prot 0 0xFFFFFFF1#64) ≠ .mode64
      ∧ 15 ∈ (accessOf loadRax (withGpr prot 0 0xFFFFFFF1#64) (rm0 0#3)).offs
      ∧ 2 ^ 32 ≤ (accessOf loadRax (withGpr prot 0 0xFFFFFFF1#64) (rm0 0#3)).ea.toNat + 15
      ∧ reachesOperand loadRax (withGpr protDs10 0 0xFFFFFFE8#64) ∧ modeOf (withGpr protDs10 0 0xFFFFFFE8#64) ≠ .mode64
      ∧ refusedWith (exec loadRax (withGpr protDs10 0 0xFFFFFFE8#64)) .operandWraps = true
      ∧ 15 ∈ (accessOf loadRax (withGpr protDs10 0 0xFFFFFFE8#64) (rm0 0#3)).offs
      ∧ (accessOf loadRax (withGpr protDs10 0 0xFFFFFFE8#64) (rm0 0#3)).ea.toNat + 15 < 2 ^ 32
      ∧ 2 ^ 32 ≤ linear32 (withGpr protDs10 0 0xFFFFFFE8#64) (accessOf loadRax (withGpr protDs10 0 0xFFFFFFE8#64) (rm0 0#3)) + 15 := by
  unfold reachesOperand
  decide +kernel

/-! ### Witnesses: completion -/

/-- Alignment checking on, AC_POLICY `Never`: a misaligned operand is accessible in each class. -/
theorem test_witness_accessible_never :
    alignmentChecking neverChecked = true
      ∧ accessible neverChecked (accessOf loadRax neverChecked (rm0 0#3)) (fun k => 0x2003 + k)
      ∧ accessible neverChecked (accessOf (.vex2Store256 noPrefixes none v2 ⟨1#3, .mem (rm0 0#3)⟩) neverChecked (rm0 0#3))
          (fun k => 0x2003 + k)
      ∧ accessible neverChecked (accessOf (.evexLoad512 noPrefixes none ev ⟨1#3, .mem (rm0 0#3)⟩) neverChecked (rm0 0#3))
          (fun k => 0x2003 + k) :=
  ⟨by decide +kernel, accessible_of_check (la := 0x2003) (by decide +kernel), accessible_of_check (la := 0x2003) (by decide +kernel),
    accessible_of_check (la := 0x2003) (by decide +kernel)⟩

theorem legacyUsable_launch (x : BitVec 64) : legacyUsable (atRax x) ∧ cr0Ts (atRax x) = false := by
  unfold legacyUsable
  exact ⟨⟨rfl, by simp [cr0Em, atRax, withGpr, launch], by simp [cr4Osfxsr, atRax, withGpr, launch]⟩,
    by simp [cr0Ts, atRax, withGpr, launch]⟩

/-- The longest usable encoding, and real mode. -/
theorem test_witness_LegacyRegisterCopyCompletes :
    (legacyUsable launch ∧ cr0Ts launch = false) ∧ (legacyUsable realMode ∧ cr0Ts realMode = false)
      ∧ { allPrefixes with lock := false }.lock = false := by
  unfold legacyUsable
  decide +kernel

/-- The last operand below the canonical boundary. -/
theorem test_witness_LegacyLoadCompletes :
    (legacyUsable (atRax 0x7FFFFFFFFFF0#64) ∧ cr0Ts (atRax 0x7FFFFFFFFFF0#64) = false)
      ∧ accessible (atRax 0x7FFFFFFFFFF0#64) (accessOf loadRax (atRax 0x7FFFFFFFFFF0#64) (rm0 0#3)) (fun k => 0x7FFFFFFFFFF0 + k) :=
  ⟨legacyUsable_launch _, accessible_of_check (la := 0x7FFFFFFFFFF0) (by decide +kernel)⟩

/-- The first operand above the canonical boundary. -/
theorem test_witness_LegacyStoreCompletes :
    (legacyUsable (atRax 0xFFFF800000000000#64) ∧ cr0Ts (atRax 0xFFFF800000000000#64) = false)
      ∧ (atRax 0xFFFF800000000000#64).mem.wf
      ∧ accessible (atRax 0xFFFF800000000000#64) (accessOf storeRax (atRax 0xFFFF800000000000#64) (rm0 0#3))
          (fun k => 0xFFFF800000000000 + k) :=
  ⟨legacyUsable_launch _, by decide, accessible_of_check (la := 0xFFFF800000000000) (by decide +kernel)⟩

theorem vexUsable_atRax : vex2Usable (atRax 0x2003#64) noPrefixes none v2 ∧ vex3Usable (atRax 0x2003#64) noPrefixes none v3 := by
  unfold vex2Usable vex3Usable vexUsable plainPrefixes vex3BitsOk
  decide +kernel

theorem maxvl_atRax (vl : VecLen) : vl.bits ≤ (atRax 0x2003#64).params.maxvl.bits := by
  cases vl <;> simp [VecLen.bits, atRax, withGpr, launch, State.reset, Params.defaults]

theorem test_witness_VexRegisterCopyCompletes :
    cr0Ts (atRax 0x2003#64) = false ∧ vex2Usable (atRax 0x2003#64) noPrefixes none v2
      ∧ vex3Usable (atRax 0x2003#64) noPrefixes none v3
      ∧ (∀ f ∈ vex2Loads ++ vex2Stores, f.1.bits ≤ (atRax 0x2003#64).params.maxvl.bits)
      ∧ ∀ f ∈ vex3Loads ++ vex3Stores, f.1.bits ≤ (atRax 0x2003#64).params.maxvl.bits := by
  refine ⟨by decide +kernel, vexUsable_atRax.1, vexUsable_atRax.2, ?_, ?_⟩
  · simp [vex2Loads, vex2Stores, VecLen.bits, atRax, withGpr, launch, State.reset, Params.defaults]
  · simp [vex3Loads, vex3Stores, VecLen.bits, atRax, withGpr, launch, State.reset, Params.defaults]

theorem test_witness_VexLoadCompletes :
    (∀ vl : VecLen, vl.bits ≤ (atRax 0x2003#64).params.maxvl.bits) ∧ cr0Ts (atRax 0x2003#64) = false ∧ vex2Usable (atRax 0x2003#64) noPrefixes none v2
      ∧ vex3Usable (atRax 0x2003#64) noPrefixes none v3
      ∧ (∀ f ∈ vex2Loads, accessible (atRax 0x2003#64)
          (accessOf (f.2 noPrefixes none v2 ⟨1#3, .mem (rm0 0#3)⟩) (atRax 0x2003#64) (rm0 0#3)) fun k => 0x2003 + k)
      ∧ ∀ f ∈ vex3Loads, accessible (atRax 0x2003#64)
          (accessOf (f.2 noPrefixes none v3 ⟨1#3, .mem (rm0 0#3)⟩) (atRax 0x2003#64) (rm0 0#3)) fun k => 0x2003 + k := by
  refine ⟨maxvl_atRax, by decide +kernel, vexUsable_atRax.1, vexUsable_atRax.2, ?_, ?_⟩
  · intro f hf
    simp only [vex2Loads, List.mem_cons, List.not_mem_nil, or_false] at hf
    rcases hf with rfl | rfl <;> exact accessible_of_check (la := 0x2003) (by decide +kernel)
  · intro f hf
    simp only [vex3Loads, List.mem_cons, List.not_mem_nil, or_false] at hf
    rcases hf with rfl | rfl <;> exact accessible_of_check (la := 0x2003) (by decide +kernel)

theorem test_witness_VexStoreCompletes :
    (∀ vl : VecLen, vl.bits ≤ (atRax 0x2003#64).params.maxvl.bits) ∧ cr0Ts (atRax 0x2003#64) = false ∧ (atRax 0x2003#64).mem.wf ∧ vex2Usable (atRax 0x2003#64) noPrefixes none v2
      ∧ vex3Usable (atRax 0x2003#64) noPrefixes none v3
      ∧ (∀ f ∈ vex2Stores, accessible (atRax 0x2003#64)
          (accessOf (f.2 noPrefixes none v2 ⟨1#3, .mem (rm0 0#3)⟩) (atRax 0x2003#64) (rm0 0#3)) fun k => 0x2003 + k)
      ∧ ∀ f ∈ vex3Stores, accessible (atRax 0x2003#64)
          (accessOf (f.2 noPrefixes none v3 ⟨1#3, .mem (rm0 0#3)⟩) (atRax 0x2003#64) (rm0 0#3)) fun k => 0x2003 + k := by
  refine ⟨maxvl_atRax, by decide +kernel, by decide, vexUsable_atRax.1, vexUsable_atRax.2, ?_, ?_⟩
  · intro f hf
    simp only [vex2Stores, List.mem_cons, List.not_mem_nil, or_false] at hf
    rcases hf with rfl | rfl <;> exact accessible_of_check (la := 0x2003) (by decide +kernel)
  · intro f hf
    simp only [vex3Stores, List.mem_cons, List.not_mem_nil, or_false] at hf
    rcases hf with rfl | rfl <;> exact accessible_of_check (la := 0x2003) (by decide +kernel)

/-- Merging with k1 = 5, register and memory operands, every length. -/
theorem evexUsable_atRax (vl : VecLen) (d : Direction) :
    evexEncUsable (withMask (atRax 0x2003#64) 1 5#64) vl d noPrefixes none evk (rr 1#3 2#3)
      ∧ evexEncUsable (withMask (atRax 0x2003#64) 1 5#64) vl d noPrefixes none evk ⟨1#3, .mem (rm0 0#3)⟩ := by
  have h1 : evexUsable (withMask (atRax 0x2003#64) 1 5#64) vl := by
    unfold evexUsable
    cases vl <;> decide +kernel
  have h2 : plainPrefixes noPrefixes none := ⟨rfl, rfl, rfl, rfl⟩
  have h3 : ∀ m, evexFieldsOk d evk m := fun m => ⟨rfl, rfl, rfl, rfl, rfl, rfl, fun h => by cases h⟩
  have h4 : ∀ m, evexAddressOk (withMask (atRax 0x2003#64) 1 5#64) noPrefixes m := fun _ _ => by decide +kernel
  exact ⟨⟨h1, h2, h3 _, .inr ⟨rfl, rfl⟩, h4 _⟩, ⟨h1, h2, h3 _, .inr ⟨rfl, rfl⟩, h4 _⟩⟩

theorem test_witness_EvexRegisterCopyCompletes :
    cr0Ts (withMask (atRax 0x2003#64) 1 5#64) = false
      ∧ (∀ f ∈ evexLoads ++ evexStores, f.1.bits ≤ (withMask (atRax 0x2003#64) 1 5#64).params.maxvl.bits)
      ∧ (∀ f ∈ evexLoads, evexEncUsable (withMask (atRax 0x2003#64) 1 5#64) f.1 .load noPrefixes none evk (rr 1#3 2#3))
      ∧ ∀ f ∈ evexStores, evexEncUsable (withMask (atRax 0x2003#64) 1 5#64) f.1 .store noPrefixes none evk
          (rr 1#3 2#3) := by
  refine ⟨by decide +kernel, ?_, fun f _ => (evexUsable_atRax f.1 .load).1, fun f _ => (evexUsable_atRax f.1 .store).1⟩
  simp [evexLoads, evexStores, VecLen.bits, withMask, atRax, withGpr, launch, State.reset, Params.defaults]

/-- Elements 0 and 2; and an empty mask, whose operand need not be canonical (E13). -/
theorem test_witness_EvexLoadCompletes :
    (∀ vl : VecLen, vl.bits ≤ (withMask (atRax 0x2003#64) 1 5#64).params.maxvl.bits)
      ∧ cr0Ts (withMask (atRax 0x2003#64) 1 5#64) = false
      ∧ (∀ f ∈ evexLoads,
          evexEncUsable (withMask (atRax 0x2003#64) 1 5#64) f.1 .load noPrefixes none evk ⟨1#3, .mem (rm0 0#3)⟩
          ∧ accessible (withMask (atRax 0x2003#64) 1 5#64) (accessOf (f.2 noPrefixes none evk ⟨1#3, .mem (rm0 0#3)⟩)
              (withMask (atRax 0x2003#64) 1 5#64) (rm0 0#3)) fun k => 0x2003 + k)
      ∧ accessible (atRax 0x800000000000#64) (accessOf (.evexLoad512 noPrefixes none evk ⟨1#3, .mem (rm0 0#3)⟩)
          (atRax 0x800000000000#64) (rm0 0#3)) (fun _ => 0) := by
  refine ⟨maxvl_atRax, by decide +kernel, ?_, .inl (by decide +kernel)⟩
  intro f hf
  refine ⟨(evexUsable_atRax f.1 .load).2, ?_⟩
  simp only [evexLoads, List.mem_cons, List.not_mem_nil, or_false] at hf
  rcases hf with rfl | rfl | rfl <;> exact accessible_of_check (la := 0x2003) (by decide +kernel)

theorem test_witness_EvexStoreCompletes :
    (∀ vl : VecLen, vl.bits ≤ (withMask (atRax 0x2003#64) 1 5#64).params.maxvl.bits)
      ∧ cr0Ts (withMask (atRax 0x2003#64) 1 5#64) = false ∧ (withMask (atRax 0x2003#64) 1 5#64).mem.wf
      ∧ ∀ f ∈ evexStores,
          evexEncUsable (withMask (atRax 0x2003#64) 1 5#64) f.1 .store noPrefixes none evk ⟨1#3, .mem (rm0 0#3)⟩
          ∧ accessible (withMask (atRax 0x2003#64) 1 5#64) (accessOf (f.2 noPrefixes none evk ⟨1#3, .mem (rm0 0#3)⟩)
              (withMask (atRax 0x2003#64) 1 5#64) (rm0 0#3)) fun k => 0x2003 + k := by
  refine ⟨maxvl_atRax, by decide +kernel, by decide, ?_⟩
  intro f hf
  refine ⟨(evexUsable_atRax f.1 .store).2, ?_⟩
  simp only [evexStores, List.mem_cons, List.not_mem_nil, or_false] at hf
  rcases hf with rfl | rfl | rfl <;> exact accessible_of_check (la := 0x2003) (by decide +kernel)

theorem test_witness_FlatOperandIsAccessible :
    memOperand storeRax (atRax 0x7FFFFFFFFFF0#64) = some (rm0 0#3) ∧ modeOf (atRax 0x7FFFFFFFFFF0#64) = .mode64
      ∧ (atRax 0x7FFFFFFFFFF0#64).translation = .identity ∧ (atRax 0x7FFFFFFFFFF0#64).devices = []
      ∧ noAlignmentFault (atRax 0x7FFFFFFFFFF0#64) (accessOf storeRax (atRax 0x7FFFFFFFFFF0#64) (rm0 0#3))
          (linear64 (atRax 0x7FFFFFFFFFF0#64) (accessOf storeRax (atRax 0x7FFFFFFFFFF0#64) (rm0 0#3)))
      ∧ (∀ k ∈ (accessOf storeRax (atRax 0x7FFFFFFFFFF0#64) (rm0 0#3)).offs,
          canonical (atRax 0x7FFFFFFFFFF0#64).params.laBits
            (linear64 (atRax 0x7FFFFFFFFFF0#64) (accessOf storeRax (atRax 0x7FFFFFFFFFF0#64) (rm0 0#3)) + k) = true)
      ∧ ∀ k ∈ (accessOf storeRax (atRax 0x7FFFFFFFFFF0#64) (rm0 0#3)).offs,
          inText (atRax 0x7FFFFFFFFFF0#64)
            (linear64 (atRax 0x7FFFFFFFFFF0#64) (accessOf storeRax (atRax 0x7FFFFFFFFFF0#64) (rm0 0#3)) + k) = false := by
  refine ⟨by decide +kernel, by decide +kernel, by decide +kernel, by decide +kernel, .inl (by decide +kernel), ?_⟩
  decide +kernel

/-! ### Witnesses: frames, the invariant, independence -/

/-- A register destination and a memory destination. -/
theorem test_witness_NothingButDestinationWritten :
    (∃ t, exec loadRax (atRax 0x2003#64) = .next t ∧ true = true) ∧ (∃ t, exec storeRax (atRax 0x2003#64) = .next t ∧ true = true)
      ∧ (atRax 0x2003#64).mem.wf ∧ storedOperand storeRax (atRax 0x2003#64) = some (rm0 0#3)
      ∧ storedOperand loadRax (atRax 0x2003#64) = none
      ∧ destReg loadRax (atRax 0x2003#64) = some 0#5 :=
  ⟨exists_next (f := fun _ => true) (by decide +kernel), exists_next (f := fun _ => true) (by decide +kernel), by decide,
    by decide +kernel, by decide +kernel, by decide +kernel⟩

/-- P1 of the vectors, at its two steps: a load, a store. -/
theorem test_witness_RunsKeepControlState :
    ∃ t, steps 2 (withCode (withGpr (withGpr launch 6 0x2003#64) 7 0x4009#64) [0x0F#8, 0x10#8, 0x06#8, 0x0F#8, 0x11#8, 0x07#8])
      = .next t ∧ (t.pc == 0x1006#64) = true :=
  exists_next (f := fun t => t.pc == 0x1006#64) (by decide +kernel)

theorem machineInv_launch : machineInv launch := by
  refine ⟨by decide, ?_, by unfold pcFits; decide +kernel, by decide⟩
  intro r
  simp [readVec, launch, State.reset, lowPart]

theorem test_witness_StepKeepsInvariant :
    machineInv (withCode launch [0x0F#8, 0x10#8, 0xCA#8])
      ∧ ∃ t, step (withCode launch [0x0F#8, 0x10#8, 0xCA#8]) = .next t ∧ true = true :=
  ⟨⟨by decide +kernel, machineInv_launch.2⟩, exists_next (f := fun _ => true) (by decide +kernel)⟩

theorem test_witness_TwoEncodingsOfACopyAgree :
    modeOf launch = .mode64 ∧ (modeOf prot ≠ .mode64 ∧ v3.rInv = true ∧ v3.bInv = true)
      ∧ (ev.rInv = true ∧ ev.xInv = true ∧ ev.bInv = true ∧ ev.rpInv = true) := by decide +kernel

/-- E3: K1 = FFF5H and K1 = 5 agree below KL = 4. -/
theorem test_witness_HighMaskBitsAreIgnored :
    evk.aaa ≠ 0#3
      ∧ ∀ j, j < VecLen.l128.elems →
          ((withMask launch 1 0xFFF5#64).k[1]).getLsbD j = ((withMask launch 1 5#64).k[1]).getLsbD j := by decide +kernel

theorem test_witness_LoadsReadOnlySelectedBytes :
    (moveOf loadRax (atRax 0x2003#64)).dir = .load ∧ (∃ t, exec loadRax (atRax 0x2003#64) = .next t ∧ true = true)
      ∧ memOperand loadRax (atRax 0x2003#64) = some (rm0 0#3)
      ∧ segCheck (atRax 0x2003#64) (accessOf loadRax (atRax 0x2003#64) (rm0 0#3)) = .next 0x2003
      ∧ readByte [(0x2002, 1#8)] 0x2003 = readByte (atRax 0x2003#64).mem 0x2003 :=
  ⟨by decide +kernel, exists_next (f := fun _ => true) (by decide +kernel), by decide +kernel,
    eq_next_of_isNext (by decide +kernel), by decide +kernel⟩

/-- The last element of the operand. -/
theorem test_witness_LoadedElementsAreLittleEndian :
    (moveOf loadRax (atRax 0x2003#64)).dir = .load ∧ memOperand loadRax (atRax 0x2003#64) = some (rm0 0#3)
      ∧ (moveOf loadRax (atRax 0x2003#64)).vl.bits ≤ (atRax 0x2003#64).params.maxvl.bits
      ∧ accessible (atRax 0x2003#64) (accessOf loadRax (atRax 0x2003#64) (rm0 0#3)) (fun k => 0x2003 + k)
      ∧ (∃ t, exec loadRax (atRax 0x2003#64) = .next t ∧ true = true)
      ∧ 4 * 3 ∈ (accessOf loadRax (atRax 0x2003#64) (rm0 0#3)).offs :=
  ⟨by decide +kernel, by decide +kernel, by decide +kernel, accessible_of_check (la := 0x2003) (by decide +kernel),
    exists_next (f := fun _ => true) (by decide +kernel), by decide +kernel⟩
/-- A store to 2003H and a load from 2004H: byte 1 of the one is byte 0 of the other. -/
theorem test_witness_LoadReturnsStoredBytes :
    ∃ t u, (atRax 0x2003#64).mem.wf ∧ exec storeRax (atRax 0x2003#64) = .next t
      ∧ exec (.movupsLoad noPrefixes none ⟨1#3, .mem ⟨.m01, 0#3, none, .d8 1#8⟩⟩) t = .next u
      ∧ storedOperand storeRax (atRax 0x2003#64) = some (rm0 0#3)
      ∧ (moveOf (.movupsLoad noPrefixes none ⟨1#3, .mem ⟨.m01, 0#3, none, .d8 1#8⟩⟩) t).dir = .load
      ∧ (moveOf (.movupsLoad noPrefixes none ⟨1#3, .mem ⟨.m01, 0#3, none, .d8 1#8⟩⟩) t).vl.bits ≤ t.params.maxvl.bits
      ∧ segCheck (atRax 0x2003#64) (accessOf storeRax (atRax 0x2003#64) (rm0 0#3)) = .next 0x2003
      ∧ segCheck t (accessOf (.movupsLoad noPrefixes none ⟨1#3, .mem ⟨.m01, 0#3, none, .d8 1#8⟩⟩) t ⟨.m01, 0#3, none, .d8 1#8⟩)
          = .next 0x2004
      ∧ 1 ∈ (accessOf storeRax (atRax 0x2003#64) (rm0 0#3)).offs
      ∧ 0 ∈ (accessOf (.movupsLoad noPrefixes none ⟨1#3, .mem ⟨.m01, 0#3, none, .d8 1#8⟩⟩) t ⟨.m01, 0#3, none, .d8 1#8⟩).offs
      ∧ Machine.translate (atRax 0x2003#64) (0x2003 + 1) .write = .ok 0x2004 ∧ Machine.translate t (0x2004 + 0) .read = .ok 0x2004 := by
  obtain ⟨t, h1, h2⟩ := exists_next (o := exec storeRax (atRax 0x2003#64))
    (f := fun t =>
      nextAnd (exec (.movupsLoad noPrefixes none ⟨1#3, .mem ⟨.m01, 0#3, none, .d8 1#8⟩⟩) t) (fun _ => true)
        && isNext (segCheck t (accessOf (.movupsLoad noPrefixes none ⟨1#3, .mem ⟨.m01, 0#3, none, .d8 1#8⟩⟩) t
            ⟨.m01, 0#3, none, .d8 1#8⟩)) 0x2004
        && decide ((moveOf (.movupsLoad noPrefixes none ⟨1#3, .mem ⟨.m01, 0#3, none, .d8 1#8⟩⟩) t).vl.bits ≤ t.params.maxvl.bits)
        && decide (t.translation = .identity))
    (by decide +kernel)
  simp only [Bool.and_eq_true, decide_eq_true_eq] at h2
  obtain ⟨u, h3, _⟩ := exists_next h2.1.1.1
  exact ⟨t, u, by decide, h1, h3, by decide +kernel, rfl, h2.1.2, eq_next_of_isNext (by decide +kernel),
    eq_next_of_isNext h2.1.1.2, by decide +kernel, by
      simp only [accessOf, moveAccess, moveOf, legacyMove]
      decide +kernel, rfl, by simp [Machine.translate, h2.2]⟩

theorem test_witness_ResetLeavesTheListedValues : (0 : Fin 16) ≠ 2 := by decide

theorem test_witness_NothingExecutesAfterReset : instrLength storeRax ≤ 15 := by decide

/-! ### Witnesses: addresses -/

/-- A 32- and a 64-bit address, a 16-bit one with an extension record, the three groups of modes, an FS and a DS operand. -/
theorem test_witness_EffectiveAddressIsExactSum :
    (AddrSize.a32 ≠ .a16 ∧ AddrSize.a64 ≠ .a16)
      ∧ (modeOf launch = .mode64 ∧ (accessOf loadRax launch (rm0 0#3)).asz ≠ .a16 ∧ noExt.base = baseBit (modeOf launch) loadRax
        ∧ (accessOf loadRax launch (rm0 0#3)).seg ≠ .fs ∧ (accessOf loadRax launch (rm0 0#3)).seg ≠ .gs)
      ∧ (accessOf (.movupsLoad { noPrefixes with seg := some .fs } none ⟨0#3, .mem (rm0 0#3)⟩) launch (rm0 0#3)).seg = .fs
      ∧ modeOf prot = .prot32
      ∧ (modeOf realMode = .real ∧ (accessOf loadRax realMode (rm0 0#3)).asz = .a16) := by decide +kernel

/-- SIB.base = 5 with and without mod = 00, index 4 and 12, rm = 5 with and without mod = 00. -/
theorem test_witness_BaseAndIndexFollowTable :
    ((⟨.m00, 4#3, some ⟨0#2, 4#3, 5#3⟩, .d32 0#32⟩ : MemOperand).sib = some ⟨0#2, 4#3, 5#3⟩
        ∧ (BitVec.ofBool false ++ 4#3 : BitVec 4) = 4#4 ∧ (BitVec.ofBool true ++ 4#3 : BitVec 4) ≠ 4#4)
      ∧ ((⟨.m01, 4#3, some ⟨0#2, 0#3, 5#3⟩, .d8 0#8⟩ : MemOperand).mod ≠ .m00)
      ∧ ((⟨.m00, 5#3, none, .d32 0#32⟩ : MemOperand).sib = none ∧ (⟨.m10, 5#3, none, .d32 0#32⟩ : MemOperand).mod ≠ .m00) := by
  decide

/-- d = 80H, the most negative: with N = 64 it is the 32-bit displacement -2000H. -/
theorem test_witness_CompressedDisplacementIsScaled :
    addrSize (modeOf launch) false ≠ .a16 ∧ addrSize (modeOf realMode) false = .a16
      ∧ operandEa (.evexLoad512 noPrefixes none ev) (atRax 0x4000#64) 1#3 ⟨.m01, 0#3, none, .d8 0x80#8⟩ = 0x2000#64
      ∧ operandEa (.vex2Load256 noPrefixes none v2) (atRax 0x4000#64) 1#3 ⟨.m01, 0#3, none, .d8 0x80#8⟩ = 0x3F80#64 := by
  decide +kernel

theorem test_witness_DefaultSegmentFollowsBase :
    (⟨.m01, 5#3, none, .d8 0#8⟩ : MemOperand).wf .a64 = true
      ∧ (⟨.m00, 4#3, some ⟨0#2, 4#3, 4#3⟩, .none⟩ : MemOperand).wf .a32 = true
      ∧ (⟨.m00, 2#3, none, .none⟩ : MemOperand).wf .a16 = true := by decide

theorem test_witness_CanonicalMeansEqualTopBits : 2 ^ 64 ≤ 2 ^ 64 ∧ canonical .la48 (2 ^ 64) = false ∧ canonical .la57 (2 ^ 64 - 1) = true := by decide

end Sys2Proof.Tests
end

section
/-! PROOFS. What one completed instruction, one step and one run can do to the state, said once each; from these the frame of an
instruction, the control state along a run and the machine's invariant (00_scope.md R7, R16; 10_state.md R20 to R36). -/

namespace Sys2Proof.Machine

/-! ### The fields of an instruction's move -/

theorem moveOf_ilen (i : Instr) (s : State) : (moveOf i s).ilen = instrLength i := by
  cases i <;> rfl

/-! ### A form that is not undefined fits MAXVL -/

theorem bits_le_maxvl_of_vexUndefined {s : State} {vl : VecLen} {p : Prefixes} {rex : Option Rex} {vvvv : BitVec 4}
    (h : vexUndefined s vl p rex vvvv = false) : vl.bits ≤ s.params.maxvl.bits := by
  by_contra hn
  have hw : withinMaxvl s vl = false := decide_eq_false hn
  simp [vexUndefined, hw] at h

theorem bits_le_maxvl_of_evexUndefined {s : State} {vl : VecLen} {d : Direction} {p : Prefixes} {rex : Option Rex}
    {v : Evex} {m : ModRM} (h : evexUndefined s vl d p rex v m = false) : vl.bits ≤ s.params.maxvl.bits := by
  by_contra hn
  have hw : withinMaxvl s vl = false := decide_eq_false hn
  simp [evexUndefined, hw] at h

theorem lengthOf_le_maxvl_of_undefinedOf {i : Instr} {s : State} (h : undefinedOf i s = false) :
    (lengthOf i).bits ≤ s.params.maxvl.bits := by
  cases i with
  | movupsLoad _ _ _ | movupsStore _ _ _ => exact (maxvl_bounds s).1
  | vex2Load128 _ _ _ _ | vex3Load128 _ _ _ _ | vex2Store128 _ _ _ _ | vex3Store128 _ _ _ _
  | vex2Load256 _ _ _ _ | vex3Load256 _ _ _ _ | vex2Store256 _ _ _ _ | vex3Store256 _ _ _ _ =>
    exact bits_le_maxvl_of_vexUndefined h
  | evexLoad128 _ _ _ _ | evexLoad256 _ _ _ _ | evexLoad512 _ _ _ _
  | evexStore128 _ _ _ _ | evexStore256 _ _ _ _ | evexStore512 _ _ _ _ => exact bits_le_maxvl_of_evexUndefined h

/-! ### What a completed instruction did -/

/-- The state a store leaves: the vector register `r` in the bytes `l`, and pc past the instruction. -/
def storeAndRetire (s : State) (r : BitVec 5) (l : List (Nat × Nat)) (ilen : Nat) : State :=
  retire { s with mem := storeBytes (readVec s r) l s.mem } ilen

/-- A completed instruction passed its #UD check and wrote either a register, its `destReg`, or the bytes its access resolved to,
those of its `storedOperand`. -/
theorem exec_eq_next {i : Instr} {s t : State} (h : exec i s = .next t) :
    undefinedOf i s = false
      ∧ ((∃ d src, destReg i s = some d ∧ storedOperand i s = none ∧ t = moveToReg s (moveOf i s) d src)
        ∨ ∃ o l, storedOperand i s = some o ∧ (accessOf i s o).dir = .store
            ∧ resolve s (accessOf i s o) = .next l
            ∧ t = storeAndRetire s (moveReg (moveOf i s)) l (moveOf i s).ilen) := by
  rw [exec_eq_execMove] at h
  obtain ⟨hchecks, heffect⟩ := execMove_eq_next h
  obtain ⟨-, hdefined, -, -⟩ := entryChecks_eq_next.1 hchecks
  refine ⟨hdefined, ?_⟩
  rcases heffect with ⟨r, hd, hr, ht⟩ | ⟨o, l, hd, hr, -, ht⟩ | ⟨r, hd, hr, ht⟩ | ⟨o, l, hd, hr, hl, ht⟩
  · exact .inl ⟨_, _, by simp [destReg, hd], by simp [storedOperand, hd], ht⟩
  · exact .inl ⟨_, _, by simp [destReg, hd], by simp [storedOperand, hd], ht⟩
  · exact .inl ⟨_, _, by simp [destReg, hd, hr], by simp [storedOperand, hd, hr], ht⟩
  · exact .inr ⟨o, l, by simp [storedOperand, hd, hr], hd, hl, ht⟩

/-- Every byte an access resolves to is an accessed one, at the address its linear address translates to. -/
theorem translate_of_mem_resolve {s : State} {a : Access} {l : List (Nat × Nat)} (h : resolve s a = .next l) {c : Nat × Nat}
    (hc : c ∈ l) : ∃ la, segCheck s a = .next la ∧ c.1 ∈ a.offs ∧ Machine.translate s (la + c.1) (accessKind a) = .ok c.2 := by
  rcases resolve_eq_next h with ⟨-, rfl⟩ | ⟨la, hla, -, -, rfl, -⟩
  · simp at hc
  · exact ⟨la, hla, mem_accessedBytes.1 hc⟩

theorem sameControl_exec {i : Instr} {s t : State} (h : exec i s = .next t) : sameControl s t := by
  obtain ⟨-, ⟨d, src, -, -, rfl⟩ | ⟨o, l, -, -, -, rfl⟩⟩ := exec_eq_next h
  · exact sameControl_moveToReg ..
  · exact sameControl_trans (sameControl_storeMem ..) (sameControl_retire ..)

theorem pc_exec {i : Instr} {s t : State} (h : exec i s = .next t) :
    t.pc = BitVec.ofNat 64 ((pcOffset s + instrLength i) % 2 ^ pcBits (modeOf s)) := by
  rw [← moveOf_ilen i s]
  obtain ⟨-, ⟨d, src, -, -, rfl⟩ | ⟨o, l, -, -, -, rfl⟩⟩ := exec_eq_next h <;> rfl

theorem readVec_exec_other {i : Instr} {s t : State} (h : exec i s = .next t) {r : BitVec 5} (hr : destReg i s ≠ some r) :
    readVec t r = readVec s r := by
  obtain ⟨-, ⟨d, src, hdest, -, rfl⟩ | ⟨o, l, -, -, -, rfl⟩⟩ := exec_eq_next h
  · exact readVec_moveToReg_other _ _ _ fun hrd => hr (hrd ▸ hdest)
  · rfl

theorem mem_exec_of_no_storedOperand {i : Instr} {s t : State} (h : exec i s = .next t) (hn : storedOperand i s = none) :
    t.mem = s.mem := by
  obtain ⟨-, ⟨d, src, -, -, rfl⟩ | ⟨o, l, ho, -⟩⟩ := exec_eq_next h
  · rfl
  · simp [hn] at ho

/-- A store changes no byte but those its accessed linear addresses translate to. -/
theorem readByte_exec_other {i : Instr} {s t : State} (h : exec i s = .next t) (hwf : s.mem.wf) {o : MemOperand}
    (ho : storedOperand i s = some o) {x : Nat}
    (hx : ∀ la k, segCheck s (accessOf i s o) = .next la → k ∈ (accessOf i s o).offs →
      Machine.translate s (la + k) .write ≠ .ok x) : readByte t.mem x = readByte s.mem x := by
  obtain ⟨-, ⟨d, src, -, hn, -⟩ | ⟨o', l, ho', hdir, hl, rfl⟩⟩ := exec_eq_next h
  · simp [hn] at ho
  · obtain rfl : o' = o := Option.some.inj (ho'.symm.trans ho)
    refine readByte_storeBytes_other _ l hwf fun c hc hcx => ?_
    obtain ⟨la, hla, hk, htr⟩ := translate_of_mem_resolve hl hc
    rw [accessKind, hdir, hcx] at htr
    exact hx la c.1 hla hk htr

/-- Settles O44, by what a completed instruction did (`exec_eq_next`). -/
theorem nothingButDestinationWritten : Obligations.NothingButDestinationWritten := by
  intro i s t h
  exact ⟨lengthOf_le_maxvl_of_undefinedOf (exec_eq_next h).1, sameControl_exec h, pc_exec h, fun _ => readVec_exec_other h,
    mem_exec_of_no_storedOperand h, fun hwf _ ho _ => readByte_exec_other h hwf ho⟩

/-! ### Steps and runs -/

/-- A step that completes ran the instruction at pc. -/
theorem step_eq_next {s t : State} (h : step s = .next t) :
    ∃ i rest, decode (modeOf s) (fetchBytes s) = .instr i rest ∧ exec i s = .next t := by
  unfold step runOne at h
  split at h
  · cases hdec : decode (modeOf s) (fetchBytes s) with
    | instr i rest =>
      rw [hdec] at h
      exact ⟨i, rest, rfl, h⟩
    | undefinedOpcode len =>
      rw [hdec, runDecoded, execUndefined] at h
      split at h <;> exact absurd h (raise_ne_next _ _ _)
    | reject e =>
      rw [hdec, runDecoded] at h
      cases h
  · cases h

/-- A run is its first step and the rest of the run. -/
theorem steps_succ (n : Nat) (s : State) : steps (n + 1) s = andThen (step s) (steps n) := by
  rw [steps]
  cases step s <;> rfl

/-- What every step keeps, every run keeps. -/
theorem steps_preserves {P : State → Prop} (hstep : ∀ s t, P s → step s = .next t → P t) (n : Nat) {s t : State}
    (hs : P s) (h : steps n s = .next t) : P t := by
  induction n generalizing s with
  | zero =>
    obtain rfl : s = t := Host.Outcome.next.inj h
    exact hs
  | succ n ih =>
    rw [steps_succ] at h
    obtain ⟨u, hu, hrun⟩ := andThen_eq_next.1 h
    exact ih (hstep s u hs hu) hrun

theorem sameControl_step {s t : State} (h : step s = .next t) : sameControl s t := by
  obtain ⟨_, _, -, hexec⟩ := step_eq_next h
  exact sameControl_exec hexec

theorem sameControl_steps {n : Nat} {s t : State} (h : steps n s = .next t) : sameControl s t :=
  steps_preserves (P := sameControl s) (fun _ _ hs hu => sameControl_trans hs (sameControl_step hu)) n (sameControl_refl s) h

/-- Settles O45, by induction on the number of steps (`steps_preserves`). -/
theorem runsKeepControlState : Obligations.RunsKeepControlState := by
  intro n s t h
  have hst : t = { s with zmm := t.zmm, mem := t.mem, pc := t.pc, draws := t.draws } := sameControl_steps h
  rw [hst]
  exact ⟨rfl, rfl, rfl, rfl, rfl, rfl, rfl, rfl, rfl, rfl, rfl, rfl, rfl, rfl, rfl, rfl, rfl, rfl⟩

/-! ### The invariant -/

theorem vecsFit_writeVec {s : State} (h : vecsFit s) (d : BitVec 5) (v : Vec) : vecsFit (writeVec s d v) := by
  intro r
  by_cases hr : r = d
  · subst hr
    simp
  · rw [readVec_writeVec_other s v hr]
    exact h r

theorem machineInv_moveToReg {s : State} (h : machineInv s) (c : Move) (d : BitVec 5) (src : Vec) :
    machineInv (moveToReg s c d src) := by
  obtain ⟨hwf, hvecs, -, hparams⟩ := h
  exact ⟨hwf, vecsFit_writeVec hvecs d _, pcFits_retire .., hparams⟩

theorem machineInv_storeAndRetire {s : State} (h : machineInv s) (r : BitVec 5) (l : List (Nat × Nat)) (ilen : Nat) :
    machineInv (storeAndRetire s r l ilen) := by
  obtain ⟨hwf, hvecs, -, hparams⟩ := h
  exact ⟨wf_storeBytes _ l hwf, hvecs, pcFits_retire .., hparams⟩

theorem machineInv_exec {i : Instr} {s t : State} (hs : machineInv s) (h : exec i s = .next t) : machineInv t := by
  obtain ⟨-, ⟨d, src, -, -, rfl⟩ | ⟨o, l, -, -, -, rfl⟩⟩ := exec_eq_next h
  · exact machineInv_moveToReg hs ..
  · exact machineInv_storeAndRetire hs ..

/-- Settles O47: a step that completes ran one instruction, and every instruction keeps the invariant. -/
theorem stepKeepsInvariant : Obligations.StepKeepsInvariant := by
  intro s t hs h
  obtain ⟨_, _, -, hexec⟩ := step_eq_next h
  exact machineInv_exec hs hexec

theorem readVec_reset (r : BitVec 5) : readVec State.reset r = 0#512 := by
  simp [readVec, State.reset]

/-- Settles O46: no byte is listed, every vector register is zero, pc is FFF0H in a 16-bit mode, and the parameters are the
defaults. -/
theorem resetMeetsInvariant : Obligations.ResetMeetsInvariant := by
  refine ⟨wf_nil, fun r => ?_, ?_, by decide⟩
  · simp [readVec_reset, lowPart]
  · unfold pcFits
    decide

end Sys2Proof.Machine
end

section
/-! PROOFS. What no instruction reads, and where no instruction executes: MXCSR changes nothing but itself (10_state.md R29), the
values reset leaves (10_state.md R39), and that every form is #UD from there (70_reset_and_hazards.md R211). -/

namespace Sys2Proof.Machine

/-! ### mapNext -/

@[simp] theorem mapNext_next (f : State → State) (t : State) : mapNext f (.next t) = .next (f t) := rfl

/-- A change of the next state reaches through `andThen` to what comes last. -/
theorem mapNext_andThen {α : Type} (f : State → State) (r : Result α) (g : α → Result State) :
    mapNext f (andThen r g) = andThen r fun a => mapNext f (g a) := by
  cases r <;> rfl

/-! ### What a change of MXCSR leaves -/

section
variable (s : State) (x : BitVec 32)

@[simp] theorem readVec_setMxcsr (r : BitVec 5) : readVec { s with mxcsr := x } r = readVec s r := rfl

@[simp] theorem moveOf_setMxcsr (i : Instr) : moveOf i { s with mxcsr := x } = moveOf i s := by
  cases i <;> rfl

@[simp] theorem undefinedOf_setMxcsr (i : Instr) : undefinedOf i { s with mxcsr := x } = undefinedOf i s := by
  cases i <;> rfl

@[simp] theorem refusesOf_setMxcsr (i : Instr) : refusesOf i { s with mxcsr := x } = refusesOf i s := by
  cases i <;> rfl

@[simp] theorem entryChecks_setMxcsr (n : Nat) (ud : Bool) (rf : Option Refusal) :
    entryChecks { s with mxcsr := x } n ud rf = entryChecks s n ud rf := rfl

@[simp] theorem moveAccess_setMxcsr (c : Move) (o : MemOperand) :
    moveAccess { s with mxcsr := x } c o = moveAccess s c o := rfl

@[simp] theorem resolve_setMxcsr (a : Access) : resolve { s with mxcsr := x } a = resolve s a := rfl

@[simp] theorem memRead_setMxcsr (a : Access) : memRead { s with mxcsr := x } a = memRead s a := by
  simp [memRead]

/-- A store under another MXCSR writes the same bytes and keeps that MXCSR. -/
theorem memWrite_setMxcsr (a : Access) (v : Vec) :
    memWrite { s with mxcsr := x } a v = mapNext (fun t => { t with mxcsr := x }) (memWrite s a v) := by
  simp only [memWrite, mapNext_andThen, resolve_setMxcsr, mapNext_next]

theorem moveToReg_setMxcsr (c : Move) (d : BitVec 5) (src : Vec) :
    moveToReg { s with mxcsr := x } c d src = { moveToReg s c d src with mxcsr := x } := rfl

/-- Each of the four moves, from a register or memory and to one, goes on from its checks to the same effect. -/
theorem execMove_setMxcsr (c : Move) (ud : Bool) (rf : Option Refusal) :
    execMove c ud rf { s with mxcsr := x } = mapNext (fun t => { t with mxcsr := x }) (execMove c ud rf s) := by
  unfold execMove
  rw [entryChecks_setMxcsr, mapNext_andThen]
  congr 1
  funext _
  rcases c.dir with _ | _ <;> rcases c.modrm.rm with r | o
  case load.reg => rfl
  case load.mem => simp only [memRead_setMxcsr, moveAccess_setMxcsr, mapNext_andThen, mapNext_next, moveToReg_setMxcsr]
  case store.reg => rfl
  case store.mem =>
    simp only [memWrite_setMxcsr, moveAccess_setMxcsr, readVec_setMxcsr]
    cases memWrite s (moveAccess s c o) (readVec s (moveReg c)) <;> rfl

end

/-- Settles O50: every meaning is the one move, whose fields, checks and access do not see MXCSR. -/
theorem mxcsrIsNotRead : Obligations.MxcsrIsNotRead := by
  intro i s x
  rw [exec_eq_execMove, exec_eq_execMove i s, moveOf_setMxcsr, undefinedOf_setMxcsr, refusesOf_setMxcsr, execMove_setMxcsr]

/-! ### An instruction that is undefined -/

/-- An instruction of at most 15 bytes whose #UD condition holds raises #UD (60_exceptions.md R191). -/
theorem raises_invalidOpcode_of_undefinedOf {i : Instr} {s : State} (hlen : instrLength i ≤ 15) (hud : undefinedOf i s = true) :
    raises i s .invalidOpcode := by
  have hshort : ¬ 15 < (moveOf i s).ilen := by rw [moveOf_ilen]; omega
  have hchecks : entryChecks s (moveOf i s).ilen (undefinedOf i s) (refusesOf i s) = raise .invalidOpcode s := by
    simp [entryChecks, hshort, hud]
  rw [raises, exec_eq_execMove, execMove, hchecks]
  rfl

theorem exec_ne_next_of_undefinedOf {i : Instr} {s : State} (hud : undefinedOf i s = true) (t : State) :
    exec i s ≠ .next t := fun h => by
  have hdefined := (exec_eq_next h).1
  simp [hud] at hdefined

/-- Where the operating system has enabled neither the SSE state nor XSAVE, no form is defined: a Legacy SSE form needs
CR4.OSFXSR, any other CR4.OSXSAVE (60_exceptions.md R176, R177, R178). -/
theorem undefinedOf_of_not_enabled {s : State} (hsse : cr4Osfxsr s = false) (hxsave : cr4Osxsave s = false) (i : Instr) :
    undefinedOf i s = true := by
  cases i with
  | movupsLoad _ _ _ | movupsStore _ _ _ => simp [undefinedOf, legacyUndefined, hsse]
  | vex2Load128 _ _ _ _ | vex3Load128 _ _ _ _ | vex2Store128 _ _ _ _ | vex3Store128 _ _ _ _
  | vex2Load256 _ _ _ _ | vex3Load256 _ _ _ _ | vex2Store256 _ _ _ _ | vex3Store256 _ _ _ _ =>
    simp [undefinedOf, vexUndefined, hxsave]
  | evexLoad128 _ _ _ _ | evexLoad256 _ _ _ _ | evexLoad512 _ _ _ _
  | evexStore128 _ _ _ _ | evexStore256 _ _ _ _ | evexStore512 _ _ _ _ =>
    simp [undefinedOf, evexUndefined, hxsave]

/-! ### After reset -/

theorem cr4Osfxsr_reset : cr4Osfxsr State.reset = false := by decide

theorem cr4Osxsave_reset : cr4Osxsave State.reset = false := by decide

/-- CR4 is 0 after reset, and no #UD condition reads memory. -/
theorem undefinedOf_reset (i : Instr) (m : Memory) : undefinedOf i { State.reset with mem := m } = true :=
  undefinedOf_of_not_enabled cr4Osfxsr_reset cr4Osxsave_reset i

/-- Settles O55: every form is undefined after reset, and a step that completes would have completed one. -/
theorem nothingExecutesAfterReset : Obligations.NothingExecutesAfterReset := by
  intro m
  refine ⟨fun i hlen => raises_invalidOpcode_of_undefinedOf hlen (undefinedOf_reset i m), fun t hstep => ?_⟩
  obtain ⟨i, _, -, hexec⟩ := step_eq_next hstep
  exact exec_ne_next_of_undefinedOf (undefinedOf_reset i m) t hexec

theorem readMask_reset (i : BitVec 3) : readMask State.reset i = 0#64 := by
  simp [readMask, State.reset]

/-- RDX, register 2, holds the processor signature; the others are 0. -/
theorem gpr_reset_of_ne_two (i : Fin 16) (hi : i ≠ 2) : State.reset.gpr[i.val] = 0#64 := by
  have hne : 2 ≠ i.val := fun h => hi (Fin.ext h.symm)
  simp only [State.reset]
  rw [Vector.getElem_set_ne _ _ hne, Vector.getElem_replicate]

/-- CR0.PE is 0 after reset. -/
theorem modeOf_reset : modeOf State.reset = .real := by decide

/-- The first fetch is in the last 16 bytes below 4 GiB: the base of CS and pc, which the limit of CS admits. -/
theorem codeLinear_reset : codeLinear State.reset 0xFFF0 = some 0xFFFFFFF0 := by decide

/-- Settles O54: the registers by their readings, the rest as `State.reset` lists it. -/
theorem resetLeavesTheListedValues : Obligations.ResetLeavesTheListedValues :=
  ⟨readVec_reset, readMask_reset, rfl, gpr_reset_of_ne_two, rfl, rfl, codeLinear_reset, rfl, rfl, rfl, rfl, rfl, rfl, rfl,
    modeOf_reset⟩

end Sys2Proof.Machine
end

section
/-! PROOFS. Where an operand may stand: the canonical form of a linear address (20_memory.md R61, R75), and what the checks of an
access answer once an instruction has reached its operand: a segment violation, a refusal, or access (20_memory.md R54, R59 to
R63, R73; 60_exceptions.md R184, R186, R191). -/

namespace Sys2Proof.Machine

/-! ### Canonical addresses -/

/-- A word is below `2 ^ m` when its bits from `m` on are clear. -/
theorem toNat_lt_two_pow_iff (x : BitVec 64) (m : Nat) :
    x.toNat < 2 ^ m ↔ ∀ n, m ≤ n → n < 64 → x.getLsbD n = false := by
  constructor
  · intro h n hmn _
    exact Nat.testBit_lt_two_pow (Nat.lt_of_lt_of_le h (Nat.pow_le_pow_right (by decide) hmn))
  · intro h
    refine Nat.lt_pow_two_of_testBit _ fun n hmn => ?_
    by_cases hn : n < 64
    · exact h n hmn hn
    · exact BitVec.getLsbD_of_ge x n (Nat.le_of_not_lt hn)

/-- The upper canonical half is the lower one complemented: its bits from `m` on are set. -/
theorem two_pow_sub_le_toNat_iff (x : BitVec 64) {m : Nat} (hm : m ≤ 64) :
    2 ^ 64 - 2 ^ m ≤ x.toNat ↔ ∀ n, m ≤ n → n < 64 → x.getLsbD n = true := by
  have hpow : 2 ^ m ≤ 2 ^ 64 := Nat.pow_le_pow_right (by decide) hm
  have hcompl : 2 ^ 64 - 2 ^ m ≤ x.toNat ↔ (~~~x).toNat < 2 ^ m := by
    rw [BitVec.toNat_not]
    have := x.isLt
    omega
  rw [hcompl, toNat_lt_two_pow_iff]
  refine forall_congr' fun n => forall_congr' fun _ => forall_congr' fun hn => ?_
  simp [hn]

/-- The bits from `m` on are equal when all of them are clear or all of them are set. -/
theorem canonical_toNat_iff (b : LaBits) (la : BitVec 64) :
    canonical b la.toNat = true ↔
      (∀ n, b.bits - 1 ≤ n → n < 64 → la.getLsbD n = false)
        ∨ ∀ n, b.bits - 1 ≤ n → n < 64 → la.getLsbD n = true := by
  have hb : b.bits - 1 ≤ 64 := by cases b <;> decide
  rw [← toNat_lt_two_pow_iff, ← two_pow_sub_le_toNat_iff la hb]
  simp [canonical, la.isLt]

theorem canonical_of_two_pow_le (b : LaBits) {la : Nat} (h : 2 ^ 64 ≤ la) : canonical b la = false := by
  have hb : 2 ^ (b.bits - 1) ≤ 2 ^ 64 := Nat.pow_le_pow_right (by decide) (by cases b <;> decide)
  have hlow : ¬ la < 2 ^ (b.bits - 1) := by omega
  have hhigh : ¬ la < 2 ^ 64 := by omega
  rw [canonical, decide_eq_false hlow, decide_eq_false hhigh, Bool.and_false, Bool.or_false]

/-- Settles O60: the lower canonical half has every top bit clear, the upper one every top bit set. -/
theorem canonicalMeansEqualTopBits : Obligations.CanonicalMeansEqualTopBits := by
  intro b
  refine ⟨fun la => ?_, fun la => canonical_of_two_pow_le b⟩
  have htop : b.bits - 1 ≤ 63 := by cases b <;> decide
  rw [canonical_toNat_iff]
  constructor
  · rintro (hclear | hset) n hn hlt
    · rw [hclear n hn hlt, hclear 63 htop (by decide)]
    · rw [hset n hn hlt, hset 63 htop (by decide)]
  · intro hequal
    cases h63 : la.getLsbD 63 with
    | false => exact .inl fun n hn hlt => (hequal n hn hlt).trans h63
    | true => exact .inr fun n hn hlt => (hequal n hn hlt).trans h63

/-! ### An instruction that has reached its operand -/

theorem rm_of_memOperand {i : Instr} {s : State} {o : MemOperand} (h : memOperand i s = some o) :
    (moveOf i s).modrm.rm = .mem o := by
  unfold memOperand at h
  split at h <;> simp_all

theorem accessKind_of_load {i : Instr} {s : State} (o : MemOperand) (h : (moveOf i s).dir = .load) :
    accessKind (accessOf i s o) = .read := by
  simp [accessKind, accessOf, moveAccess, h]

theorem accessKind_of_store {i : Instr} {s : State} (o : MemOperand) (h : (moveOf i s).dir = .store) :
    accessKind (accessOf i s o) = .write := by
  simp [accessKind, accessOf, moveAccess, h]

theorem entryChecks_of_reachesOperand {i : Instr} {s : State} (h : reachesOperand i s) :
    entryChecks s (moveOf i s).ilen (undefinedOf i s) (refusesOf i s) = .next () :=
  entryChecks_eq_next.2 (by rw [moveOf_ilen]; exact h)

/-- Past the entry checks, a memory form is its access and then an effect that always completes. -/
theorem exec_of_reachesOperand {i : Instr} {s : State} {o : MemOperand} (h : reachesOperand i s)
    (ho : memOperand i s = some o) :
    ∃ effect : List (Nat × Nat) → State, exec i s = andThen (resolve s (accessOf i s o)) fun l => .next (effect l) := by
  rw [exec_eq_execMove, execMove, entryChecks_of_reachesOperand h, andThen_next, rm_of_memOperand ho]
  cases (moveOf i s).dir with
  | load =>
    refine ⟨fun l => moveToReg s (moveOf i s) (moveReg (moveOf i s)) (loadBytes s.mem l), ?_⟩
    simp only [memRead, accessOf]
    cases resolve s (moveAccess s (moveOf i s) o) <;> rfl
  | store =>
    refine ⟨fun l => storeAndRetire s (moveReg (moveOf i s)) l (moveOf i s).ilen, ?_⟩
    simp only [memWrite, accessOf]
    cases resolve s (moveAccess s (moveOf i s) o) <;> rfl

theorem exec_fault_of_resolve {i : Instr} {s : State} {o : MemOperand} {e : Fault} (h : reachesOperand i s)
    (ho : memOperand i s = some o) (hr : resolve s (accessOf i s o) = .fault e) : exec i s = .fault e := by
  obtain ⟨effect, hexec⟩ := exec_of_reachesOperand h ho
  rw [hexec, hr, andThen_fault]

theorem exec_refused_of_resolve {i : Instr} {s : State} {o : MemOperand} {r : Refusal} (h : reachesOperand i s)
    (ho : memOperand i s = some o) (hr : resolve s (accessOf i s o) = .refused r) : exec i s = .refused r := by
  obtain ⟨effect, hexec⟩ := exec_of_reachesOperand h ho
  rw [hexec, hr, andThen_refused]

/-! ### The segment check decides -/

theorem offs_ne_nil {a : Access} {P : Nat → Prop} (h : ∃ k ∈ a.offs, P k) : a.offs ≠ [] :=
  h.elim fun _ hk => List.ne_nil_of_mem hk.1

/-- An access of at least one byte begins with the segment check (60_exceptions.md R191 step 5). -/
theorem resolve_of_segCheck_fault {s : State} {a : Access} {e : Fault} (hne : a.offs ≠ []) (h : segCheck s a = .fault e) :
    resolve s a = .fault e := by
  simp [resolve, hne, h]

theorem resolve_of_segCheck_refused {s : State} {a : Access} {r : Refusal} (hne : a.offs ≠ [])
    (h : segCheck s a = .refused r) : resolve s a = .refused r := by
  simp [resolve, hne, h]

/-- A segment violation of an accessed byte is the instruction's exception. -/
theorem raises_of_segCheck {i : Instr} {s : State} {o : MemOperand} (h : reachesOperand i s) (ho : memOperand i s = some o)
    (hne : (accessOf i s o).offs ≠ []) (hs : segCheck s (accessOf i s o) = raise (segViolation (accessOf i s o)) s) :
    raises i s (if (accessOf i s o).stack then .stackFault else .generalProtection) :=
  exec_fault_of_resolve h ho (resolve_of_segCheck_fault hne hs)

theorem segCheck_of_not_canonical {s : State} {a : Access} (hm : modeOf s = .mode64)
    (h : ∃ k ∈ a.offs, canonical s.params.laBits (linear64 s a + k) = false) :
    segCheck s a = raise (segViolation a) s := by
  obtain ⟨k, hk, hcan⟩ := h
  have hall : (a.offs.all fun k => canonical s.params.laBits (linear64 s a + k)) = false :=
    List.all_eq_false.2 ⟨k, hk, by simp [hcan]⟩
  simp [segCheck_mode64 hm, hall]

/-- Settles O25: the canonical check is the whole segment check of `Mode64`, and comes before any translation. -/
theorem nonCanonicalOperandFaults : Obligations.NonCanonicalOperandFaults := by
  intro i s o hreach ho hm hbyte
  exact raises_of_segCheck hreach ho (offs_ne_nil hbyte) (segCheck_of_not_canonical hm hbyte)

/-- Outside `Mode64`: a byte beyond FFFFH in `Real` and `V86`, else what `protViolation` names (20_memory.md R62). -/
def violates32 (s : State) (a : Access) : Bool :=
  if realOrV86 s then a.offs.any fun k => decide (0xFFFF < a.ea.toNat + k) else protViolation s a

/-- Outside `Mode64` the check is the violation, then the wrap (20_memory.md R62, R75). -/
theorem segCheck_of_ne_mode64 {s : State} {a : Access} (hm : modeOf s ≠ .mode64) :
    segCheck s a = if violates32 s a then raise (segViolation a) s
      else if wraps32 s a then .refused .operandWraps else .next (linear32 s a) := by
  unfold segCheck violates32 realOrV86
  cases h : modeOf s with
  | mode64 => exact absurd h hm
  | real | v86 | compat32 | prot32 | prot16 => rfl

/-- What a protected mode calls a violation, for an access of at least one byte (20_memory.md R62). -/
theorem protViolation_eq_true_iff {s : State} {a : Access} :
    protViolation s a = true ↔
      (segRegister s a.seg).isNull = true ∨ segPermits (segRegister s a.seg) (accessKind a) = false
        ∨ ∃ k ∈ a.offs, a.ea.toNat + k < 2 ^ 32
            ∧ ((segRegister s a.seg).limit.toNat < a.ea.toNat + k ∨ (a.asz = .a16 ∧ 0xFFFF < a.ea.toNat + k)) := by
  simp [protViolation, or_assoc]

theorem segPermits_eq_false_of_right {s : State} {a : Access}
    (h : (a.dir = .load ∧ (segRegister s a.seg).readable = false)
      ∨ (a.dir = .store ∧ (segRegister s a.seg).writable = false)) :
    segPermits (segRegister s a.seg) (accessKind a) = false := by
  rcases h with ⟨hd, hright⟩ | ⟨hd, hright⟩
  · simp [accessKind, hd, segPermits, hright]
  · simp [accessKind, hd, segPermits, hright]

theorem segCheck_of_violates32 {s : State} {a : Access} (hm : modeOf s ≠ .mode64) (h : violates32 s a = true) :
    segCheck s a = raise (segViolation a) s := by
  rw [segCheck_of_ne_mode64 hm, if_pos h]

/-- Settles O26, by the two halves of the violation outside `Mode64` (`violates32`). -/
theorem segmentViolationFaults : Obligations.SegmentViolationFaults := by
  intro i s o hreach ho hviol
  rcases hviol with ⟨hm, k, hk, hbeyond⟩ | ⟨hm, hne, hcause⟩
  · have hreal : realOrV86 s = true := by rcases hm with hm | hm <;> simp [realOrV86, hm]
    have hv : violates32 s (accessOf i s o) = true := by
      rw [violates32, if_pos hreal]
      exact List.any_eq_true.2 ⟨k, hk, decide_eq_true hbeyond⟩
    exact raises_of_segCheck hreach ho (List.ne_nil_of_mem hk)
      (segCheck_of_violates32 (by rcases hm with hm | hm <;> simp [hm]) hv)
  · have hreal : realOrV86 s = false := by rcases hm with hm | hm | hm <;> simp [realOrV86, hm]
    have hv : violates32 s (accessOf i s o) = true := by
      rw [violates32, hreal]
      refine protViolation_eq_true_iff.2 ?_
      rcases hcause with hnull | hread | hwrite | hlimit
      · exact .inl hnull
      · exact .inr (.inl (segPermits_eq_false_of_right (.inl hread)))
      · exact .inr (.inl (segPermits_eq_false_of_right (.inr hwrite)))
      · exact .inr (.inr hlimit)
    exact raises_of_segCheck hreach ho hne
      (segCheck_of_violates32 (by rcases hm with hm | hm | hm <;> simp [hm]) hv)

/-! ### What is refused, and what is accessible -/

theorem wraps32_eq_true_iff {s : State} {a : Access} :
    wraps32 s a = true ↔ ∃ k ∈ a.offs, 2 ^ 32 ≤ a.ea.toNat + k ∨ 2 ^ 32 ≤ linear32 s a + k := by
  simp [wraps32]

/-- A wrap that is no violation is refused (20_memory.md R75). -/
theorem segCheck_of_wraps32 {s : State} {a : Access} (hm : modeOf s ≠ .mode64) (hf : ∀ e, segCheck s a ≠ .fault e)
    (hw : wraps32 s a = true) : segCheck s a = .refused .operandWraps := by
  have hv : violates32 s a = false := by
    by_contra hv
    exact hf _ (segCheck_of_violates32 hm (by simpa using hv))
  simp [segCheck_of_ne_mode64 hm, hv, hw]

/-- Once the segment check, the translation and the alignment pass, what is left of an access is `touch`. -/
theorem resolve_eq_touch {s : State} {a : Access} {la : Nat} {pa : Nat → Nat} (hne : a.offs ≠ [])
    (hs : segCheck s a = .next la) (hal : noAlignmentFault s a la)
    (ht : ∀ k ∈ a.offs, Machine.translate s (la + k) (accessKind a) = .ok (pa k)) :
    resolve s a = touch s (accessKind a) (a.offs.map fun k => (k, pa k)) := by
  have hp : pageFaults s a la = [] := pageFaults_eq_nil_iff.2 fun k hk => ⟨pa k, ht k hk⟩
  simp [resolve, hne, hs, hp, alignmentFault_eq_false hal, accessedBytes_eq_map ht]

/-- A device is refused, read or written (20_memory.md R59). -/
theorem touch_of_inDevice {s : State} {kind : AccessKind} {offs : List Nat} {pa : Nat → Nat}
    (h : ∃ k ∈ offs, inDevice s (pa k) = true) :
    touch s kind (offs.map fun k => (k, pa k)) = .refused .deviceMemory := by
  simp [touch, h]

/-- A write to a byte of the program text is refused where no device is met (20_memory.md R73). -/
theorem touch_of_inText {s : State} {offs : List Nat} {pa : Nat → Nat} (hd : ∀ k ∈ offs, inDevice s (pa k) = false)
    (h : ∃ k ∈ offs, inText s (pa k) = true) :
    touch s .write (offs.map fun k => (k, pa k)) = .refused .storeToText := by
  have hdev : ¬ ∃ k ∈ offs, inDevice s (pa k) = true := by
    rintro ⟨k, hk, hin⟩
    simp [hd k hk] at hin
  simp [touch, hdev, h]

/-- Settles O33: a device and the program text in `touch`, the wrap in the segment check. -/
theorem refusedAccesses : Obligations.RefusedAccesses := by
  intro i s o pa hreach ho
  refine ⟨fun la hs hal ht => ⟨fun hdev => ?_, fun hdir hnodev htext => ?_⟩, fun hnofault hm hwrap => ?_⟩
  · refine exec_refused_of_resolve hreach ho ?_
    rw [resolve_eq_touch (offs_ne_nil hdev) hs hal ht, touch_of_inDevice hdev]
  · refine exec_refused_of_resolve hreach ho ?_
    rw [resolve_eq_touch (offs_ne_nil htext) hs hal ht, accessKind_of_store o hdir, touch_of_inText hnodev htext]
  · exact exec_refused_of_resolve hreach ho (resolve_of_segCheck_refused (offs_ne_nil hwrap)
      (segCheck_of_wraps32 hm hnofault (wraps32_eq_true_iff.2 hwrap)))

theorem segCheck_of_canonical {s : State} {a : Access} (hm : modeOf s = .mode64)
    (h : ∀ k ∈ a.offs, canonical s.params.laBits (linear64 s a + k) = true) : segCheck s a = .next (linear64 s a) := by
  rw [segCheck_mode64 hm, if_pos (List.all_eq_true.2 h)]

theorem translate_of_identity {s : State} (h : s.translation = .identity) (la : Nat) (kind : AccessKind) :
    Machine.translate s la kind = .ok la := by
  simp [Machine.translate, h]

theorem inDevice_of_no_devices {s : State} (h : s.devices = []) (p : Nat) : inDevice s p = false := by
  simp [inDevice, h]

/-- Settles O43: the canonical check answers the linear address, and the identity takes each byte to itself. -/
theorem flatOperandIsAccessible : Obligations.FlatOperandIsAccessible := by
  intro i s o _ hm hid hdev hal hcan htext
  exact .inr ⟨linear64 s (accessOf i s o), segCheck_of_canonical hm hcan, hal, fun k hk =>
    ⟨translate_of_identity hid _ _, inDevice_of_no_devices hdev _, fun hdir => htext hdir k hk⟩⟩

end Sys2Proof.Machine
end

section
/-! PROOFS. What a load finds in memory: it reads the bytes of its selected elements and no others (20_memory.md R66), each
element little-endian (R52, R53), and where a store has written, the byte the store took from its register (R70). -/

namespace Sys2Proof.Machine

/-! ### What a change of memory leaves -/

section
variable (s : State) (m : Memory)

@[simp] theorem moveOf_storeMem (i : Instr) : moveOf i { s with mem := m } = moveOf i s := by
  cases i <;> rfl

@[simp] theorem undefinedOf_storeMem (i : Instr) : undefinedOf i { s with mem := m } = undefinedOf i s := by
  cases i <;> rfl

@[simp] theorem refusesOf_storeMem (i : Instr) : refusesOf i { s with mem := m } = refusesOf i s := by
  cases i <;> rfl

@[simp] theorem entryChecks_storeMem (n : Nat) (ud : Bool) (rf : Option Refusal) :
    entryChecks { s with mem := m } n ud rf = entryChecks s n ud rf := rfl

@[simp] theorem moveAccess_storeMem (c : Move) (o : MemOperand) : moveAccess { s with mem := m } c o = moveAccess s c o := rfl

/-- No check of an access looks at what memory holds. -/
@[simp] theorem resolve_storeMem (a : Access) : resolve { s with mem := m } a = resolve s a := rfl

theorem moveToReg_storeMem (c : Move) (d : BitVec 5) (src : Vec) :
    moveToReg { s with mem := m } c d src = { moveToReg s c d src with mem := m } := rfl

end

/-! ### The bytes a load reads -/

/-- The value of an operand depends on memory through its listed bytes only (20_memory.md R66). -/
theorem loadBytes_congr {m m' : Memory} {l : List (Nat × Nat)} (h : ∀ c ∈ l, readByte m c.2 = readByte m' c.2) :
    loadBytes m l = loadBytes m' l := by
  induction l with
  | nil => rfl
  | cons c t ih =>
    rw [loadBytes, loadBytes, h c (List.mem_cons_self ..), ih fun d hd => h d (List.mem_cons_of_mem _ hd)]

/-- Settles O51: the checks do not read memory, and the value loaded is the same byte by byte. -/
theorem loadsReadOnlySelectedBytes : Obligations.LoadsReadOnlySelectedBytes := by
  intro i s t m hdir hexec hbytes
  rw [exec_eq_execMove] at hexec ⊢
  obtain ⟨hchecks, heffect⟩ := execMove_eq_next hexec
  rw [moveOf_storeMem, undefinedOf_storeMem, refusesOf_storeMem]
  rcases heffect with ⟨r, -, hr, rfl⟩ | ⟨o, l, -, hr, hl, rfl⟩ | ⟨r, hstore, -⟩ | ⟨o, l, hstore, -⟩
  · rw [← moveToReg_storeMem]
    exact execMove_load_reg ((entryChecks_storeMem ..).trans hchecks) hdir hr
  · have ho : memOperand i s = some o := by simp [memOperand, hr]
    have hsame : loadBytes m l = loadBytes s.mem l := loadBytes_congr fun c hc => by
      obtain ⟨la, hs, hk, ht⟩ := translate_of_mem_resolve (a := accessOf i s o) hl hc
      rw [accessKind_of_load o hdir] at ht
      exact hbytes o la c.1 c.2 ho hs hk ht
    have hresolve : resolve { s with mem := m } (moveAccess { s with mem := m } (moveOf i s) o) = .next l := by
      rw [moveAccess_storeMem, resolve_storeMem, hl]
    rw [← moveToReg_storeMem, ← hsame]
    exact execMove_load_mem ((entryChecks_storeMem ..).trans hchecks) hdir hr hresolve
  · simp [hdir] at hstore
  · simp [hdir] at hstore

/-! ### The bytes a load leaves in its register, and the bytes a store leaves in memory -/

/-- A load that completes puts each accessed byte at its offset in the destination, whatever the form. -/
theorem byteOf_readVec_of_load {i : Instr} {s t : State} {o : MemOperand} {la k x : Nat} (h : exec i s = .next t)
    (hd : (moveOf i s).dir = .load) (ho : memOperand i s = some o) (hvl : (moveOf i s).vl.bits ≤ s.params.maxvl.bits)
    (hs : segCheck s (accessOf i s o) = .next la) (hk : k ∈ (accessOf i s o).offs)
    (ht : Machine.translate s (la + k) .read = .ok x) :
    byteOf (readVec t (moveReg (moveOf i s))) k = readByte s.mem x := by
  obtain ⟨l, hl, hreg⟩ := readVec_of_load h hd ho
  rw [← accessKind_of_load o hd] at ht
  obtain ⟨hmem, hoffs, -, hlt⟩ := mem_of_resolve hl hs hk ht
  rw [hreg, byteOf_moveResult _ _ _ hvl hk, byteOf_loadBytes _ hoffs hlt hmem]

/-- A store that completes puts each selected byte of its register at that byte's physical address. -/
theorem readByte_of_store {i : Instr} {s t : State} {o : MemOperand} {la k x : Nat} (hwf : s.mem.wf) (h : exec i s = .next t)
    (ho : storedOperand i s = some o) (hs : segCheck s (accessOf i s o) = .next la) (hk : k ∈ (accessOf i s o).offs)
    (ht : Machine.translate s (la + k) .write = .ok x) :
    readByte t.mem x = byteOf (readVec s (moveReg (moveOf i s))) k := by
  obtain ⟨-, ⟨d, src, -, hn, -⟩ | ⟨o', l, ho', hdir, hl, rfl⟩⟩ := exec_eq_next h
  · simp [hn] at ho
  · obtain rfl : o' = o := Option.some.inj (ho'.symm.trans ho)
    rw [← accessKind_of_store o' hdir] at ht
    obtain ⟨hmem, -, haddrs, -⟩ := mem_of_resolve hl hs hk ht
    exact readByte_storeBytes_mem _ hwf haddrs hmem

/-- Settles O53: the store put the byte in memory, and the load takes it from there. -/
theorem loadReturnsStoredBytes : Obligations.LoadReturnsStoredBytes := by
  intro i j s t u oi oj la lb ki kj x hwf hstore hload hoi hdir hoj hvl hla hlb hki hkj hti htj
  rw [byteOf_readVec_of_load hload hdir hoj hvl hlb hkj htj, readByte_of_store hwf hstore hoi hla hki hti]

/-! ### Elements -/

/-- An element is its four bytes, least significant first (20_memory.md R53). -/
theorem elemOf_eq_bytes (v : Vec) (j : Nat) :
    elemOf v j = byteOf v (4 * j + 3) ++ byteOf v (4 * j + 2) ++ byteOf v (4 * j + 1) ++ byteOf v (4 * j) := by
  have hstart : 8 * (4 * j) = 32 * j := by omega
  unfold byteOf
  rw [BitVec.extractLsb'_append_extractLsb'_eq_extractLsb' (by omega),
    BitVec.extractLsb'_append_extractLsb'_eq_extractLsb' (by omega),
    BitVec.extractLsb'_append_extractLsb'_eq_extractLsb' (by omega), hstart, elemOf]

/-- The four bytes of an element are accessed together (20_memory.md R57). -/
theorem mem_maskedOffsets_of_element {vl : VecLen} {m : BitVec 16} {j n : Nat} (h : 4 * j ∈ maskedOffsets vl m) (hn : n < 4) :
    4 * j + n ∈ maskedOffsets vl m := by
  have hb := bytes_eq vl
  rw [mem_maskedOffsets] at h ⊢
  obtain ⟨hlt, hsel⟩ := h
  have hsame : (4 * j + n) / 4 = 4 * j / 4 := by omega
  exact ⟨by omega, hsame ▸ hsel⟩

/-- Settles O52: each of the element's four bytes is the byte at its address. -/
theorem loadedElementsAreLittleEndian : Obligations.LoadedElementsAreLittleEndian := by
  intro i s t o pa j hdir ho hvl hacc hexec hj
  obtain ⟨la, hs, -, hbytes⟩ := hacc.resolve_left (List.ne_nil_of_mem hj)
  have hbyte : ∀ k ∈ (accessOf i s o).offs, byteOf (readVec t (moveReg (moveOf i s))) k = readByte s.mem (pa k) := by
    intro k hk
    obtain ⟨ht, -⟩ := hbytes k hk
    rw [accessKind_of_load o hdir] at ht
    exact byteOf_readVec_of_load hexec hdir ho hvl hs hk ht
  rw [elemOf_eq_bytes, hbyte _ (mem_maskedOffsets_of_element hj (by decide : 3 < 4)),
    hbyte _ (mem_maskedOffsets_of_element hj (by decide : 2 < 4)),
    hbyte _ (mem_maskedOffsets_of_element hj (by decide : 1 < 4)), hbyte _ hj]

end Sys2Proof.Machine
end

section
/-! PROOFS. Addresses as exact integers: every part of an effective address stands for an integer modulo 2^asz, sums and products
stand for the sum and product of the integers (20_memory.md R60; 30_encoding.md R90 to R92, R107), and the access of each
instruction is built from the fields of its own encoding (20_memory.md R61; 30_encoding.md R81, R84, R93, R97, R104). -/

namespace Sys2Proof.Machine

/-! ### Words that stand for integers -/

/-- The word stands for the integer, up to the multiples of 2^asz that an effective address drops (20_memory.md R60). -/
def representsMod (asz : AddrSize) (x : Addr) (z : Int) : Prop := (x.toNat : Int) ≡ z [ZMOD 2 ^ asizeBits asz]

theorem two_pow_asizeBits_dvd (asz : AddrSize) : (2 : Int) ^ asizeBits asz ∣ 2 ^ 64 :=
  pow_dvd_pow 2 (by cases asz <;> decide)

/-- Reducing a word to 64 bits drops only multiples of 2^asz. -/
theorem emod_two_pow_64_modEq (asz : AddrSize) (z : Int) : z % 2 ^ 64 ≡ z [ZMOD 2 ^ asizeBits asz] :=
  (Int.mod_modEq z (2 ^ 64)).of_dvd (two_pow_asizeBits_dvd asz)

section
variable {asz : AddrSize} {x y : Addr} {a b : Int}

theorem representsMod_toNat (asz : AddrSize) (x : Addr) : representsMod asz x x.toNat := rfl

theorem representsMod_add (hx : representsMod asz x a) (hy : representsMod asz y b) :
    representsMod asz (x + y) (a + b) := by
  have h := emod_two_pow_64_modEq asz (x.toNat + y.toNat)
  rw [representsMod, BitVec.toNat_add]
  push_cast
  exact h.trans (hx.add hy)

theorem representsMod_mul (hx : representsMod asz x a) (hy : representsMod asz y b) :
    representsMod asz (x * y) (a * b) := by
  have h := emod_two_pow_64_modEq asz (x.toNat * y.toNat)
  rw [representsMod, BitVec.toNat_mul]
  push_cast
  exact h.trans (hx.mul hy)

/-- The address an instruction keeps of a word: the integer modulo 2^asz. -/
theorem toNat_truncate_of_representsMod (h : representsMod asz x a) :
    (((x.setWidth (asizeBits asz)).setWidth 64).toNat : Int) = a % 2 ^ asizeBits asz := by
  have hle : asizeBits asz ≤ 64 := by cases asz <;> decide
  rw [BitVec.toNat_setWidth_of_le hle, BitVec.toNat_setWidth]
  push_cast
  exact h

end

theorem representsMod_ofNat (asz : AddrSize) (n : Nat) : representsMod asz (BitVec.ofNat 64 n) n := by
  rw [representsMod, BitVec.toNat_ofNat]
  push_cast
  exact emod_two_pow_64_modEq asz n

/-- A sign-extended word stands for the signed integer. -/
theorem representsMod_signExtend (asz : AddrSize) {w : Nat} (d : BitVec w) (hw : w ≤ 64) :
    representsMod asz (d.signExtend 64) d.toInt := by
  have h : (d.signExtend 64).toInt % 2 ^ 64 = ((d.signExtend 64).toNat : Int) % 2 ^ 64 := by
    rw [BitVec.toInt_eq_toNat_bmod]
    exact Int.bmod_emod
  rw [BitVec.toInt_signExtend_of_le hw] at h
  exact (show _ ≡ _ [ZMOD 2 ^ 64] from h.symm).of_dvd (two_pow_asizeBits_dvd asz)

/-! ### The parts of an effective address -/

theorem representsMod_readGpr (s : State) (asz : AddrSize) (i : BitVec 4) :
    representsMod asz (readGpr s asz i) (s.gpr[i.toNat]'(i.isLt)).toNat := by
  rw [representsMod, readGpr, toNat_truncate_of_representsMod (representsMod_toNat asz _)]
  exact Int.mod_modEq _ _

theorem representsMod_dispValue (asz : AddrSize) (n8 : Nat) (d : Disp) :
    representsMod asz (dispValue n8 d) (dispInt n8 d) := by
  cases d with
  | none => exact representsMod_toNat asz 0#64
  | d8 d => exact representsMod_mul (representsMod_signExtend asz d (by decide)) (representsMod_ofNat asz n8)
  | d16 d => exact representsMod_signExtend asz d (by decide)
  | d32 d => exact representsMod_signExtend asz d (by decide)

theorem representsMod_baseValue (s : State) (asz : AddrSize) (ilen : Nat) (r : BaseReg) :
    representsMod asz (baseValue s asz ilen r) (baseInt s ilen r) := by
  cases r with
  | none => exact representsMod_toNat asz 0#64
  | gpr i => exact representsMod_readGpr s asz i
  | nextPc => exact representsMod_add (representsMod_toNat asz s.pc) (representsMod_ofNat asz ilen)

/-- The scale is 1, 2, 4 or 8 (30_encoding.md R90). -/
theorem representsMod_scale (asz : AddrSize) (scale : BitVec 2) : representsMod asz (1#64 <<< scale.toNat) (2 ^ scale.toNat) := by
  have h : ∀ c : BitVec 2, (1#64 <<< c.toNat).toNat = 2 ^ c.toNat := by decide
  rw [representsMod, h]
  push_cast
  rfl

/-- An index adds its register times the scale, no index adds 0. -/
theorem representsMod_baseIndexSum (s : State) (asz : AddrSize) (ext : RegExt) (ilen : Nat) (o : MemOperand) :
    representsMod asz (baseIndexSum s asz ext ilen o)
      (baseInt s ilen (baseOf (modeOf s) ext.base o) + indexInt s ext.index o) := by
  unfold baseIndexSum indexInt scaleOf
  refine representsMod_add (representsMod_baseValue ..) ?_
  cases hi : indexOf ext.index o with
  | none => exact representsMod_toNat asz 0#64
  | some i =>
    cases hs : o.sib with
    | none => simp [indexOf, hs] at hi
    | some sb => exact representsMod_mul (representsMod_readGpr s asz i) (representsMod_scale asz sb.scale)

/-- The 16-bit sum is the table's, row by row (30_encoding.md R91). -/
theorem representsMod_sum16 (s : State) (o : MemOperand) : representsMod .a16 (sum16 s o) (tableInt16 s o) := by
  have r := representsMod_readGpr s .a16
  obtain ⟨mod, rm, sib, disp⟩ := o
  have hrm : rm = 0#3 ∨ rm = 1#3 ∨ rm = 2#3 ∨ rm = 3#3 ∨ rm = 4#3 ∨ rm = 5#3 ∨ rm = 6#3 ∨ rm = 7#3 := by
    revert rm
    decide
  rcases hrm with rfl | rfl | rfl | rfl | rfl | rfl | rfl | rfl
  · exact representsMod_add (r 3#4) (r 6#4)
  · exact representsMod_add (r 3#4) (r 7#4)
  · exact representsMod_add (r 5#4) (r 6#4)
  · exact representsMod_add (r 5#4) (r 7#4)
  · exact r 6#4
  · exact r 7#4
  · cases mod with
    | m00 => exact representsMod_toNat .a16 0#64
    | m01 | m10 => exact r 5#4
  · exact r 3#4

/-! ### The effective address -/

theorem toNat_effectiveAddress (s : State) {asz : AddrSize} (ext : RegExt) (ilen n8 : Nat) (o : MemOperand)
    (h : asz ≠ .a16) :
    ((effectiveAddress s asz ext ilen n8 o).toNat : Int)
      = (baseInt s ilen (baseOf (modeOf s) ext.base o) + indexInt s ext.index o + dispInt n8 o.disp) % 2 ^ asizeBits asz := by
  have hsum := fun asz => representsMod_add (representsMod_baseIndexSum s asz ext ilen o) (representsMod_dispValue asz n8 o.disp)
  cases asz with
  | a16 => exact absurd rfl h
  | a32 => exact toNat_truncate_of_representsMod (hsum .a32)
  | a64 => exact toNat_truncate_of_representsMod (hsum .a64)

theorem toNat_effectiveAddress_a16 (s : State) (ext : RegExt) (ilen n8 : Nat) (o : MemOperand) :
    ((effectiveAddress s .a16 ext ilen n8 o).toNat : Int) = (tableInt16 s o + dispInt n8 o.disp) % 2 ^ 16 :=
  toNat_truncate_of_representsMod (asz := .a16)
    (representsMod_add (representsMod_sum16 s o) (representsMod_dispValue .a16 n8 o.disp))

/-! ### The fields of an instruction's access -/

theorem moveOf_prefixes (i : Instr) (s : State) : (moveOf i s).prefixes = prefixesOf i := by
  cases i <;> rfl

theorem bytes_eq_bits_div_eight (vl : VecLen) : vl.bytes = vl.bits / 8 := by cases vl <;> decide

/-- N is VL/8 in an EVEX form, else 1 (30_encoding.md R107). -/
theorem moveOf_n8 (i : Instr) (s : State) : (moveOf i s).n8 = dispFactor i := by
  cases i with
  | evexLoad128 _ _ _ _ | evexStore128 _ _ _ _ => exact bytes_eq_bits_div_eight .l128
  | evexLoad256 _ _ _ _ | evexStore256 _ _ _ _ => exact bytes_eq_bits_div_eight .l256
  | evexLoad512 _ _ _ _ | evexStore512 _ _ _ _ => exact bytes_eq_bits_div_eight .l512
  | _ => rfl

/-- The extension bits are those the instruction gives its base and index in the mode. -/
def extendsAs (mode : Mode) (i : Instr) (ext : RegExt) : Prop := ext.base = baseBit mode i ∧ ext.index = indexBit mode i

section
variable (mode : Mode) (p : Prefixes) (rex : Option Rex) (m : ModRM)

theorem extendsAs_legacyExt : extendsAs mode (.movupsLoad p rex m) (legacyExt mode rex) := by
  cases mode <;> cases rex <;> exact ⟨rfl, rfl⟩

theorem extendsAs_vex2Ext (v : Vex2) : extendsAs mode (.vex2Load128 p rex v m) (vex2Ext mode v) := by
  cases mode <;> exact ⟨rfl, rfl⟩

theorem extendsAs_vex3Ext (v : Vex3) : extendsAs mode (.vex3Load128 p rex v m) (vex3Ext mode v) := by
  cases mode <;> exact ⟨rfl, rfl⟩

theorem extendsAs_evexExt (v : Evex) : extendsAs mode (.evexLoad128 p rex v m) (evexExt mode v) := by
  cases mode <;> exact ⟨rfl, rfl⟩

end

/-- Every move takes the extension bits of its own encoding (30_encoding.md R84, R94, R97, R104). -/
theorem extendsAs_moveOf (i : Instr) (s : State) : extendsAs (modeOf s) i (moveOf i s).ext := by
  cases i with
  | movupsLoad p rex m | movupsStore p rex m => exact extendsAs_legacyExt (modeOf s) p rex m
  | vex2Load128 p rex v m | vex2Store128 p rex v m | vex2Load256 p rex v m | vex2Store256 p rex v m =>
    exact extendsAs_vex2Ext (modeOf s) p rex m v
  | vex3Load128 p rex v m | vex3Store128 p rex v m | vex3Load256 p rex v m | vex3Store256 p rex v m =>
    exact extendsAs_vex3Ext (modeOf s) p rex m v
  | evexLoad128 p rex v m | evexLoad256 p rex v m | evexLoad512 p rex v m
  | evexStore128 p rex v m | evexStore256 p rex v m | evexStore512 p rex v m =>
    exact extendsAs_evexExt (modeOf s) p rex m v

section
variable (i : Instr) (s : State) (o : MemOperand)

theorem accessOf_asz : (accessOf i s o).asz = addrSize (modeOf s) (prefixesOf i).addrSize := by
  rw [← moveOf_prefixes i s]
  rfl

theorem accessOf_ea :
    (accessOf i s o).ea = effectiveAddress s (accessOf i s o).asz (moveOf i s).ext (instrLength i) (dispFactor i) o := by
  rw [← moveOf_ilen i s, ← moveOf_n8 i s]
  rfl

/-- The default segment sees of the extension bits only that of the base (30_encoding.md R93). -/
theorem defaultSegment_congr (mode : Mode) (asz : AddrSize) {ext ext' : RegExt} (h : ext.base = ext'.base) :
    defaultSegment mode asz ext o = defaultSegment mode asz ext' o := by
  simp only [defaultSegment, h]

theorem accessOf_seg_stack {ext : RegExt} (h : ext.base = baseBit (modeOf s) i) :
    (accessOf i s o).seg = segmentOf (modeOf s) (prefixesOf i).seg (defaultSegment (modeOf s) (accessOf i s o).asz ext o)
      ∧ (accessOf i s o).stack
        = violationIsStack (modeOf s) (prefixesOf i).seg (defaultSegment (modeOf s) (accessOf i s o).asz ext o) := by
  obtain ⟨hbase, -⟩ := extendsAs_moveOf i s
  rw [defaultSegment_congr o _ _ (h.trans hbase.symm), ← moveOf_prefixes i s]
  exact ⟨rfl, rfl⟩

end

/-! ### The linear address -/

theorem linear64_of_fs_gs {s : State} {a : Access} (h : a.seg = .fs ∨ a.seg = .gs) :
    linear64 s a = ((segRegister s a.seg).base.toNat + a.ea.toNat) % 2 ^ 64 := by
  have hfg : isFsGs a.seg = true := by rcases h with h | h <;> simp [isFsGs, h]
  simp [linear64, segBase64, hfg]

theorem linear64_of_not_fs_gs {s : State} {a : Access} (hfs : a.seg ≠ .fs) (hgs : a.seg ≠ .gs) :
    linear64 s a = a.ea.toNat := by
  simp [linear64, segBase64, isFsGs, hfs, hgs]

/-- Settles O56: an effective address stands for the exact sum, and every access is made of its instruction's own fields. -/
theorem effectiveAddressIsExactSum : Obligations.EffectiveAddressIsExactSum := by
  refine ⟨fun s asz ext ilen n8 o => ⟨toNat_effectiveAddress s ext ilen n8 o, toNat_effectiveAddress_a16 s ext ilen n8 o⟩,
    fun i s o => ⟨fun hm => ?_, fun hm => ?_, fun hm => ?_, fun hasz => ?_, fun hasz => ?_,
      fun ext => accessOf_seg_stack i s o, linear64_of_fs_gs, linear64_of_not_fs_gs, rfl⟩⟩
  · rw [accessOf_asz, hm]
    rfl
  · rw [accessOf_asz]
    rcases hm with hm | hm <;> rw [hm] <;> rfl
  · rw [accessOf_asz]
    rcases hm with hm | hm | hm <;> rw [hm] <;> rfl
  · obtain ⟨hbase, hindex⟩ := extendsAs_moveOf i s
    rw [accessOf_ea, toNat_effectiveAddress s _ _ _ o hasz, hbase, hindex]
  · rw [accessOf_ea, hasz, toNat_effectiveAddress_a16]

end Sys2Proof.Machine
end

section
/-! PROOFS. What the decoder answers: the prefixes it collects, each format behind them, and from these the round trip of encoder
and decoder, the bytes that are refused, the bytes that are an undefined opcode, and the step at an encoding (30_encoding.md R80
to R115; 10_state.md R32). -/

namespace Sys2Proof.Machine

/-! ### The instructions by format -/

/-- An instruction is its format's row for a direction and a vector length: a property of the four formats is a property of all
instructions (30_encoding.md R110). -/
theorem instr_byFormat {P : Instr → Prop} (legacy : ∀ d p rex m, P (legacyInstr d p rex m))
    (vex2 : ∀ d l p rex v m, P (vex2Instr d l p rex v m)) (vex3 : ∀ d l p rex v m, P (vex3Instr d l p rex v m))
    (evex : ∀ d vl p rex v m, P (evexInstr d vl p rex v m)) (i : Instr) : P i := by
  cases i with
  | movupsLoad p rex m => exact legacy .load p rex m
  | movupsStore p rex m => exact legacy .store p rex m
  | vex2Load128 p rex v m => exact vex2 .load false p rex v m
  | vex3Load128 p rex v m => exact vex3 .load false p rex v m
  | vex2Store128 p rex v m => exact vex2 .store false p rex v m
  | vex3Store128 p rex v m => exact vex3 .store false p rex v m
  | vex2Load256 p rex v m => exact vex2 .load true p rex v m
  | vex3Load256 p rex v m => exact vex3 .load true p rex v m
  | vex2Store256 p rex v m => exact vex2 .store true p rex v m
  | vex3Store256 p rex v m => exact vex3 .store true p rex v m
  | evexLoad128 p rex v m => exact evex .load .l128 p rex v m
  | evexLoad256 p rex v m => exact evex .load .l256 p rex v m
  | evexLoad512 p rex v m => exact evex .load .l512 p rex v m
  | evexStore128 p rex v m => exact evex .store .l128 p rex v m
  | evexStore256 p rex v m => exact evex .store .l256 p rex v m
  | evexStore512 p rex v m => exact evex .store .l512 p rex v m

section
variable (mode : Mode) (d : Direction) (l : Bool) (vl : VecLen) (p : Prefixes) (rex : Option Rex) (v2 : Vex2) (v3 : Vex3)
  (ev : Evex) (m : ModRM)

@[simp] theorem encode_legacyInstr : encode (legacyInstr d p rex m) = encodeLegacy d p rex m := by
  cases d <;> rfl

@[simp] theorem encode_vex2Instr : encode (vex2Instr d l p rex v2 m) = encodeVex2 d l p rex v2 m := by
  cases d <;> cases l <;> rfl

@[simp] theorem encode_vex3Instr : encode (vex3Instr d l p rex v3 m) = encodeVex3 d l p rex v3 m := by
  cases d <;> cases l <;> rfl

@[simp] theorem encode_evexInstr : encode (evexInstr d vl p rex ev m) = encodeEvex d vl p rex ev m := by
  cases d <;> cases vl <;> rfl

@[simp] theorem wf_legacyInstr : (legacyInstr d p rex m).wf mode = legacyWf mode p rex m := by
  cases d <;> rfl

@[simp] theorem wf_vex2Instr : (vex2Instr d l p rex v2 m).wf mode = vex2Wf mode p rex v2 m := by
  cases d <;> cases l <;> rfl

@[simp] theorem wf_vex3Instr : (vex3Instr d l p rex v3 m).wf mode = vex3Wf mode p rex v3 m := by
  cases d <;> cases l <;> rfl

@[simp] theorem wf_evexInstr : (evexInstr d vl p rex ev m).wf mode = evexWf mode p rex ev m := by
  cases d <;> cases vl <;> rfl

@[simp] theorem instrLength_legacyInstr : instrLength (legacyInstr d p rex m) = legacyIlen p rex m := by
  cases d <;> rfl

@[simp] theorem instrLength_vex2Instr : instrLength (vex2Instr d l p rex v2 m) = vex2Ilen p rex m := by
  cases d <;> cases l <;> rfl

@[simp] theorem instrLength_vex3Instr : instrLength (vex3Instr d l p rex v3 m) = vex3Ilen p rex m := by
  cases d <;> cases l <;> rfl

@[simp] theorem instrLength_evexInstr : instrLength (evexInstr d vl p rex ev m) = evexIlen p rex m := by
  cases d <;> cases vl <;> rfl

end

/-! ### The bytes of the prefixes and their groups -/

/-- The prefixes hold one of the group (30_encoding.md R83; the groups are `prefixGroup`'s). -/
def hasGroup (p : Prefixes) : Nat → Bool
  | 0 => p.lock
  | 1 => p.rep.isSome
  | 2 => p.seg.isSome
  | 3 => p.opSize
  | 4 => p.addrSize
  | _ => false

/-- A byte of no group ends the prefixes. -/
theorem addPrefix_of_no_group (p : Prefixes) {b : Byte} (h : prefixGroup b = none) : addPrefix p b = .notPrefix := by
  simp only [prefixGroup, ite_eq_iff, reduceCtorEq, and_false, false_or, and_true, not_or] at h
  simp [addPrefix, repOfByte, segOfByte, h]

/-- The byte of a group is recorded in the group's own field. -/
theorem addPrefix_eq_of_group {b : Byte} {g : Nat} (h : prefixGroup b = some g) :
    (g = 0 ∧ ∀ p, addPrefix p b = if p.lock then .repeated else .added { p with lock := true })
      ∨ (g = 1 ∧ ∃ r, ∀ p, addPrefix p b = if p.rep.isSome then .repeated else .added { p with rep := some r })
      ∨ (g = 2 ∧ ∃ r, ∀ p, addPrefix p b = if p.seg.isSome then .repeated else .added { p with seg := some r })
      ∨ (g = 3 ∧ ∀ p, addPrefix p b = if p.opSize then .repeated else .added { p with opSize := true })
      ∨ (g = 4 ∧ ∀ p, addPrefix p b = if p.addrSize then .repeated else .added { p with addrSize := true }) := by
  unfold prefixGroup at h
  split_ifs at h with hlock hrep hseg hop haddr <;> obtain rfl := Option.some.inj h
  · subst hlock
    exact .inl ⟨rfl, fun _ => rfl⟩
  · refine .inr (.inl ⟨rfl, ?_⟩)
    rcases hrep with rfl | rfl <;> exact ⟨_, fun _ => rfl⟩
  · refine .inr (.inr (.inl ⟨rfl, ?_⟩))
    rcases hseg with rfl | rfl | rfl | rfl | rfl | rfl <;> exact ⟨_, fun _ => rfl⟩
  · subst hop
    exact .inr (.inr (.inr (.inl ⟨rfl, fun _ => rfl⟩)))
  · subst haddr
    exact .inr (.inr (.inr (.inr ⟨rfl, fun _ => rfl⟩)))

/-- `q` is `p` with one byte of the group `g` more. -/
def addsGroup (p : Prefixes) (g : Nat) (q : Prefixes) : Prop :=
  (∀ g', hasGroup q g' = (decide (g' = g) || hasGroup p g')) ∧ prefixesLength q = prefixesLength p + 1

theorem addsGroup_lock {p : Prefixes} (h : p.lock = false) : addsGroup p 0 { p with lock := true } := by
  refine ⟨fun g' => ?_, by simp [prefixesLength, h]; omega⟩
  rcases g' with _ | _ | _ | _ | _ | _ <;> simp [hasGroup]

theorem addsGroup_rep {p : Prefixes} (h : p.rep.isSome = false) (r : Rep) : addsGroup p 1 { p with rep := some r } := by
  refine ⟨fun g' => ?_, by simp [prefixesLength, h]; omega⟩
  rcases g' with _ | _ | _ | _ | _ | _ <;> simp [hasGroup]

theorem addsGroup_seg {p : Prefixes} (h : p.seg.isSome = false) (r : SegReg) : addsGroup p 2 { p with seg := some r } := by
  refine ⟨fun g' => ?_, by simp [prefixesLength, h]; omega⟩
  rcases g' with _ | _ | _ | _ | _ | _ <;> simp [hasGroup]

theorem addsGroup_opSize {p : Prefixes} (h : p.opSize = false) : addsGroup p 3 { p with opSize := true } := by
  refine ⟨fun g' => ?_, by simp [prefixesLength, h]; omega⟩
  rcases g' with _ | _ | _ | _ | _ | _ <;> simp [hasGroup]

theorem addsGroup_addrSize {p : Prefixes} (h : p.addrSize = false) : addsGroup p 4 { p with addrSize := true } := by
  refine ⟨fun g' => ?_, by simp [prefixesLength, h]⟩
  rcases g' with _ | _ | _ | _ | _ | _ <;> simp [hasGroup]

/-- A byte of a group is a repetition where the group is taken, and else adds to it (30_encoding.md R83). -/
theorem addPrefix_of_group (p : Prefixes) {b : Byte} {g : Nat} (h : prefixGroup b = some g) :
    if hasGroup p g then addPrefix p b = .repeated else ∃ q, addPrefix p b = .added q ∧ addsGroup p g q := by
  split
  case isTrue hg =>
    rcases addPrefix_eq_of_group h with ⟨rfl, he⟩ | ⟨rfl, r, he⟩ | ⟨rfl, r, he⟩ | ⟨rfl, he⟩ | ⟨rfl, he⟩ <;>
      exact (he p).trans (if_pos hg)
  case isFalse hg =>
    have hfree : hasGroup p g = false := by simpa using hg
    rcases addPrefix_eq_of_group h with ⟨rfl, he⟩ | ⟨rfl, r, he⟩ | ⟨rfl, r, he⟩ | ⟨rfl, he⟩ | ⟨rfl, he⟩ <;>
      refine ⟨_, (he p).trans (if_neg hg), ?_⟩
    · exact addsGroup_lock hfree
    · exact addsGroup_rep hfree r
    · exact addsGroup_seg hfree r
    · exact addsGroup_opSize hfree
    · exact addsGroup_addrSize hfree

theorem addPrefix_of_hasGroup {p : Prefixes} {b : Byte} {g : Nat} (h : prefixGroup b = some g) (hg : hasGroup p g = true) :
    addPrefix p b = .repeated := by
  simpa [hg] using addPrefix_of_group p h

theorem addPrefix_of_not_hasGroup {p : Prefixes} {b : Byte} {g : Nat} (h : prefixGroup b = some g)
    (hg : hasGroup p g = false) : ∃ q, addPrefix p b = .added q ∧ addsGroup p g q := by
  simpa [hg] using addPrefix_of_group p h

/-- What one byte can be at the place of a legacy one (30_encoding.md R83). -/
theorem addPrefix_eq_added {p q : Prefixes} {b : Byte} (h : addPrefix p b = .added q) :
    ∃ g, prefixGroup b = some g ∧ addsGroup p g q := by
  cases hb : prefixGroup b with
  | none => simp [addPrefix_of_no_group p hb] at h
  | some g =>
    refine ⟨g, rfl, ?_⟩
    cases hg : hasGroup p g with
    | true => simp [addPrefix_of_hasGroup hb hg] at h
    | false =>
      obtain ⟨q', hq, hadds⟩ := addPrefix_of_not_hasGroup hb hg
      obtain rfl := PrefixByte.added.inj (hq.symm.trans h)
      exact hadds

theorem isPrefixByte_of_no_group {b : Byte} (h : prefixGroup b = none) : isPrefixByte b = false := by
  simp [isPrefixByte, addPrefix_of_no_group _ h]

theorem isPrefixByte_of_group {b : Byte} {g : Nat} (h : prefixGroup b = some g) : isPrefixByte b = true := by
  have hempty : hasGroup noPrefixes g = false := by rcases g with _ | _ | _ | _ | _ | _ <;> rfl
  obtain ⟨q, hq, -⟩ := addPrefix_of_not_hasGroup h hempty
  simp [isPrefixByte, hq]

/-! ### Reading the prefixes -/

theorem takePrefixes_of_added {p q : Prefixes} {b : Byte} (bs : List Byte) (h : addPrefix p b = .added q) :
    takePrefixes p (b :: bs) = takePrefixes q bs := by
  simp [takePrefixes, h]

theorem takePrefixes_of_repeated {p : Prefixes} {b : Byte} (bs : List Byte) (h : addPrefix p b = .repeated) :
    takePrefixes p (b :: bs) = none := by
  simp [takePrefixes, h]

theorem takePrefixes_of_notPrefix {p : Prefixes} {b : Byte} (bs : List Byte) (h : addPrefix p b = .notPrefix) :
    takePrefixes p (b :: bs) = some (p, b :: bs) := by
  simp [takePrefixes, h]

/-- Prefixes that are read were the first bytes, one byte for each. -/
theorem takePrefixes_eq_some {p q : Prefixes} {bs rest : List Byte} (h : takePrefixes p bs = some (q, rest)) :
    ∃ taken, bs = taken ++ rest ∧ prefixesLength p + taken.length = prefixesLength q := by
  induction bs generalizing p with
  | nil =>
    obtain ⟨rfl, rfl⟩ := Prod.mk.inj (Option.some.inj h)
    exact ⟨[], rfl, rfl⟩
  | cons b bs ih =>
    cases hb : addPrefix p b with
    | notPrefix =>
      rw [takePrefixes_of_notPrefix bs hb] at h
      obtain ⟨rfl, rfl⟩ := Prod.mk.inj (Option.some.inj h)
      exact ⟨[], rfl, rfl⟩
    | repeated => simp [takePrefixes_of_repeated bs hb] at h
    | added p' =>
      rw [takePrefixes_of_added bs hb] at h
      obtain ⟨taken, rfl, hlen⟩ := ih h
      obtain ⟨_, -, -, hone⟩ := addPrefix_eq_added hb
      exact ⟨b :: taken, rfl, by rw [List.length_cons]; omega⟩

/-- A byte of a group that is taken, after more prefixes, is a repetition. -/
theorem takePrefixes_of_hasGroup {c : Byte} {g : Nat} (hc : prefixGroup c = some g) (rest : List Byte) {v : List Byte}
    (hv : ∀ x ∈ v, prefixGroup x ≠ none) {p : Prefixes} (hp : hasGroup p g = true) :
    takePrefixes p (v ++ c :: rest) = none := by
  induction v generalizing p with
  | nil => exact takePrefixes_of_repeated rest (addPrefix_of_hasGroup hc hp)
  | cons x v ih =>
    obtain ⟨gx, hx⟩ := Option.ne_none_iff_exists'.1 (hv x (List.mem_cons_self ..))
    rw [List.cons_append]
    cases hgx : hasGroup p gx with
    | true => exact takePrefixes_of_repeated _ (addPrefix_of_hasGroup hx hgx)
    | false =>
      obtain ⟨q, hq, hadds, -⟩ := addPrefix_of_not_hasGroup hx hgx
      rw [takePrefixes_of_added _ hq]
      exact ih (fun y hy => hv y (List.mem_cons_of_mem _ hy)) (by simp [hadds, hp])

/-- Two bytes of one group among the prefixes are a repetition. -/
theorem takePrefixes_of_two {b c : Byte} {g : Nat} (hb : prefixGroup b = some g) (hc : prefixGroup c = some g)
    {u v : List Byte} (rest : List Byte) (huv : ∀ x ∈ u ++ v, prefixGroup x ≠ none) (p : Prefixes) :
    takePrefixes p (u ++ b :: (v ++ c :: rest)) = none := by
  induction u generalizing p with
  | nil =>
    rw [List.nil_append]
    cases hg : hasGroup p g with
    | true => exact takePrefixes_of_repeated _ (addPrefix_of_hasGroup hb hg)
    | false =>
      obtain ⟨q, hq, hadds, -⟩ := addPrefix_of_not_hasGroup hb hg
      rw [takePrefixes_of_added _ hq]
      exact takePrefixes_of_hasGroup hc rest huv (by simp [hadds])
  | cons x u ih =>
    obtain ⟨gx, hx⟩ := Option.ne_none_iff_exists'.1 (huv x (List.mem_cons_self ..))
    rw [List.cons_append]
    cases hgx : hasGroup p gx with
    | true => exact takePrefixes_of_repeated _ (addPrefix_of_hasGroup hx hgx)
    | false =>
      obtain ⟨q, hq, -⟩ := addPrefix_of_not_hasGroup hx hgx
      rw [takePrefixes_of_added _ hq]
      exact ih (fun y hy => huv y (List.mem_cons_of_mem _ hy)) q

/-! ### Behind the prefixes -/

/-- The byte is no legacy or REX byte in the mode, so that a format begins at it (30_encoding.md R114). -/
def startsFormat (mode : Mode) (b : Byte) : Prop := prefixGroup b = none ∧ isRexByte mode b = false

/-- The escape byte and the first bytes of VEX3, VEX2 and EVEX. -/
theorem startsFormat_of_format (mode : Mode) {b : Byte} (h : b = 0x0F#8 ∨ b = 0xC4#8 ∨ b = 0xC5#8 ∨ b = 0x62#8) :
    startsFormat mode b := by
  rcases h with rfl | rfl | rfl | rfl <;> cases mode <;> exact ⟨rfl, rfl⟩

section
variable {mode : Mode} {p : Prefixes} {rex : Option Rex} {b : Byte}

/-- The decoder reads back the prefixes and the REX of an encoding, and goes on at the format. -/
theorem decode_eq_decodeFormat (hrex : rexWf mode rex = true) (hb : startsFormat mode b) (bs : List Byte) :
    decode mode (encodePrefixes p ++ encodeRex rex ++ b :: bs)
      = decodeFormat mode (encodePrefixes p ++ encodeRex rex ++ b :: bs).length p rex (b :: bs) := by
  obtain ⟨hgroup, hnorex⟩ := hb
  have hprefixes : takePrefixes noPrefixes (encodePrefixes p ++ (encodeRex rex ++ b :: bs))
      = some (p, encodeRex rex ++ b :: bs) := by
    refine takePrefixes_encodePrefixes p fun q c t hc => ?_
    cases rex with
    | none =>
      obtain ⟨rfl, -⟩ := List.cons.inj hc
      exact addPrefix_of_no_group q hgroup
    | some r =>
      obtain ⟨rfl, -⟩ := List.cons.inj hc
      exact addPrefix_byteOfRex q r
  have hrexbyte : takeRex mode (encodeRex rex ++ b :: bs) = (rex, b :: bs) := by
    refine takeRex_encodeRex mode rex hrex fun c t hc => ?_
    obtain ⟨rfl, -⟩ := List.cons.inj hc
    exact hnorex
  rw [List.append_assoc, decode, hprefixes]
  simp only [hrexbyte]

/-- No byte at which a format begins is out of place behind a REX. -/
theorem not_misplaced (rex : Option Rex) (hb : startsFormat mode b) :
    (rex.isSome && (isPrefixByte b || isRexByte mode b)) = false := by
  simp [isPrefixByte_of_no_group hb.1, hb.2]

theorem decode_escape (hrex : rexWf mode rex = true) (bs : List Byte) :
    decode mode (encodePrefixes p ++ encodeRex rex ++ 0x0F#8 :: bs)
      = finish (addrSize mode p.addrSize) (encodePrefixes p ++ encodeRex rex ++ 0x0F#8 :: bs).length (selectLegacy p rex) bs := by
  have hstart := startsFormat_of_format mode (.inl (rfl : (0x0F#8 : Byte) = _))
  rw [decode_eq_decodeFormat hrex hstart]
  simp [decodeFormat.eq_def, not_misplaced rex hstart]

theorem decode_vex2 (hrex : rexWf mode rex = true) {x : Byte} (hx : marksPrefix mode x = true) (bs : List Byte) :
    decode mode (encodePrefixes p ++ encodeRex rex ++ 0xC5#8 :: x :: bs)
      = finish (addrSize mode p.addrSize) (encodePrefixes p ++ encodeRex rex ++ 0xC5#8 :: x :: bs).length
          (selectVex2 p rex x) bs := by
  have hstart := startsFormat_of_format mode (.inr (.inr (.inl (rfl : (0xC5#8 : Byte) = _))))
  rw [decode_eq_decodeFormat hrex hstart, decodeFormat, not_misplaced rex hstart]
  simp [hx]

theorem decode_vex3 (hrex : rexWf mode rex = true) {x : Byte} (hx : marksPrefix mode x = true) (y : Byte) (bs : List Byte) :
    decode mode (encodePrefixes p ++ encodeRex rex ++ 0xC4#8 :: x :: y :: bs)
      = finish (addrSize mode p.addrSize) (encodePrefixes p ++ encodeRex rex ++ 0xC4#8 :: x :: y :: bs).length
          (selectVex3 p rex x y) bs := by
  have hstart := startsFormat_of_format mode (.inr (.inl (rfl : (0xC4#8 : Byte) = _)))
  rw [decode_eq_decodeFormat hrex hstart, decodeFormat, not_misplaced rex hstart]
  simp [hx]

theorem decode_evex (hrex : rexWf mode rex = true) {x : Byte} (hx : marksPrefix mode x = true) (y z : Byte) (bs : List Byte) :
    decode mode (encodePrefixes p ++ encodeRex rex ++ 0x62#8 :: x :: y :: z :: bs)
      = finish (addrSize mode p.addrSize) (encodePrefixes p ++ encodeRex rex ++ 0x62#8 :: x :: y :: z :: bs).length
          (selectEvex p rex x y z) bs := by
  have hstart := startsFormat_of_format mode (.inr (.inr (.inr (rfl : (0x62#8 : Byte) = _))))
  rw [decode_eq_decodeFormat hrex hstart, decodeFormat, not_misplaced rex hstart]
  simp [hx]

/-- C4H, C5H and 62H are other instructions where the byte behind them does not mark a payload (30_encoding.md R98, R109). -/
theorem decode_of_not_marks (hrex : rexWf mode rex = true) (hb : b = 0xC4#8 ∨ b = 0xC5#8 ∨ b = 0x62#8) {x : Byte}
    (hx : marksPrefix mode x = false) (bs : List Byte) :
    decode mode (encodePrefixes p ++ encodeRex rex ++ b :: x :: bs) = .reject .notMovups := by
  have hstart := startsFormat_of_format mode (.inr hb)
  rw [decode_eq_decodeFormat hrex hstart, decodeFormat, not_misplaced rex hstart]
  rcases hb with rfl | rfl | rfl
  · cases bs <;> simp [hx]
  · simp [hx]
  · rcases bs with _ | ⟨y, _ | ⟨z, bs⟩⟩ <;> simp [hx]

/-- A byte at which a format could begin, but none of the four does (30_encoding.md R114). -/
theorem decode_of_no_format (hrex : rexWf mode rex = true) (hstart : startsFormat mode b)
    (hb : ¬ (b = 0x0F#8 ∨ b = 0xC4#8 ∨ b = 0xC5#8 ∨ b = 0x62#8)) (bs : List Byte) :
    decode mode (encodePrefixes p ++ encodeRex rex ++ b :: bs) = .reject .notMovups := by
  simp only [not_or] at hb
  obtain ⟨h0F, hC4, hC5, h62⟩ := hb
  rw [decode_eq_decodeFormat hrex hstart]
  simp [decodeFormat.eq_def, not_misplaced rex hstart, h0F, hC4, hC5, h62]

end

/-! ### The opcode and what the fields before it select -/

@[simp] theorem opcodeOf_byteOfOpcode (d : Direction) : opcodeOf (byteOfOpcode d) = some d := by
  cases d <;> rfl

section
variable {asz : AddrSize} {total : Nat} {select : Direction → Selected} {op : Byte} {d : Direction} {bs rest : List Byte}

theorem finish_of_no_opcode (h : opcodeOf op = none) : finish asz total select (op :: bs) = .reject .notMovups := by
  simp [finish, h]

theorem finish_of_other (h : opcodeOf op = some d) (hs : select d = .other) :
    finish asz total select (op :: bs) = .reject .notMovups := by
  simp [finish, h, hs]

theorem finish_of_undefined (h : opcodeOf op = some d) (hs : select d = .undefined) {m : ModRM}
    (hm : takeModRM asz bs = some (m, rest)) :
    finish asz total select (op :: bs) = .undefinedOpcode (total - rest.length) := by
  simp [finish, h, hs, hm]

theorem finish_of_row (h : opcodeOf op = some d) {f : ModRM → Instr} (hs : select d = .row f) {m : ModRM}
    (hm : takeModRM asz bs = some (m, rest)) : finish asz total select (op :: bs) = .instr (f m) rest := by
  simp [finish, h, hs, hm]

end

/-! ### The round trip -/

/-- In `Mode64` any first payload byte marks a VEX or EVEX encoding, elsewhere its bits 7:6 do (30_encoding.md R98, R109). -/
theorem marksPrefix_eq_true_iff {mode : Mode} {x : Byte} :
    marksPrefix mode x = true ↔ mode = .mode64 ∨ x.extractLsb' 6 2 = 3#2 := by
  simp [marksPrefix]

/-- The two marking bits, where they are the ones of the payload's fields. -/
theorem marksPrefix_of_fields {mode : Mode} {x : Byte} {a b : Bool}
    (hx : x.extractLsb' 6 2 = BitVec.ofBool a ++ BitVec.ofBool b) (h : (mode == .mode64 || (a && b)) = true) :
    marksPrefix mode x = true := by
  rw [marksPrefix_eq_true_iff, hx]
  simp only [Bool.or_eq_true, beq_iff_eq, Bool.and_eq_true] at h
  rcases h with h | ⟨rfl, rfl⟩
  · exact .inl h
  · exact .inr rfl

section
variable {mode : Mode} (d : Direction) (p : Prefixes) (rex : Option Rex) (m : ModRM) (rest : List Byte)

theorem encodeLegacy_append : encodeLegacy d p rex m ++ rest
    = encodePrefixes p ++ encodeRex rex ++ 0x0F#8 :: byteOfOpcode d :: (encodeModRM m ++ rest) := by
  simp [encodeLegacy]

theorem decode_encodeLegacy (h : legacyWf mode p rex m = true) :
    decode mode (encodeLegacy d p rex m ++ rest) = .instr (legacyInstr d p rex m) rest := by
  simp only [legacyWf, Bool.and_eq_true] at h
  obtain ⟨⟨⟨hop, hrep⟩, hrex⟩, hm⟩ := h
  have hselect : selectLegacy p rex d = .row (legacyInstr d p rex) := by
    have hop' : p.opSize = false := by simpa using hop
    have hrep' : p.rep = none := by simpa using hrep
    simp [selectLegacy, hop', hrep']
  rw [encodeLegacy_append, decode_escape hrex,
    finish_of_row (opcodeOf_byteOfOpcode d) hselect (takeModRM_encodeModRM _ m rest hm)]

theorem decode_encodeVex2 (l : Bool) (v : Vex2) (h : vex2Wf mode p rex v m = true) :
    decode mode (encodeVex2 d l p rex v m ++ rest) = .instr (vex2Instr d l p rex v m) rest := by
  simp only [vex2Wf, Bool.and_eq_true] at h
  obtain ⟨⟨hrex, hmarks⟩, hm⟩ := h
  obtain ⟨hfields, hl, hpp, hbits⟩ := vex2_fields v l
  have hselect : selectVex2 p rex (byteOfVex2 v l) d = .row (vex2Instr d l p rex v) := by
    simp only [selectVex2, hpp, if_true, hl, hfields]
  have hbytes : encodeVex2 d l p rex v m ++ rest
      = encodePrefixes p ++ encodeRex rex ++ 0xC5#8 :: byteOfVex2 v l :: byteOfOpcode d :: (encodeModRM m ++ rest) := by
    simp [encodeVex2]
  rw [hbytes, decode_vex2 hrex (marksPrefix_of_fields hbits hmarks),
    finish_of_row (opcodeOf_byteOfOpcode d) hselect (takeModRM_encodeModRM _ m rest hm)]

theorem decode_encodeVex3 (l : Bool) (v : Vex3) (h : vex3Wf mode p rex v m = true) :
    decode mode (encodeVex3 d l p rex v m ++ rest) = .instr (vex3Instr d l p rex v m) rest := by
  simp only [vex3Wf, Bool.and_eq_true] at h
  obtain ⟨⟨hrex, hmarks⟩, hm⟩ := h
  obtain ⟨hfields, hl, hpp, hmap, hbits⟩ := vex3_fields v l
  have hselect : selectVex3 p rex (firstOfVex3 v) (secondOfVex3 v l) d = .row (vex3Instr d l p rex v) := by
    simp only [selectVex3, hmap, hpp, if_true, hl, hfields]
  have hbytes : encodeVex3 d l p rex v m ++ rest
      = encodePrefixes p ++ encodeRex rex
        ++ 0xC4#8 :: firstOfVex3 v :: secondOfVex3 v l :: byteOfOpcode d :: (encodeModRM m ++ rest) := by
    simp [encodeVex3]
  rw [hbytes, decode_vex3 hrex (marksPrefix_of_fields hbits hmarks),
    finish_of_row (opcodeOf_byteOfOpcode d) hselect (takeModRM_encodeModRM _ m rest hm)]

theorem decode_encodeEvex (vl : VecLen) (v : Evex) (h : evexWf mode p rex v m = true) :
    decode mode (encodeEvex d vl p rex v m ++ rest) = .instr (evexInstr d vl p rex v m) rest := by
  simp only [evexWf, Bool.and_eq_true] at h
  obtain ⟨⟨hrex, hmarks⟩, hm⟩ := h
  obtain ⟨-, -, -, -, -, hmap, hbits⟩ := evex_first v
  obtain ⟨-, -, -, hpp⟩ := evex_second v
  obtain ⟨-, hll, -⟩ := evex_third v vl
  have hselect : selectEvex p rex (firstOfEvex v) (secondOfEvex v) (thirdOfEvex v vl) d = .row (evexInstr d vl p rex v) := by
    simp [selectEvex, hmap, hpp, hll, evex_fields]
  have hbytes : encodeEvex d vl p rex v m ++ rest
      = encodePrefixes p ++ encodeRex rex
        ++ 0x62#8 :: firstOfEvex v :: secondOfEvex v :: thirdOfEvex v vl :: byteOfOpcode d :: (encodeModRM m ++ rest) := by
    simp [encodeEvex]
  rw [hbytes, decode_evex hrex (marksPrefix_of_fields hbits hmarks),
    finish_of_row (opcodeOf_byteOfOpcode d) hselect (takeModRM_encodeModRM _ m rest hm)]

end

/-- Settles O1, format by format: the decoder reads back each part the encoder wrote, in the order it wrote them. -/
theorem decodeEncodeRoundTrip : Obligations.DecodeEncodeRoundTrip := by
  intro mode i rest h
  induction i using instr_byFormat with
  | legacy d p rex m =>
    rw [encode_legacyInstr]
    exact decode_encodeLegacy d p rex m rest (by simpa using h)
  | vex2 d l p rex v m =>
    rw [encode_vex2Instr]
    exact decode_encodeVex2 d p rex m rest l v (by simpa using h)
  | vex3 d l p rex v m =>
    rw [encode_vex3Instr]
    exact decode_encodeVex3 d p rex m rest l v (by simpa using h)
  | evex d vl p rex v m =>
    rw [encode_evexInstr]
    exact decode_encodeEvex d p rex m rest vl v (by simpa using h)

/-! ### The step at an encoding -/

theorem length_encode (i : Instr) : (encode i).length = instrLength i := by
  induction i using instr_byFormat with
  | legacy d p rex m => simpa using Laws.EncodedLength.length_encodeLegacy d p rex m
  | vex2 d l p rex v m => simpa using Laws.EncodedLength.length_encodeVex2 d l p rex v m
  | vex3 d l p rex v m => simpa using Laws.EncodedLength.length_encodeVex3 d l p rex v m
  | evex d vl p rex v m => simpa using Laws.EncodedLength.length_encodeEvex d vl p rex v m

/-- The bytes of an encoding are those of its format, at most five before ModR/M, behind the prefixes and REX. -/
theorem ilenOf_le {fixed : Nat} (hfixed : fixed ≤ 5) (p : Prefixes) (rex : Option Rex) (m : ModRM) :
    ilenOf fixed p rex m ≤ maxEncodedLength := by
  have hp := prefixesLength_le p
  have hr := rexLength_le rex
  have hm := modrmLength_le m
  simp only [ilenOf, maxEncodedLength]
  omega

theorem instrLength_le (i : Instr) : instrLength i ≤ maxEncodedLength := by
  induction i using instr_byFormat with
  | legacy d p rex m => exact (instrLength_legacyInstr d p rex m).trans_le (ilenOf_le (by decide) p rex m)
  | vex2 d l p rex v m => exact (instrLength_vex2Instr d l p rex v m).trans_le (ilenOf_le (by decide) p rex m)
  | vex3 d l p rex v m => exact (instrLength_vex3Instr d l p rex v m).trans_le (ilenOf_le (by decide) p rex m)
  | evex d vl p rex v m => exact (instrLength_evexInstr d vl p rex v m).trans_le (ilenOf_le (by decide) p rex m)

/-- The bytes stand in memory where they are fetched from `offset` on. -/
def standsAt (s : State) (l : List Byte) (offset : Nat) : Prop :=
  ∀ (n : Nat) (b : Byte), l[n]? = some b → ∃ a, codeAddress s (offset + n) = some a ∧ readByte s.mem a = b

theorem standsAt_cons {s : State} {b : Byte} {l : List Byte} {offset : Nat} (h : standsAt s (b :: l) offset) :
    (∃ a, codeAddress s offset = some a ∧ readByte s.mem a = b) ∧ standsAt s l (offset + 1) := by
  refine ⟨h 0 b rfl, fun n c hc => ?_⟩
  obtain ⟨a, ha, hread⟩ := h (n + 1) c hc
  exact ⟨a, by rw [← ha]; congr 1; omega, hread⟩

/-- A fetch that is long enough begins with the bytes that stand at its offset. -/
theorem fetchFrom_of_standsAt {s : State} {l : List Byte} {n offset : Nat} (hlen : l.length ≤ n) (h : standsAt s l offset) :
    ∃ rest, fetchFrom s n offset = l ++ rest := by
  induction l generalizing n offset with
  | nil => exact ⟨_, rfl⟩
  | cons b l ih =>
    cases n with
    | zero => simp at hlen
    | succ n =>
      obtain ⟨⟨a, ha, hread⟩, htail⟩ := standsAt_cons h
      obtain ⟨rest, hrest⟩ := ih (by simpa using hlen) htail
      exact ⟨rest, by simp [fetchFrom, ha, hread, hrest]⟩

theorem step_of_decode {s : State} {i : Instr} {rest : List Byte} (ht : textFetchable s = true)
    (h : decode (modeOf s) (fetchBytes s) = .instr i rest) : step s = exec i s := by
  rw [step, runOne, if_pos ht, h]
  rfl

/-- Settles O10: the fetch begins with the encoding, which the decoder reads back whatever follows it (O1). -/
theorem stepExecutesEncoding : Obligations.StepExecutesEncoding := by
  intro s i ht hwf hbytes
  have hlen : (encode i).length ≤ maxEncodedLength := length_encode i ▸ instrLength_le i
  obtain ⟨rest, hfetch⟩ : ∃ rest, fetchBytes s = encode i ++ rest := fetchFrom_of_standsAt hlen hbytes
  refine step_of_decode (rest := rest) ht ?_
  rw [hfetch]
  exact decodeEncodeRoundTrip (modeOf s) i rest hwf

/-! ### What the decoder takes -/

theorem takeSib_eq_some {needs : Bool} {bs rest : List Byte} {sib : Option Sib} (h : takeSib needs bs = some (sib, rest)) :
    sib.isSome = needs ∧ ∃ taken, bs = taken ++ rest ∧ taken.length = if sib.isSome then 1 else 0 := by
  unfold takeSib at h
  split at h
  · cases h
    exact ⟨rfl, [], rfl, rfl⟩
  · cases h
  · rename_i b bs
    cases h
    exact ⟨rfl, [b], rfl, rfl⟩

theorem takeDisp_eq_some {size : DispSize} {bs rest : List Byte} {d : Disp} (h : takeDisp size bs = some (d, rest)) :
    sizeOfDisp d = size ∧ ∃ taken, bs = taken ++ rest ∧ taken.length = dispLength d := by
  unfold takeDisp at h
  split at h <;> cases h
  · exact ⟨rfl, [], rfl, rfl⟩
  · exact ⟨rfl, [_], rfl, rfl⟩
  · exact ⟨rfl, [_, _], rfl, rfl⟩
  · exact ⟨rfl, [_, _, _, _], rfl, rfl⟩

/-- A ModR/M that is read is well formed for the address size, and took its own bytes. -/
theorem takeModRM_eq_some {asz : AddrSize} {bs rest : List Byte} {m : ModRM} (h : takeModRM asz bs = some (m, rest)) :
    m.wf asz = true ∧ ∃ taken, bs = taken ++ rest ∧ taken.length = modrmLength m := by
  cases bs with
  | nil => cases h
  | cons b bs =>
    rw [takeModRM] at h
    split at h
    · cases h
      exact ⟨rfl, [b], rfl, rfl⟩
    · split at h
      · cases h
      · rename_i sib bs1 hsib
        split at h
        · cases h
        · rename_i d bs2 hdisp
          cases h
          obtain ⟨hneeds, taken1, rfl, hlen1⟩ := takeSib_eq_some hsib
          obtain ⟨hsize, taken2, rfl, hlen2⟩ := takeDisp_eq_some hdisp
          refine ⟨by simp [ModRM.wf, MemOperand.wf, hneeds, hsize], b :: (taken1 ++ taken2), by simp, ?_⟩
          simp only [List.length_cons, List.length_append, hlen1, hlen2, modrmLength]
          omega

theorem takeRex_spec (mode : Mode) (bs : List Byte) :
    rexWf mode (takeRex mode bs).1 = true
      ∧ ∃ taken, bs = taken ++ (takeRex mode bs).2 ∧ taken.length = rexLength (takeRex mode bs).1 := by
  cases bs with
  | nil => exact ⟨by simp [takeRex, rexWf], [], rfl, rfl⟩
  | cons b bs =>
    cases hb : isRexByte mode b with
    | false => exact ⟨by simp [takeRex, hb, rexWf], [], by simp [takeRex, hb], by simp [takeRex, hb, rexLength]⟩
    | true =>
      have hmode : mode = .mode64 := by
        simp only [isRexByte, Bool.and_eq_true, beq_iff_eq] at hb
        exact hb.1
      exact ⟨by simp [rexWf, hmode], [b], by simp [takeRex, hb], by simp [takeRex, hb, rexLength]⟩

section
variable {mode : Mode} {asz : AddrSize} {total : Nat} {p : Prefixes} {rex : Option Rex} {d : Direction} {f : ModRM → Instr}
  {bs rest : List Byte} {i : Instr}

/-- An instruction comes from a row that was selected, and from the ModR/M behind the opcode byte. -/
theorem finish_eq_instr {select : Direction → Selected} (h : finish asz total select bs = .instr i rest) :
    ∃ d f m, select d = .row f ∧ i = f m ∧ m.wf asz = true
      ∧ ∃ taken, bs = taken ++ rest ∧ taken.length = modrmLength m + 1 := by
  cases bs with
  | nil => cases h
  | cons op bs =>
    rw [finish] at h
    split at h
    · cases h
    · rename_i d _
      split at h
      · cases h
      · split at h <;> cases h
      · rename_i f hselect
        split at h <;> cases h
        rename_i m hm
        obtain ⟨hwf, taken, rfl, hlen⟩ := takeModRM_eq_some hm
        exact ⟨d, f, m, hselect, rfl, hwf, op :: taken, rfl, by rw [List.length_cons, hlen]⟩

theorem selectLegacy_eq_row (h : selectLegacy p rex d = .row f) :
    p.opSize = false ∧ p.rep.isNone = true ∧ f = legacyInstr d p rex := by
  unfold selectLegacy at h
  split at h <;> cases h
  rename_i hnone
  simpa using hnone

theorem selectVex2_eq_row {x : Byte} (h : selectVex2 p rex x d = .row f) : ∃ l, f = vex2Instr d l p rex (vex2OfByte x) := by
  unfold selectVex2 at h
  split at h <;> cases h
  exact ⟨_, rfl⟩

theorem selectVex3_eq_row {x y : Byte} (h : selectVex3 p rex x y d = .row f) :
    ∃ l, f = vex3Instr d l p rex (vex3OfBytes x y) := by
  unfold selectVex3 at h
  split at h
  · split at h <;> cases h
    exact ⟨_, rfl⟩
  · split at h <;> cases h

theorem selectEvex_eq_row {x y z : Byte} (h : selectEvex p rex x y z d = .row f) :
    ∃ vl, f = evexInstr d vl p rex (evexOfBytes x y z) := by
  unfold selectEvex at h
  split at h
  · cases h
  · split at h
    · split at h
      · split at h <;> cases h
        exact ⟨_, rfl⟩
      · cases h
    · cases h

/-- The marking bits of a payload byte are its bits 7 and 6. -/
theorem marksPrefix_eq (mode : Mode) (x : Byte) : marksPrefix mode x = (mode == .mode64 || (x.getLsbD 7 && x.getLsbD 6)) := by
  have hbits : ∀ x : Byte, (x.extractLsb' 6 2 == 3#2) = (x.getLsbD 7 && x.getLsbD 6) := by decide
  rw [marksPrefix, hbits]

theorem getLsbD_vvvv_vex2OfByte (x : Byte) : (vex2OfByte x).vvvv.getLsbD 3 = x.getLsbD 6 := by
  simp [vex2OfByte]

/-- Every row that is selected answers encodings of itself in the mode, with `fixed` bytes between REX and ModR/M. -/
def rowsFit (mode : Mode) (p : Prefixes) (rex : Option Rex) (fixed : Nat) (select : Direction → Selected) : Prop :=
  ∀ (d : Direction) (f : ModRM → Instr) (m : ModRM), select d = .row f → m.wf (addrSize mode p.addrSize) = true →
    (f m).wf mode = true ∧ instrLength (f m) = ilenOf fixed p rex m

theorem rowsFit_selectLegacy (hrex : rexWf mode rex = true) : rowsFit mode p rex 2 (selectLegacy p rex) := by
  intro d f m hselect hm
  obtain ⟨hop, hrep, rfl⟩ := selectLegacy_eq_row hselect
  exact ⟨by rw [wf_legacyInstr, legacyWf, hop, hrep, hrex, hm]; rfl, instrLength_legacyInstr ..⟩

theorem rowsFit_selectVex2 (hrex : rexWf mode rex = true) {x : Byte} (hx : marksPrefix mode x = true) :
    rowsFit mode p rex 3 (selectVex2 p rex x) := by
  intro d f m hselect hm
  obtain ⟨l, rfl⟩ := selectVex2_eq_row hselect
  rw [marksPrefix_eq, ← getLsbD_vvvv_vex2OfByte] at hx
  refine ⟨?_, instrLength_vex2Instr ..⟩
  rw [wf_vex2Instr, vex2Wf, hrex, hm, Bool.true_and, Bool.and_true]
  exact hx

theorem rowsFit_selectVex3 (hrex : rexWf mode rex = true) {x : Byte} (hx : marksPrefix mode x = true) (y : Byte) :
    rowsFit mode p rex 4 (selectVex3 p rex x y) := by
  intro d f m hselect hm
  obtain ⟨l, rfl⟩ := selectVex3_eq_row hselect
  rw [marksPrefix_eq] at hx
  refine ⟨?_, instrLength_vex3Instr ..⟩
  rw [wf_vex3Instr, vex3Wf, hrex, hm, Bool.true_and, Bool.and_true]
  exact hx

theorem rowsFit_selectEvex (hrex : rexWf mode rex = true) {x : Byte} (hx : marksPrefix mode x = true) (y z : Byte) :
    rowsFit mode p rex 5 (selectEvex p rex x y z) := by
  intro d f m hselect hm
  obtain ⟨vl, rfl⟩ := selectEvex_eq_row hselect
  rw [marksPrefix_eq] at hx
  refine ⟨?_, instrLength_evexInstr ..⟩
  rw [wf_evexInstr, evexWf, hrex, hm, Bool.true_and, Bool.and_true]
  exact hx

/-- Behind the format bytes `pre` an instruction takes its opcode byte and its ModR/M. -/
theorem finish_spec {select : Direction → Selected} {pre : List Byte} (hrows : rowsFit mode p rex (pre.length + 1) select)
    (h : finish (addrSize mode p.addrSize) total select bs = .instr i rest) :
    i.wf mode = true
      ∧ ∃ taken, pre ++ bs = taken ++ rest ∧ prefixesLength p + rexLength rex + taken.length = instrLength i := by
  obtain ⟨d, f, m, hselect, rfl, hm, taken, rfl, hlen⟩ := finish_eq_instr h
  obtain ⟨hwf, hilen⟩ := hrows d f m hselect hm
  refine ⟨hwf, pre ++ taken, (List.append_assoc ..).symm, ?_⟩
  rw [hilen, ilenOf, List.length_append, hlen]
  omega

/-- Behind the prefixes an instruction is one of the four formats, with its first byte and payload in front of the opcode. -/
theorem decodeFormat_eq_instr (h : decodeFormat mode total p rex bs = .instr i rest) :
    (∃ bs', bs = 0x0F#8 :: bs' ∧ finish (addrSize mode p.addrSize) total (selectLegacy p rex) bs' = .instr i rest)
      ∨ (∃ x bs', bs = 0xC5#8 :: x :: bs' ∧ marksPrefix mode x = true
          ∧ finish (addrSize mode p.addrSize) total (selectVex2 p rex x) bs' = .instr i rest)
      ∨ (∃ x y bs', bs = 0xC4#8 :: x :: y :: bs' ∧ marksPrefix mode x = true
          ∧ finish (addrSize mode p.addrSize) total (selectVex3 p rex x y) bs' = .instr i rest)
      ∨ ∃ x y z bs', bs = 0x62#8 :: x :: y :: z :: bs' ∧ marksPrefix mode x = true
          ∧ finish (addrSize mode p.addrSize) total (selectEvex p rex x y z) bs' = .instr i rest := by
  cases bs with
  | nil => cases h
  | cons b bs =>
    rw [decodeFormat.eq_def] at h
    dsimp only at h
    split_ifs at h with hmis hlegacy hvex2 hvex3 hevex
    · exact .inl ⟨bs, by rw [hlegacy], h⟩
    · split at h
      · cases h
      · split_ifs at h with hx
        exact .inr (.inl ⟨_, _, by rw [hvex2], hx, h⟩)
    · split at h
      · cases h
      · split_ifs at h
      · split_ifs at h with hx
        exact .inr (.inr (.inl ⟨_, _, _, by rw [hvex3], hx, h⟩))
    · split at h
      · split_ifs at h with hx
        exact .inr (.inr (.inr ⟨_, _, _, _, by rw [hevex], hx, h⟩))
      · split_ifs at h
      · cases h

theorem decodeFormat_spec (hrex : rexWf mode rex = true) (h : decodeFormat mode total p rex bs = .instr i rest) :
    i.wf mode = true ∧ ∃ taken, bs = taken ++ rest ∧ prefixesLength p + rexLength rex + taken.length = instrLength i := by
  rcases decodeFormat_eq_instr h with
    ⟨bs', rfl, hf⟩ | ⟨x, bs', rfl, hx, hf⟩ | ⟨x, y, bs', rfl, hx, hf⟩ | ⟨x, y, z, bs', rfl, hx, hf⟩
  · exact finish_spec (pre := [0x0F#8]) (rowsFit_selectLegacy hrex) hf
  · exact finish_spec (pre := [0xC5#8, x]) (rowsFit_selectVex2 hrex hx) hf
  · exact finish_spec (pre := [0xC4#8, x, y]) (rowsFit_selectVex3 hrex hx y) hf
  · exact finish_spec (pre := [0x62#8, x, y, z]) (rowsFit_selectEvex hrex hx y z) hf

end

/-- Settles O2: each part of the decoder took the bytes of what it answered, and checked what its row asks. -/
theorem decodedInstructionsAreWellFormed : Obligations.DecodedInstructionsAreWellFormed := by
  intro mode bs rest i h
  rw [decode] at h
  split at h
  · cases h
  · rename_i p bs1 hprefixes
    obtain ⟨taken1, rfl, hlen1⟩ := takePrefixes_eq_some hprefixes
    obtain ⟨hrex, taken2, hbs1, hlen2⟩ := takeRex_spec mode bs1
    obtain ⟨hwf, taken3, hbs2, hlen3⟩ := decodeFormat_spec hrex h
    refine ⟨hwf, taken1 ++ (taken2 ++ taken3), ?_, ?_⟩
    · rw [hbs2] at hbs1
      simp [hbs1]
    · have hnone : prefixesLength noPrefixes = 0 := rfl
      simp only [List.length_append]
      omega

end Sys2Proof.Machine
end

section
/-! PROOFS. The bounds of an encoding's length (30_encoding.md R82), and the bytes that are no row's: a repetition and a misplaced
REX (R83, R84), the neighbours (R86, R98, R109, R115) and the undefined opcodes without a row (R98, R103, R112). -/

namespace Sys2Proof.Machine

/-! ### Lengths -/

section
variable (d : Direction) (l : Bool) (vl : VecLen) (p : Prefixes) (rex : Option Rex) (v2 : Vex2) (v3 : Vex3) (ev : Evex)
  (m : ModRM)

@[simp] theorem prefixesOf_legacyInstr : prefixesOf (legacyInstr d p rex m) = p := by
  cases d <;> rfl

@[simp] theorem prefixesOf_vex2Instr : prefixesOf (vex2Instr d l p rex v2 m) = p := by
  cases d <;> cases l <;> rfl

@[simp] theorem prefixesOf_vex3Instr : prefixesOf (vex3Instr d l p rex v3 m) = p := by
  cases d <;> cases l <;> rfl

@[simp] theorem prefixesOf_evexInstr : prefixesOf (evexInstr d vl p rex ev m) = p := by
  cases d <;> cases vl <;> rfl

@[simp] theorem rexOf_vex2Instr : rexOf (vex2Instr d l p rex v2 m) = rex := by
  cases d <;> cases l <;> rfl

@[simp] theorem rexOf_vex3Instr : rexOf (vex3Instr d l p rex v3 m) = rex := by
  cases d <;> cases l <;> rfl

@[simp] theorem rexOf_evexInstr : rexOf (evexInstr d vl p rex ev m) = rex := by
  cases d <;> cases vl <;> rfl

@[simp] theorem classOf_legacyInstr : classOf (legacyInstr d p rex m) = .legacy := by
  cases d <;> rfl

@[simp] theorem classOf_vex2Instr : classOf (vex2Instr d l p rex v2 m) = .vex := by
  cases d <;> cases l <;> rfl

@[simp] theorem classOf_vex3Instr : classOf (vex3Instr d l p rex v3 m) = .vex := by
  cases d <;> cases l <;> rfl

@[simp] theorem classOf_evexInstr : classOf (evexInstr d vl p rex ev m) = .evex := by
  cases d <;> cases vl <;> rfl

end

/-- Without LOCK, 66H, F2H and F3H there are at most a segment override and 67H before REX; ModR/M has one to six bytes. -/
theorem ilenOf_bounds {p : Prefixes} (hlock : p.lock = false) (hop : p.opSize = false) (hrep : p.rep = none) (fixed : Nat)
    (rex : Option Rex) (m : ModRM) :
    fixed + 1 ≤ ilenOf fixed p rex m ∧ ilenOf fixed p rex m ≤ fixed + rexLength rex + 8 := by
  have hp := prefixesLength_le_of_plain (rex := none) ⟨hlock, hop, hrep, rfl⟩
  have hm := modrmLength_le m
  have hm' := modrmLength_pos m
  simp only [ilenOf]
  omega

/-- Settles O4: the encoder writes `ilen` bytes, and the formats differ in the bytes between REX and ModR/M. -/
theorem encodedLengthBounds : Obligations.EncodedLengthBounds := by
  intro i mode _
  refine ⟨length_encode i, fun hlock hop hrep hrex => ?_⟩
  induction i using instr_byFormat with
  | legacy d p rex m =>
    simp only [prefixesOf_legacyInstr] at hlock hop hrep
    have hb := ilenOf_bounds hlock hop hrep 2 rex m
    have hr := rexLength_le rex
    simp only [classOf_legacyInstr, instrLength_legacyInstr, legacyIlen]
    omega
  | vex2 d l p rex v m =>
    simp only [prefixesOf_vex2Instr] at hlock hop hrep
    obtain rfl : rex = none := by simpa using hrex
    have hb := ilenOf_bounds hlock hop hrep 3 none m
    simp only [classOf_vex2Instr, instrLength_vex2Instr, vex2Ilen]
    exact ⟨hb.1, hb.2.trans (by decide)⟩
  | vex3 d l p rex v m =>
    simp only [prefixesOf_vex3Instr] at hlock hop hrep
    obtain rfl : rex = none := by simpa using hrex
    have hb := ilenOf_bounds hlock hop hrep 4 none m
    simp only [classOf_vex3Instr, instrLength_vex3Instr, vex3Ilen]
    exact ⟨Nat.le_of_succ_le hb.1, hb.2.trans (by decide)⟩
  | evex d vl p rex v m =>
    simp only [prefixesOf_evexInstr] at hlock hop hrep
    obtain rfl : rex = none := by simpa using hrex
    have hb := ilenOf_bounds hlock hop hrep 5 none m
    simp only [classOf_evexInstr, instrLength_evexInstr, evexIlen]
    exact ⟨hb.1, hb.2.trans (by decide)⟩

/-! ### A repetition, and a REX out of place -/

theorem decode_of_two {b c : Byte} {g : Nat} (mode : Mode) {u v : List Byte} (rest : List Byte)
    (huv : ∀ x ∈ u ++ v, prefixGroup x ≠ none) (hb : prefixGroup b = some g) (hc : prefixGroup c = some g) :
    decode mode (u ++ b :: (v ++ c :: rest)) = .reject .repeatedPrefix := by
  rw [decode, takePrefixes_of_two hb hc rest huv noPrefixes]

/-- A REX that a byte of a group follows is read as REX, and then is not immediately before a format (30_encoding.md R84). -/
theorem decode_of_misplaced (p : Prefixes) (rex : Rex) {b : Byte} {g : Nat} (hb : prefixGroup b = some g) (rest : List Byte) :
    decode .mode64 (encodePrefixes p ++ byteOfRex rex :: b :: rest) = .reject .misplacedRex := by
  have hprefixes : takePrefixes noPrefixes (encodePrefixes p ++ byteOfRex rex :: b :: rest)
      = some (p, byteOfRex rex :: b :: rest) := by
    refine takePrefixes_encodePrefixes p fun q c t hc => ?_
    obtain ⟨rfl, -⟩ := List.cons.inj hc
    exact addPrefix_byteOfRex q rex
  have hrexbyte : takeRex .mode64 (byteOfRex rex :: b :: rest) = (some rex, b :: rest) := by
    simp [takeRex, isRexByte]
  rw [decode, hprefixes]
  simp [hrexbyte, decodeFormat.eq_def, isPrefixByte_of_group hb]

/-- Settles O5: the repetition while the prefixes are read, the misplaced REX where a format should begin. -/
theorem repeatedOrMisplacedPrefixRejected : Obligations.RepeatedOrMisplacedPrefixRejected := by
  refine ⟨fun mode u v rest b c g huv hb hc => decode_of_two mode rest huv hb hc, fun p rex b rest hb => ?_⟩
  obtain ⟨g, hg⟩ := Option.ne_none_iff_exists'.1 hb
  exact decode_of_misplaced p rex hg rest

/-! ### The neighbours -/

theorem opcodeOf_eq_none {op : Byte} (h10 : op ≠ 0x10#8) (h11 : op ≠ 0x11#8) : opcodeOf op = none := by
  simp [opcodeOf, h10, h11]

theorem exists_opcodeOf {op : Byte} (h : op = 0x10#8 ∨ op = 0x11#8) : ∃ d, opcodeOf op = some d := by
  rcases h with rfl | rfl
  · exact ⟨.load, rfl⟩
  · exact ⟨.store, rfl⟩

section
variable {p : Prefixes} (rex : Option Rex) (d : Direction) {x y : Byte}

/-- 66H, F2H and F3H before the escape byte are MOVUPD, MOVSD and MOVSS (30_encoding.md R86). -/
theorem selectLegacy_eq_other (h : p.opSize = true ∨ p.rep ≠ none) : selectLegacy p rex d = .other := by
  have hsome : (p.opSize || p.rep.isSome) = true := by
    simpa [Option.isSome_iff_ne_none] using h
  simp only [selectLegacy, hsome, if_true]

theorem selectVex2_eq_other (p : Prefixes) (h : x.extractLsb' 0 2 ≠ 0#2) : selectVex2 p rex x d = .other := by
  simp [selectVex2, h]

theorem selectVex3_eq_other (p : Prefixes)
    (h : x.extractLsb' 0 5 = 2#5 ∨ x.extractLsb' 0 5 = 3#5 ∨ (x.extractLsb' 0 5 = 1#5 ∧ y.extractLsb' 0 2 ≠ 0#2)) :
    selectVex3 p rex x y d = .other := by
  rcases h with hmap | hmap | ⟨hmap, hpp⟩
  · simp [selectVex3, hmap]
  · simp [selectVex3, hmap]
  · simp [selectVex3, hmap, hpp]

theorem selectEvex_eq_other (p : Prefixes) (z : Byte)
    (h : x.extractLsb' 0 2 = 2#2 ∨ x.extractLsb' 0 2 = 3#2 ∨ (x.extractLsb' 0 2 = 1#2 ∧ y.extractLsb' 0 2 ≠ 0#2)) :
    selectEvex p rex x y z d = .other := by
  rcases h with hmap | hmap | ⟨hmap, hpp⟩
  · simp [selectEvex, hmap]
  · simp [selectEvex, hmap]
  · simp [selectEvex, hmap, hpp]

end

section
variable {mode : Mode} {p : Prefixes} {rex : Option Rex} {x y z op : Byte}

/-- The fields before the opcode select nothing, or the opcode does not. -/
def selectsNothing (select : Direction → Selected) (op : Byte) : Prop :=
  opcodeOf op = none ∨ ∃ d, opcodeOf op = some d ∧ select d = .other

theorem finish_of_selectsNothing {select : Direction → Selected} (h : selectsNothing select op) (asz : AddrSize) (total : Nat)
    (bs : List Byte) : finish asz total select (op :: bs) = .reject .notMovups := by
  rcases h with h | ⟨d, hd, hs⟩
  · exact finish_of_no_opcode h
  · exact finish_of_other hd hs

theorem decode_escape_of_selectsNothing (hrex : rexWf mode rex = true) (h : selectsNothing (selectLegacy p rex) op)
    (rest : List Byte) : decode mode (encodePrefixes p ++ encodeRex rex ++ 0x0F#8 :: op :: rest) = .reject .notMovups := by
  rw [decode_escape hrex, finish_of_selectsNothing h]

/-- Bytes that select nothing are refused whether or not they are marked as a VEX or EVEX payload. -/
theorem decode_vex2_of_selectsNothing (hrex : rexWf mode rex = true) (h : selectsNothing (selectVex2 p rex x) op)
    (rest : List Byte) : decode mode (encodePrefixes p ++ encodeRex rex ++ 0xC5#8 :: x :: op :: rest) = .reject .notMovups := by
  cases hx : marksPrefix mode x with
  | true => rw [decode_vex2 hrex hx, finish_of_selectsNothing h]
  | false => exact decode_of_not_marks hrex (.inr (.inl rfl)) hx _

theorem decode_vex3_of_selectsNothing (hrex : rexWf mode rex = true) (h : selectsNothing (selectVex3 p rex x y) op)
    (rest : List Byte) :
    decode mode (encodePrefixes p ++ encodeRex rex ++ 0xC4#8 :: x :: y :: op :: rest) = .reject .notMovups := by
  cases hx : marksPrefix mode x with
  | true => rw [decode_vex3 hrex hx, finish_of_selectsNothing h]
  | false => exact decode_of_not_marks hrex (.inl rfl) hx _

theorem decode_evex_of_selectsNothing (hrex : rexWf mode rex = true) (h : selectsNothing (selectEvex p rex x y z) op)
    (rest : List Byte) :
    decode mode (encodePrefixes p ++ encodeRex rex ++ 0x62#8 :: x :: y :: z :: op :: rest) = .reject .notMovups := by
  cases hx : marksPrefix mode x with
  | true => rw [decode_evex hrex hx, finish_of_selectsNothing h]
  | false => exact decode_of_not_marks hrex (.inr (.inr rfl)) hx _

end

/-- Settles O6: a neighbour has another opcode, selects no row of the family, is not marked as a payload, or starts no format. -/
theorem neighboursAreNotMovups : Obligations.NeighboursAreNotMovups := by
  refine ⟨fun mode d p rex m rest hp hrex => ?_, fun mode p b v rest hmode hb hv => ?_,
    fun mode p rex x y z op rest hrex hop => ?_, fun mode p rex x y z op rest hrex h10 h11 => ?_,
    fun mode p rex b rest hrex h0F hC4 hC5 h62 hgroup hnorex => ?_⟩
  · rw [encodeLegacy_append]
    exact decode_escape_of_selectsNothing hrex (.inr ⟨d, opcodeOf_byteOfOpcode d, selectLegacy_eq_other rex d hp⟩) _
  · have hmarks : marksPrefix mode v = false := by simp [marksPrefix, hmode, hv]
    simpa [encodeRex] using decode_of_not_marks (rex := none) (by simp [rexWf]) hb hmarks rest
  · obtain ⟨d, hd⟩ := exists_opcodeOf hop
    exact ⟨fun h => decode_vex2_of_selectsNothing hrex (.inr ⟨d, hd, selectVex2_eq_other rex d p h⟩) rest,
      fun h => decode_vex3_of_selectsNothing hrex (.inr ⟨d, hd, selectVex3_eq_other rex d p h⟩) rest,
      fun h => decode_evex_of_selectsNothing hrex (.inr ⟨d, hd, selectEvex_eq_other rex d p z h⟩) rest⟩
  · have hnone := opcodeOf_eq_none h10 h11
    exact ⟨decode_escape_of_selectsNothing hrex (.inl hnone) rest, decode_vex2_of_selectsNothing hrex (.inl hnone) rest,
      decode_vex3_of_selectsNothing hrex (.inl hnone) rest, decode_evex_of_selectsNothing hrex (.inl hnone) rest⟩
  · have hstart : startsFormat mode b := ⟨hgroup, by simpa [isRexByte] using hnorex⟩
    exact decode_of_no_format hrex hstart (by simp [h0F, hC4, hC5, h62]) rest

/-! ### Undefined opcodes without a row -/

section
variable {p : Prefixes} (rex : Option Rex) (d : Direction) {x y z : Byte}

theorem selectEvex_eq_undefined (p : Prefixes)
    (h : x.extractLsb' 0 2 = 0#2 ∨ (x.extractLsb' 0 2 = 1#2 ∧ y.extractLsb' 0 2 = 0#2 ∧ z.extractLsb' 5 2 = 3#2)) :
    selectEvex p rex x y z d = .undefined := by
  rcases h with hmap | ⟨hmap, hpp, hll⟩
  · simp [selectEvex, hmap]
  · simp [selectEvex, hmap, hpp, hll, vecLenOf]

theorem selectVex3_eq_undefined (p : Prefixes) (h1 : x.extractLsb' 0 5 ≠ 1#5) (h2 : x.extractLsb' 0 5 ≠ 2#5)
    (h3 : x.extractLsb' 0 5 ≠ 3#5) : selectVex3 p rex x y d = .undefined := by
  simp [selectVex3, h1, h2, h3]

end

/-- The bytes of an encoding with the format bytes `pre`, opcode and ModR/M, as the decoder meets them. -/
theorem length_of_format (p : Prefixes) (rex : Option Rex) (pre : List Byte) (m : ModRM) (rest : List Byte) :
    (encodePrefixes p ++ encodeRex rex ++ (pre ++ (encodeModRM m ++ rest))).length - rest.length
      = prefixesLength p + rexLength rex + pre.length + modrmLength m := by
  simp only [List.length_append, Laws.EncodedLength.length_encodePrefixes, Laws.EncodedLength.length_encodeRex,
    Laws.EncodedLength.length_encodeModRM]
  omega

/-- Settles O7: the fields select #UD, and the decoder counts the bytes up to the end of ModR/M. -/
theorem rowlessEncodingsAreUndefined : Obligations.RowlessEncodingsAreUndefined := by
  intro mode p rex p0 p1 p2 d m rest hrex hm hmode
  have hmarks : marksPrefix mode p0 = true := marksPrefix_eq_true_iff.2 hmode
  have hmodrm := takeModRM_encodeModRM (addrSize mode p.addrSize) m rest hm
  refine ⟨fun h => ?_, fun h1 h2 h3 => ?_⟩
  · rw [List.append_assoc, List.append_assoc]
    refine (decode_evex hrex hmarks p1 p2 (byteOfOpcode d :: (encodeModRM m ++ rest))).trans ?_
    rw [finish_of_undefined (opcodeOf_byteOfOpcode d) (selectEvex_eq_undefined rex d p h) hmodrm]
    exact congrArg _ (length_of_format p rex [0x62#8, p0, p1, p2, byteOfOpcode d] m rest)
  · rw [List.append_assoc, List.append_assoc]
    refine (decode_vex3 hrex hmarks p1 (byteOfOpcode d :: (encodeModRM m ++ rest))).trans ?_
    rw [finish_of_undefined (opcodeOf_byteOfOpcode d) (selectVex3_eq_undefined rex d p h1 h2 h3) hmodrm]
    exact congrArg _ (length_of_format p rex [0xC4#8, p0, p1, byteOfOpcode d] m rest)

end Sys2Proof.Machine
end

section
/-! PROOFS. What the fields of an encoding name: the register numbers, base, index and default segment (30_encoding.md R84, R90 to
R97, R104), the displacement (R92, R107), the encodings that are refused (R91, R109, R112), and the two encodings of a register
copy (R111). -/

namespace Sys2Proof.Machine

/-! ### The lists of forms -/

theorem eq_vex2Instr_of_mem {f} (hf : f ∈ vex2Loads ++ vex2Stores) : ∃ d l, f.2 = vex2Instr d l := by
  simp only [vex2Loads, vex2Stores, List.cons_append, List.nil_append, List.mem_cons, List.not_mem_nil, or_false] at hf
  rcases hf with rfl | rfl | rfl | rfl
  exacts [⟨.load, false, rfl⟩, ⟨.load, true, rfl⟩, ⟨.store, false, rfl⟩, ⟨.store, true, rfl⟩]

theorem eq_vex3Instr_of_mem {f} (hf : f ∈ vex3Loads ++ vex3Stores) : ∃ d l, f.2 = vex3Instr d l := by
  simp only [vex3Loads, vex3Stores, List.cons_append, List.nil_append, List.mem_cons, List.not_mem_nil, or_false] at hf
  rcases hf with rfl | rfl | rfl | rfl
  exacts [⟨.load, false, rfl⟩, ⟨.load, true, rfl⟩, ⟨.store, false, rfl⟩, ⟨.store, true, rfl⟩]

theorem eq_evexInstr_of_mem {f} (hf : f ∈ evexLoads ++ evexStores) : ∃ d, f.2 = evexInstr d f.1 := by
  simp only [evexLoads, evexStores, List.cons_append, List.nil_append, List.mem_cons, List.not_mem_nil, or_false] at hf
  rcases hf with rfl | rfl | rfl | rfl | rfl | rfl
  exacts [⟨.load, rfl⟩, ⟨.load, rfl⟩, ⟨.load, rfl⟩, ⟨.store, rfl⟩, ⟨.store, rfl⟩, ⟨.store, rfl⟩]

/-! ### The refused encodings -/

/-- Past the length and the #UD conditions, what the spec refuses of an instruction is refused (log 21). -/
theorem exec_refused_of_refusesOf {i : Instr} {s : State} {r : Refusal} (hlen : instrLength i ≤ 15)
    (hud : undefinedOf i s = false) (hr : refusesOf i s = some r) : exec i s = .refused r := by
  have hshort : ¬ 15 < (moveOf i s).ilen := by rw [moveOf_ilen]; omega
  have hchecks : entryChecks s (moveOf i s).ilen (undefinedOf i s) (refusesOf i s) = .refused r := by
    simp [entryChecks, hshort, hud, hr]
  rw [exec_eq_execMove, execMove, hchecks, andThen_refused]

section
variable {s : State} {p : Prefixes} {rex : Option Rex} {m : ModRM}

theorem refusesOf_vex3Instr (d : Direction) (l : Bool) (v : Vex3) : refusesOf (vex3Instr d l p rex v m) s = vex3Refuses s v := by
  cases d <;> cases l <;> rfl

theorem refusesOf_evexInstr (d : Direction) (vl : VecLen) (v : Evex) :
    refusesOf (evexInstr d vl p rex v m) s = evexRefuses s p v m := by
  cases d <;> cases vl <;> rfl

theorem vex3Refuses_of_clear {v : Vex3} (hm : modeOf s ≠ .mode64) (hb : v.bInv = false) :
    vex3Refuses s v = some .extensionBitOutsideMode64 := by
  simp [vex3Refuses, hm, hb]

theorem evexRefuses_of_clear {v : Evex} (hm : modeOf s ≠ .mode64)
    (hb : v.bInv = false ∨ v.rpInv = false ∨ v.vpInv = false) :
    evexRefuses s p v m = some .extensionBitOutsideMode64 := by
  simp [evexRefuses, hm, hb, or_assoc]

/-- Where the extension bits are in order, a memory operand with 16-bit address size is what is refused (30_encoding.md R91). -/
theorem evexRefuses_of_a16 {v : Evex} (hb : evexBitsOk s v) (hv : v.vpInv = true) (hmem : isMemRm m = true)
    (ha : addrSize (modeOf s) p.addrSize = .a16) : evexRefuses s p v m = some .evexAddressSize16 := by
  rcases hb with hm | ⟨hb, hrp⟩
  · rw [hm] at ha
    simp [evexRefuses, hm, hmem, ha]
  · simp [evexRefuses, hb, hrp, hv, hmem, ha]

end

/-- Settles O22: what `refusesOf` names is the outcome once the #UD conditions are passed. -/
theorem refusedEncodings : Obligations.RefusedEncodings := by
  intro s p rex m
  refine ⟨fun f hf v hlen hud hm hb => ?_, fun f hf v hlen hud hm hb => ?_, fun f hf v hlen hud hbits hv hmem ha => ?_⟩
  · obtain ⟨d, l, hform⟩ := eq_vex3Instr_of_mem hf
    rw [hform] at hlen hud ⊢
    exact exec_refused_of_refusesOf hlen hud ((refusesOf_vex3Instr d l v).trans (vex3Refuses_of_clear hm hb))
  · obtain ⟨d, hform⟩ := eq_evexInstr_of_mem hf
    rw [hform] at hlen hud ⊢
    exact exec_refused_of_refusesOf hlen hud ((refusesOf_evexInstr d f.1 v).trans (evexRefuses_of_clear hm hb))
  · obtain ⟨d, hform⟩ := eq_evexInstr_of_mem hf
    rw [hform] at hlen hud ⊢
    exact exec_refused_of_refusesOf hlen hud ((refusesOf_evexInstr d f.1 v).trans (evexRefuses_of_a16 hbits hv hmem ha))

/-! ### The two encodings of a register copy -/

/-- The move by opcode 11H that is the register copy `c` by opcode 10H: the fields of ModR/M and their extension bits exchanged
(30_encoding.md R111). -/
def copyByStore (c : Move) (ext : RegExt) (a b : BitVec 3) : Move :=
  { c with dir := .store, ext := ext, modrm := ⟨b, .reg a⟩ }

/-- Both moves make the same checks, and take the same source to the same destination. -/
theorem execMove_copyByStore {c : Move} {ext : RegExt} {a b : BitVec 3} (hdir : c.dir = .load) (hrm : c.modrm = ⟨a, .reg b⟩)
    (hdest : c.ext.reg = ext.rmReg) (hsrc : c.ext.rmReg = ext.reg) (ud : Bool) (rf : Option Refusal) (s : State) :
    execMove c ud rf s = execMove (copyByStore c ext a b) ud rf s := by
  have hd : moveReg c = moveRmReg (copyByStore c ext a b) a := by simp [moveReg, moveRmReg, copyByStore, hrm, hdest]
  have hs : moveRmReg c b = moveReg (copyByStore c ext a b) := by simp [moveReg, moveRmReg, copyByStore, hsrc]
  unfold execMove
  rw [hdir, hrm]
  simp only [hd, hs]
  rfl

section
variable (s : State) (p : Prefixes) (rex : Option Rex) (a b : BitVec 3)

/-- With R̅ = 1 a VEX2 encoding extends neither register number (30_encoding.md R94). -/
theorem vex2Ext_reg_eq_rmReg (mode : Mode) (vv : BitVec 4) :
    (vex2Ext mode ⟨true, vv⟩).reg = (vex2Ext mode ⟨true, vv⟩).rmReg := by
  have hclear : bit3 (!true) = 0#2 := by decide
  cases mode with
  | mode64 => exact hclear
  | _ => rfl

theorem execMove_vex2_copy (vl : VecLen) (vv : BitVec 4) (ud : Bool) :
    execMove (vex2Move vl .load p rex ⟨true, vv⟩ ⟨a, .reg b⟩ s) ud none s
      = execMove (vex2Move vl .store p rex ⟨true, vv⟩ ⟨b, .reg a⟩ s) ud none s :=
  have hext := vex2Ext_reg_eq_rmReg (modeOf s) vv
  execMove_copyByStore (ext := vex2Ext (modeOf s) ⟨true, vv⟩) rfl rfl hext hext.symm ud none s

/-- The VEX3 payload of the other encoding. -/
def swapVex3 (v : Vex3) : Vex3 := { v with rInv := v.bInv, bInv := v.rInv }

theorem execMove_vex3_copy (vl : VecLen) {v : Vex3} (hv : modeOf s = .mode64 ∨ (v.rInv = true ∧ v.bInv = true)) (ud : Bool) :
    execMove (vex3Move vl .load p rex v ⟨a, .reg b⟩ s) ud (vex3Refuses s v) s
      = execMove (vex3Move vl .store p rex (swapVex3 v) ⟨b, .reg a⟩ s) ud (vex3Refuses s (swapVex3 v)) s := by
  have hrefuses : vex3Refuses s (swapVex3 v) = vex3Refuses s v := by
    rcases hv with hm | ⟨hr, hb⟩
    · simp [vex3Refuses, hm]
    · simp [vex3Refuses, swapVex3, hr, hb]
  rw [hrefuses]
  refine execMove_copyByStore (ext := vex3Ext (modeOf s) (swapVex3 v)) rfl rfl ?_ ?_ ud _ s
  · show (vex3Ext (modeOf s) v).reg = _
    cases modeOf s <;> rfl
  · show (vex3Ext (modeOf s) v).rmReg = _
    cases modeOf s <;> rfl

/-- The EVEX payload of the other encoding: X̅ is bit 4 of a register r/m (30_encoding.md R104). -/
def swapEvex (v : Evex) : Evex := { v with rInv := v.bInv, bInv := v.rInv, rpInv := v.xInv, xInv := v.rpInv }

theorem evexUndefined_copy (vl : VecLen) (v : Evex) :
    evexUndefined s vl .store p rex (swapEvex v) ⟨b, .reg a⟩ = evexUndefined s vl .load p rex v ⟨a, .reg b⟩ := by
  have hreserved : evexReserved .store (swapEvex v) ⟨b, .reg a⟩ = evexReserved .load v ⟨a, .reg b⟩ := by
    simp [evexReserved, swapEvex, isMemRm]
  rw [evexUndefined, hreserved]
  rfl

theorem execMove_evex_copy (vl : VecLen) {v : Evex}
    (hv : modeOf s = .mode64 ∨ (v.rInv = true ∧ v.xInv = true ∧ v.bInv = true ∧ v.rpInv = true)) :
    execMove (evexMove vl .load p rex v ⟨a, .reg b⟩ s) (evexUndefined s vl .load p rex v ⟨a, .reg b⟩)
        (evexRefuses s p v ⟨a, .reg b⟩) s
      = execMove (evexMove vl .store p rex (swapEvex v) ⟨b, .reg a⟩ s)
          (evexUndefined s vl .store p rex (swapEvex v) ⟨b, .reg a⟩) (evexRefuses s p (swapEvex v) ⟨b, .reg a⟩) s := by
  have hrefuses : evexRefuses s p (swapEvex v) ⟨b, .reg a⟩ = evexRefuses s p v ⟨a, .reg b⟩ := by
    rcases hv with hm | ⟨hr, hx, hb, hrp⟩
    · simp [evexRefuses, hm, isMemRm]
    · simp [evexRefuses, swapEvex, isMemRm, hr, hx, hb, hrp]
  rw [hrefuses, evexUndefined_copy]
  refine execMove_copyByStore (ext := evexExt (modeOf s) (swapEvex v)) rfl rfl ?_ ?_ _ _ s
  · show (evexExt (modeOf s) v).reg = _
    cases modeOf s <;> rfl
  · show (evexExt (modeOf s) v).rmReg = _
    cases modeOf s <;> rfl

/-- The optional REX of the other encoding. -/
def swapRex (rex : Option Rex) : Option Rex := rex.map fun r => { r with r := r.b, b := r.r }

theorem execMove_legacy_copy (ud : Bool) :
    execMove (legacyMove .load p rex ⟨a, .reg b⟩ s) ud none s
      = execMove (legacyMove .store p (swapRex rex) ⟨b, .reg a⟩ s) ud none s := by
  have hcopy : legacyMove .store p (swapRex rex) ⟨b, .reg a⟩ s
      = copyByStore (legacyMove .load p rex ⟨a, .reg b⟩ s) (legacyExt (modeOf s) (swapRex rex)) a b := by
    cases rex <;> rfl
  rw [hcopy]
  refine execMove_copyByStore rfl rfl ?_ ?_ ud none s
  · show (legacyExt (modeOf s) rex).reg = _
    cases rex <;> cases modeOf s <;> rfl
  · show (legacyExt (modeOf s) rex).rmReg = _
    cases rex <;> cases modeOf s <;> rfl

end

/-- Settles O48, format by format: the second encoding's move is the first one's `copyByStore`. -/
theorem twoEncodingsOfACopyAgree : Obligations.TwoEncodingsOfACopyAgree := by
  intro s p a b
  refine ⟨⟨?_, fun w r x y => ?_⟩, fun rex vv => ⟨?_, ?_⟩, fun rex v hv => ⟨?_, ?_⟩, ?_⟩
  · exact execMove_legacy_copy s p none a b _
  · exact execMove_legacy_copy s p (some ⟨w, r, x, y⟩) a b _
  · exact execMove_vex2_copy s p rex a b .l128 vv _
  · exact execMove_vex2_copy s p rex a b .l256 vv _
  · exact execMove_vex3_copy s p rex a b .l128 hv _
  · exact execMove_vex3_copy s p rex a b .l256 hv _
  · rintro rex v w hv rfl
    exact ⟨execMove_evex_copy s p rex a b .l128 hv, execMove_evex_copy s p rex a b .l256 hv,
      execMove_evex_copy s p rex a b .l512 hv⟩

/-! ### Displacements -/

/-- An 8-bit displacement times N fits a 16- or 32-bit one (30_encoding.md R92, R107). -/
theorem signExtend_ofInt_scaled {w : Nat} (hw : 16 ≤ w) (d : BitVec 8) {n : Nat} (hn : n ≤ 64) :
    (BitVec.ofInt w (d.toInt * n)).signExtend 64 = d.signExtend 64 * BitVec.ofNat 64 n := by
  have hpow : (2 : Int) ^ 15 ≤ 2 ^ (w - 1) := pow_le_pow_right₀ (by decide) (by omega)
  have hlow : -2 ^ 7 ≤ d.toInt := BitVec.le_toInt d
  have hhigh : d.toInt < 2 ^ 7 := BitVec.toInt_lt
  have hprod : -2 ^ 13 ≤ d.toInt * n ∧ d.toInt * n ≤ 2 ^ 13 := by
    constructor <;> nlinarith
  have hself : (BitVec.ofInt w (d.toInt * n)).toInt = d.toInt * n :=
    BitVec.toInt_ofInt_eq_self (by omega) (by omega) (by omega)
  rw [BitVec.signExtend, hself, BitVec.ofInt_mul, BitVec.signExtend, BitVec.ofInt_natCast]

/-- Under mod = 01 or 10 there is a base register, so that the length of the instruction is no part of the address. -/
theorem baseOf_of_mod_ne {mod : MemMod} (h : mod ≠ .m00) (mode : Mode) (bx : Bool) (rm : BitVec 3) (sib : Option Sib)
    (d : Disp) : baseOf mode bx ⟨mod, rm, sib, d⟩ = .gpr (gprNumber bx ((sib.map Sib.base).getD rm)) := by
  cases sib <;> simp [baseOf, h]

section
variable {n8 : Nat} {d d' : Disp} (s : State) (asz : AddrSize) (ext : RegExt) (ilen ilen' : Nat) (rm : BitVec 3)
  (sib : Option Sib)

theorem baseIndexSum_m01_eq_m10 :
    baseIndexSum s asz ext ilen ⟨.m01, rm, sib, d⟩ = baseIndexSum s asz ext ilen' ⟨.m10, rm, sib, d'⟩ := by
  rw [baseIndexSum, baseIndexSum, baseOf_of_mod_ne (by decide), baseOf_of_mod_ne (by decide)]
  rfl

theorem sum16_m01_eq_m10 : sum16 s ⟨.m01, rm, sib, d⟩ = sum16 s ⟨.m10, rm, sib, d'⟩ := by
  simp [sum16]

/-- Under mod = 01 and 10 the displacement counts by its value alone. -/
theorem effectiveAddress_congr_disp (h : dispValue n8 d = dispValue n8 d') :
    effectiveAddress s asz ext ilen n8 ⟨.m01, rm, sib, d⟩ = effectiveAddress s asz ext ilen' n8 ⟨.m10, rm, sib, d'⟩ := by
  have h16 := sum16_m01_eq_m10 (d := d) (d' := d') s rm sib
  have hsum := fun asz => baseIndexSum_m01_eq_m10 (d := d) (d' := d') s asz ext ilen ilen' rm sib
  cases asz <;> simp only [effectiveAddress, h, h16, hsum]

end

/-- The address of the form's memory operand, given the extension bits and the disp8 factor, which do not depend on ModR/M. -/
def addressesWith (f : ModRM → Instr) (s : State) (asz : AddrSize) (ext : RegExt) (n8 : Nat) : Prop :=
  ∀ (reg : BitVec 3) (o : MemOperand),
    operandEa f s reg o = effectiveAddress s asz ext (instrLength (f ⟨reg, .mem o⟩)) n8 o

theorem operandEa_congr_disp {f : ModRM → Instr} {s : State} {asz : AddrSize} {ext : RegExt} {n8 : Nat}
    (hf : addressesWith f s asz ext n8) (reg rm : BitVec 3) (sib : Option Sib) {d d' : Disp}
    (h : dispValue n8 d = dispValue n8 d') :
    operandEa f s reg ⟨.m01, rm, sib, d⟩ = operandEa f s reg ⟨.m10, rm, sib, d'⟩ := by
  rw [hf, hf]
  exact effectiveAddress_congr_disp s asz ext _ _ rm sib h

section
variable (s : State) (d : Direction) (l : Bool) (vl : VecLen) (p : Prefixes) (rex : Option Rex)

theorem addressesWith_legacyInstr :
    addressesWith (legacyInstr d p rex) s (addrSize (modeOf s) p.addrSize) (legacyExt (modeOf s) rex) 1 := by
  cases d <;> exact fun _ _ => rfl

theorem addressesWith_vex2Instr (v : Vex2) :
    addressesWith (vex2Instr d l p rex v) s (addrSize (modeOf s) p.addrSize) (vex2Ext (modeOf s) v) 1 := by
  cases d <;> cases l <;> exact fun _ _ => rfl

theorem addressesWith_vex3Instr (v : Vex3) :
    addressesWith (vex3Instr d l p rex v) s (addrSize (modeOf s) p.addrSize) (vex3Ext (modeOf s) v) 1 := by
  cases d <;> cases l <;> exact fun _ _ => rfl

theorem addressesWith_evexInstr (v : Evex) :
    addressesWith (evexInstr d vl p rex v) s (addrSize (modeOf s) p.addrSize) (evexExt (modeOf s) v) vl.bytes := by
  cases d <;> cases vl <;> exact fun _ _ => rfl

end

/-- A Legacy SSE or VEX form has the factor 1. -/
theorem exists_addressesWith_one (s : State) {p : Prefixes} {rex : Option Rex} {v2 : Vex2} {v3 : Vex3} {f : ModRM → Instr}
    (hf : f ∈ [Instr.movupsLoad p rex, Instr.movupsStore p rex] ++ (vex2Loads ++ vex2Stores).map (fun g => g.2 p rex v2)
      ++ (vex3Loads ++ vex3Stores).map (fun g => g.2 p rex v3)) :
    ∃ ext, addressesWith f s (addrSize (modeOf s) p.addrSize) ext 1 := by
  rw [List.mem_append, List.mem_append] at hf
  rcases hf with (hf | hf) | hf
  · simp only [List.mem_cons, List.not_mem_nil, or_false] at hf
    rcases hf with rfl | rfl
    · exact ⟨_, addressesWith_legacyInstr s .load p rex⟩
    · exact ⟨_, addressesWith_legacyInstr s .store p rex⟩
  · obtain ⟨g, hg, rfl⟩ := List.mem_map.1 hf
    obtain ⟨d, l, hform⟩ := eq_vex2Instr_of_mem hg
    exact ⟨_, hform ▸ addressesWith_vex2Instr s d l p rex v2⟩
  · obtain ⟨g, hg, rfl⟩ := List.mem_map.1 hf
    obtain ⟨d, l, hform⟩ := eq_vex3Instr_of_mem hg
    exact ⟨_, hform ▸ addressesWith_vex3Instr s d l p rex v3⟩

/-- Settles O58: the two displacements have one value, and the address does not depend on which of them stands there. -/
theorem compressedDisplacementIsScaled : Obligations.CompressedDisplacementIsScaled := by
  intro s p rex reg rm sib d
  refine ⟨fun _ f hf v => ?_, fun v2 v3 f hf => ?_⟩
  · obtain ⟨form, hform⟩ := eq_evexInstr_of_mem hf
    rw [hform]
    refine operandEa_congr_disp (addressesWith_evexInstr s form f.1 p rex v) reg rm sib ?_
    have hbytes : f.1.bytes ≤ 64 := by cases f.1 <;> decide
    rw [← bytes_eq_bits_div_eight]
    exact (signExtend_ofInt_scaled (by decide : 16 ≤ 32) d hbytes).symm
  · obtain ⟨ext, hext⟩ := exists_addressesWith_one s hf
    have hd := fun w (hw : 16 ≤ w) => signExtend_ofInt_scaled hw d (by decide : 1 ≤ 64)
    simp only [Nat.cast_one, mul_one] at hd
    exact ⟨fun _ => operandEa_congr_disp hext reg rm sib (hd 32 (by decide)).symm,
      fun _ => operandEa_congr_disp hext reg rm sib (hd 16 (by decide)).symm⟩

/-! ### Register numbers -/

theorem toNat_vecNumber (ext : BitVec 2) (low : BitVec 3) : (vecNumber ext low).toNat = 8 * ext.toNat + low.toNat := by
  revert ext low
  decide

@[simp] theorem toNat_bit3 (b : Bool) : (bit3 b).toNat = b.toNat := by
  cases b <;> decide

/-- Two extension bits, bit 4 of the number and bit 3. -/
theorem toNat_bits43 (a b : Bool) : (BitVec.ofBool a ++ BitVec.ofBool b : BitVec 2).toNat = 2 * a.toNat + b.toNat := by
  cases a <;> cases b <;> decide

theorem toNat_vecNumber_bit3 (b : Bool) (low : BitVec 3) : (vecNumber (bit3 b) low).toNat = 8 * b.toNat + low.toNat := by
  rw [toNat_vecNumber, toNat_bit3]

theorem toNat_vecNumber_bits43 (a b : Bool) (low : BitVec 3) :
    (vecNumber (BitVec.ofBool a ++ BitVec.ofBool b) low).toNat = 16 * a.toNat + 8 * b.toNat + low.toNat := by
  rw [toNat_vecNumber, toNat_bits43]
  omega

theorem toNat_vecNumber_zero (low : BitVec 3) : (vecNumber 0#2 low).toNat = low.toNat := by
  simp [toNat_vecNumber]

section
variable {mode : Mode} (h : mode ≠ .mode64)
include h

/-! Outside `Mode64` no bit extends a register number (10_state.md R24). -/

theorem legacyExt_of_ne_mode64 (rex : Option Rex) : legacyExt mode rex = noExt := by
  cases mode with
  | mode64 => exact absurd rfl h
  | _ => rfl

theorem vex2Ext_of_ne_mode64 (v : Vex2) : vex2Ext mode v = noExt := by
  cases mode with
  | mode64 => exact absurd rfl h
  | _ => rfl

theorem vex3Ext_of_ne_mode64 (v : Vex3) : vex3Ext mode v = noExt := by
  cases mode with
  | mode64 => exact absurd rfl h
  | _ => rfl

theorem evexExt_of_ne_mode64 (v : Evex) : evexExt mode v = noExt := by
  cases mode with
  | mode64 => exact absurd rfl h
  | _ => rfl

end

/-- Settles O8: in `Mode64` each number is ModR/M's under one or two bits, elsewhere under none. -/
theorem registerNumbersFromExtensionBits : Obligations.RegisterNumbersFromExtensionBits := by
  intro reg rm rex v2 v3 ev
  refine ⟨toNat_vecNumber_bit3 .., toNat_vecNumber_bit3 .., toNat_vecNumber_zero reg, toNat_vecNumber_zero rm,
    toNat_vecNumber_bit3 .., toNat_vecNumber_zero rm, toNat_vecNumber_bit3 .., toNat_vecNumber_bit3 ..,
    toNat_vecNumber_bits43 .., toNat_vecNumber_bits43 .., ⟨rfl, rfl⟩, ⟨rfl, rfl⟩, ⟨rfl, rfl⟩, ⟨rfl, rfl⟩, ⟨rfl, rfl⟩,
    fun mode ro hmode => ?_⟩
  rw [legacyExt_of_ne_mode64 hmode, vex2Ext_of_ne_mode64 hmode, vex3Ext_of_ne_mode64 hmode, evexExt_of_ne_mode64 hmode]
  have hreg := toNat_vecNumber_zero reg
  have hrm := toNat_vecNumber_zero rm
  exact ⟨⟨rfl, rfl⟩, ⟨rfl, rfl⟩, ⟨rfl, rfl⟩, ⟨rfl, rfl⟩, hreg, hrm, hreg, hrm, hreg, hrm, hreg, hrm⟩

/-! ### Base and index -/

section
variable (mode : Mode) (bx xx : Bool) {o : MemOperand}

theorem baseOf_sib {sb : Sib} (h : o.sib = some sb) :
    baseOf mode bx o = if sb.base = 5#3 ∧ o.mod = .m00 then .none else .gpr (BitVec.ofBool bx ++ sb.base) := by
  simp [baseOf, h, gprNumber]

theorem baseOf_no_sib (h : o.sib = none) :
    baseOf mode bx o = if o.rm = 5#3 ∧ o.mod = .m00 then (if mode = .mode64 then .nextPc else .none)
      else .gpr (BitVec.ofBool bx ++ o.rm) := by
  simp [baseOf, h, gprNumber]

theorem indexOf_sib {sb : Sib} (h : o.sib = some sb) :
    indexOf xx o = if BitVec.ofBool xx ++ sb.index = 4#4 then none else some (BitVec.ofBool xx ++ sb.index) := by
  simp [indexOf, h, gprNumber]

theorem indexOf_no_sib (h : o.sib = none) : indexOf xx o = none := by
  simp [indexOf, h]

end

/-- Settles O57, row by row of the two tables. -/
theorem baseAndIndexFollowTable : Obligations.BaseAndIndexFollowTable := by
  intro mode bx xx o
  refine ⟨fun sb hsib => ?_, fun hsib => ?_⟩
  · rw [baseOf_sib mode bx hsib, indexOf_sib xx hsib]
    exact ⟨fun hbase hmod => if_pos ⟨hbase, hmod⟩, fun h => if_neg (not_and_or.2 h), fun h => if_pos h, fun h => if_neg h⟩
  · rw [baseOf_no_sib mode bx hsib]
    exact ⟨indexOf_no_sib xx hsib, fun hrm hmod hm => by rw [if_pos ⟨hrm, hmod⟩, if_pos hm],
      fun hrm hmod hm => by rw [if_pos ⟨hrm, hmod⟩, if_neg hm], fun h => if_neg (not_and_or.2 h)⟩

/-! ### The default segment -/

/-- With 32- and 64-bit addressing the default segment is SS for the base registers 4 and 5 only. -/
theorem defaultSegment_of_ne_a16 {asz : AddrSize} (h : asz ≠ .a16) (mode : Mode) (ext : RegExt) (o : MemOperand) :
    defaultSegment mode asz ext o
      = if baseOf mode ext.base o = .gpr 4#4 ∨ baseOf mode ext.base o = .gpr 5#4 then .ss else .ds := by
  cases asz with
  | a16 => exact absurd rfl h
  | a32 | a64 => cases hb : baseOf mode ext.base o <;> simp [defaultSegment, hb]

theorem defaultSegment_a16 (mode : Mode) (ext : RegExt) (o : MemOperand) :
    defaultSegment mode .a16 ext o = if o.rm = 2#3 ∨ o.rm = 3#3 ∨ (o.rm = 6#3 ∧ o.mod ≠ .m00) then .ss else .ds := by
  simp [defaultSegment, or_assoc]

/-- Register 4 or 5 without extension. -/
theorem isStackBase_iff (bx : Bool) (low : BitVec 3) :
    (BitVec.ofBool bx ++ low = 4#4 ∨ BitVec.ofBool bx ++ low = 5#4) ↔ bx = false ∧ (low = 4#3 ∨ low = 5#3) := by
  revert bx low
  decide

theorem rm_of_wf_sib {asz : AddrSize} {o : MemOperand} (h : o.wf asz = true) {sb : Sib} (hsib : o.sib = some sb) :
    o.rm = 4#3 := by
  simp only [MemOperand.wf, hsib, Option.isSome_some, Bool.and_eq_true, beq_iff_eq] at h
  obtain ⟨hneeds, -⟩ := h
  cases asz <;> simpa [needsSib] using hneeds.symm

theorem rm_of_wf_no_sib {asz : AddrSize} (hasz : asz ≠ .a16) {o : MemOperand} (h : o.wf asz = true) (hsib : o.sib = none) :
    o.rm ≠ 4#3 := by
  simp only [MemOperand.wf, hsib, Option.isSome_none, Bool.and_eq_true, beq_iff_eq] at h
  obtain ⟨hneeds, -⟩ := h
  cases asz with
  | a16 => exact absurd rfl hasz
  | a32 | a64 => simpa [needsSib] using hneeds.symm

/-- The bases of SS, with a SIB byte and without (30_encoding.md R93). -/
theorem isStackBase_baseOf_iff {asz : AddrSize} (hasz : asz ≠ .a16) (mode : Mode) (bx : Bool) {o : MemOperand}
    (h : o.wf asz = true) :
    (baseOf mode bx o = .gpr 4#4 ∨ baseOf mode bx o = .gpr 5#4) ↔
      (o.rm = 5#3 ∧ o.mod ≠ .m00 ∧ bx = false)
        ∨ ∃ sb, o.sib = some sb ∧ bx = false ∧ (sb.base = 4#3 ∨ (sb.base = 5#3 ∧ o.mod ≠ .m00)) := by
  cases hsib : o.sib with
  | none =>
    have hrm := rm_of_wf_no_sib hasz h hsib
    rw [baseOf_no_sib mode bx hsib]
    by_cases hnone : o.rm = 5#3 ∧ o.mod = .m00
    · cases mode <;> simp [hnone]
    · simp only [if_neg hnone, BaseReg.gpr.injEq, isStackBase_iff, hrm, reduceCtorEq, false_and, exists_false, or_false,
        false_or]
      tauto
  | some sb =>
    have hrm := rm_of_wf_sib h hsib
    rw [baseOf_sib mode bx hsib]
    by_cases hnone : sb.base = 5#3 ∧ o.mod = .m00
    · simp [hnone, hrm]
    · simp only [if_neg hnone, BaseReg.gpr.injEq, isStackBase_iff, hrm, Option.some.injEq, exists_eq_left']
      have hne : (4#3 : BitVec 3) ≠ 5#3 := by decide
      tauto

theorem ite_ss_ds_eq_ss (P : Prop) [Decidable P] : (if P then SegReg.ss else .ds) = .ss ↔ P := by
  by_cases h : P <;> simp [h]

/-- Settles O59, by the bases of SS and by the BP rows. -/
theorem defaultSegmentFollowsBase : Obligations.DefaultSegmentFollowsBase := by
  intro mode asz ext o hwf
  refine ⟨?_, fun hasz => ?_, fun hasz => ?_⟩
  · by_cases hasz : asz = .a16
    · rw [hasz, defaultSegment_a16]
      split <;> simp
    · rw [defaultSegment_of_ne_a16 hasz]
      split <;> simp
  · rw [defaultSegment_of_ne_a16 hasz, ← isStackBase_baseOf_iff hasz mode ext.base hwf]
    exact ite_ss_ds_eq_ss _
  · rw [hasz, defaultSegment_a16]
    exact ite_ss_ds_eq_ss _

end Sys2Proof.Machine
end

section
/-! PROOFS. MOVUPS completes (40_movups_legacy_sse.md R130, R131): the entry checks of a usable form pass, and what is left is the
shared move at 128 bits with every element selected, under the bits a Legacy SSE destination keeps (10_state.md R22). -/

namespace Sys2Proof.Machine

/-- MOVUPS accesses all 16 bytes of its operand (20_memory.md R57). -/
theorem mem_offs_legacy (s : State) (d : Direction) (p : Prefixes) (rex : Option Rex) (m : ModRM) (o : MemOperand) (k : Nat) :
    k ∈ (moveAccess s (legacyMove d p rex m s) o).offs ↔ k < 16 := by
  simp only [moveAccess, legacyMove, mem_maskedOffsets_full, VecLen.bytes]

/-- Settles O34: either opcode is the move to a register, whose result keeps the bits from 128 on. -/
theorem legacyRegisterCopyCompletes : Obligations.LegacyRegisterCopyCompletes := by
  intro s p rex reg r husable hts hlock
  have hchecks : entryChecks s (legacyIlen p rex ⟨reg, .reg r⟩) (legacyUndefined s p) none = .next () :=
    entryChecks_legacy husable hlock hts
  constructor
  · obtain ⟨t, hexec, hframe, hdest⟩ :=
      execMove_load_reg_completes (c := legacyMove .load p rex ⟨reg, .reg r⟩ s) hchecks rfl rfl
    exact ⟨t, hexec, hframe, legacyWrites_of_readVec hdest⟩
  · obtain ⟨t, hexec, hframe, hdest⟩ :=
      execMove_store_reg_completes (c := legacyMove .store p rex ⟨reg, .reg r⟩ s) hchecks rfl rfl
    exact ⟨t, hexec, hframe, legacyWrites_of_readVec hdest⟩

/-- Settles O35: an accessible operand is loaded byte by byte, and the destination keeps the bits from 128 on. -/
theorem legacyLoadCompletes : Obligations.LegacyLoadCompletes := by
  intro s p rex reg o pa husable hts hlock hacc
  obtain ⟨t, src, hexec, hloaded, hframe, hdest⟩ :=
    execMove_load_completes (c := legacyMove .load p rex ⟨reg, .mem o⟩ s) (entryChecks_legacy husable hlock hts) rfl rfl hacc
  exact ⟨mem_offs_legacy s .load p rex _ o, t, src, hexec, hloaded, hframe, legacyWrites_of_readVec hdest⟩

/-- Settles O36: an accessible operand takes the register's bytes, and memory in canonical form keeps every other byte. -/
theorem legacyStoreCompletes : Obligations.LegacyStoreCompletes := by
  intro s p rex reg o pa husable hts hlock hwf hacc
  exact ⟨mem_offs_legacy s .store p rex _ o,
    execMove_store_completes (c := legacyMove .store p rex ⟨reg, .mem o⟩ s) (entryChecks_legacy husable hlock hts) rfl rfl hwf
      hacc⟩

end Sys2Proof.Machine
end

section
/-! PROOFS. VMOVUPS (VEX) completes (41_vmovups_vex.md R140 to R144): a usable two- or three-byte encoding whose VL fits in MAXVL
is a move of all VL/8 bytes whose checks pass, and what such a move leaves is said once, for both formats, lengths and opcodes. -/

namespace Sys2Proof.Machine

/-! ### The rows by direction and length -/

/-- VL of a VEX encoding with the bit L (30_encoding.md R96). -/
def vexLen : Bool → VecLen
  | false => .l128
  | true => .l256

/-- Each list of VEX forms holds one form per value of L. -/
theorem exists_vexLen_of_mem {α : Type} {form : Bool → α} {f : VecLen × α}
    (hf : f ∈ [(.l128, form false), (.l256, form true)]) : ∃ l, f = (vexLen l, form l) := by
  simp only [List.mem_cons, List.not_mem_nil, or_false] at hf
  rcases hf with rfl | rfl
  exacts [⟨false, rfl⟩, ⟨true, rfl⟩]

section
variable (s : State) (d : Direction) (l : Bool) (p : Prefixes) (rex : Option Rex) (v2 : Vex2) (v3 : Vex3) (m : ModRM)

theorem moveOf_vex2Instr : moveOf (vex2Instr d l p rex v2 m) s = vex2Move (vexLen l) d p rex v2 m s := by
  cases d <;> cases l <;> rfl

theorem moveOf_vex3Instr : moveOf (vex3Instr d l p rex v3 m) s = vex3Move (vexLen l) d p rex v3 m s := by
  cases d <;> cases l <;> rfl

theorem undefinedOf_vex2Instr :
    undefinedOf (vex2Instr d l p rex v2 m) s = vexUndefined s (vexLen l) p rex v2.vvvv := by
  cases d <;> cases l <;> rfl

theorem undefinedOf_vex3Instr :
    undefinedOf (vex3Instr d l p rex v3 m) s = vexUndefined s (vexLen l) p rex v3.vvvv := by
  cases d <;> cases l <;> rfl

theorem refusesOf_vex2Instr : refusesOf (vex2Instr d l p rex v2 m) s = none := by
  cases d <;> cases l <;> rfl

end

/-! ### A VEX move whose checks pass -/

/-- The instruction's move in this state is `c`: a VEX move of every byte of VL, which fits in MAXVL, and its checks pass. -/
structure RunsVexMove (i : Instr) (s : State) (c : Move) : Prop where
  moveOf_eq : moveOf i s = c
  checks : entryChecks s c.ilen (undefinedOf i s) (refusesOf i s) = .next ()
  cls : c.cls = .vex
  mask : c.mask = fullMask c.vl
  fits : c.vl.bits ≤ s.params.maxvl.bits

theorem runsVexMove_vex2 {s : State} {p : Prefixes} {rex : Option Rex} {v : Vex2} {l : Bool} (husable : vex2Usable s p rex v)
    (hts : cr0Ts s = false) (hfits : (vexLen l).bits ≤ s.params.maxvl.bits) (d : Direction) (m : ModRM) :
    RunsVexMove (vex2Instr d l p rex v m) s (vex2Move (vexLen l) d p rex v m s) where
  moveOf_eq := moveOf_vex2Instr s d l p rex v m
  checks := by
    rw [undefinedOf_vex2Instr, refusesOf_vex2Instr]
    exact entryChecks_vex2 husable hfits hts
  cls := rfl
  mask := rfl
  fits := hfits

theorem runsVexMove_vex3 {s : State} {p : Prefixes} {rex : Option Rex} {v : Vex3} {l : Bool} (husable : vex3Usable s p rex v)
    (hts : cr0Ts s = false) (hfits : (vexLen l).bits ≤ s.params.maxvl.bits) (d : Direction) (m : ModRM) :
    RunsVexMove (vex3Instr d l p rex v m) s (vex3Move (vexLen l) d p rex v m s) where
  moveOf_eq := moveOf_vex3Instr s d l p rex v m
  checks := by
    rw [undefinedOf_vex3Instr, refusesOf_vex3Instr]
    exact entryChecks_vex3 husable hfits hts
  cls := rfl
  mask := rfl
  fits := hfits

/-- A VEX result replaces the whole register: VL bits of the source under zeros (10_state.md R22). -/
theorem moveResult_of_vex {c : Move} (hcls : c.cls = .vex) (old src : Vec) : moveResult c old src = lowPart c.vl.bits src := by
  rw [moveResult, hcls]

namespace RunsVexMove

variable {i : Instr} {s : State} {c : Move} {r : BitVec 3} {o : MemOperand} {pa : Nat → Nat}

theorem exec_eq (h : RunsVexMove i s c) : exec i s = execMove c (undefinedOf i s) (refusesOf i s) s := by
  rw [exec_eq_execMove, h.moveOf_eq]

theorem accessOf_eq (h : RunsVexMove i s c) : accessOf i s o = moveAccess s c o := by
  rw [accessOf, h.moveOf_eq]

/-- The operand is all VL/8 bytes (20_memory.md R57). -/
theorem mem_offs (h : RunsVexMove i s c) (k : Nat) : k ∈ (accessOf i s o).offs ↔ k < c.vl.bytes := by
  rw [h.accessOf_eq, moveAccess, h.mask]
  exact mem_maskedOffsets_full c.vl k

/-- A register that holds the move's result holds a VEX write of the source: MAXVL cuts no bit of VL off. -/
theorem vexWrites_of_readVec (h : RunsVexMove i s c) {t : State} {dest : BitVec 5} {old src : Vec}
    (hdest : readVec t dest = lowPart s.params.maxvl.bits (moveResult c old src)) : vexWrites c.vl t dest src := by
  rw [moveResult_of_vex h.cls] at hdest
  exact Machine.vexWrites_of_readVec h.fits hdest

theorem load_reg (h : RunsVexMove i s c) (hdir : c.dir = .load) (hrm : c.modrm.rm = .reg r) :
    ∃ t, exec i s = .next t ∧ onlyRegChanged s t (moveReg c) c.ilen
      ∧ vexWrites c.vl t (moveReg c) (readVec s (moveRmReg c r)) := by
  obtain ⟨t, hexec, hframe, hdest⟩ := execMove_load_reg_completes h.checks hdir hrm
  exact ⟨t, h.exec_eq.trans hexec, hframe, h.vexWrites_of_readVec hdest⟩

theorem store_reg (h : RunsVexMove i s c) (hdir : c.dir = .store) (hrm : c.modrm.rm = .reg r) :
    ∃ t, exec i s = .next t ∧ onlyRegChanged s t (moveRmReg c r) c.ilen
      ∧ vexWrites c.vl t (moveRmReg c r) (readVec s (moveReg c)) := by
  obtain ⟨t, hexec, hframe, hdest⟩ := execMove_store_reg_completes h.checks hdir hrm
  exact ⟨t, h.exec_eq.trans hexec, hframe, h.vexWrites_of_readVec hdest⟩

theorem load_mem (h : RunsVexMove i s c) (hdir : c.dir = .load) (hrm : c.modrm.rm = .mem o)
    (hacc : accessible s (accessOf i s o) pa) :
    ∃ t src, exec i s = .next t ∧ loadedFrom s (accessOf i s o) pa src ∧ onlyRegChanged s t (moveReg c) c.ilen
      ∧ vexWrites c.vl t (moveReg c) src := by
  rw [h.accessOf_eq] at hacc ⊢
  obtain ⟨t, src, hexec, hloaded, hframe, hdest⟩ := execMove_load_completes h.checks hdir hrm hacc
  exact ⟨t, src, h.exec_eq.trans hexec, hloaded, hframe, h.vexWrites_of_readVec hdest⟩

theorem store_mem (h : RunsVexMove i s c) (hdir : c.dir = .store) (hrm : c.modrm.rm = .mem o) (hwf : s.mem.wf)
    (hacc : accessible s (accessOf i s o) pa) :
    ∃ t, exec i s = .next t ∧ onlyMemChanged s t c.ilen ∧ storedTo s t (accessOf i s o) pa (readVec s (moveReg c)) := by
  rw [h.accessOf_eq] at hacc ⊢
  rw [h.exec_eq]
  exact execMove_store_completes h.checks hdir hrm hwf hacc

end RunsVexMove

/-! ### The forms complete -/

/-- Settles O37: a usable form of either opcode and of two or three VEX bytes is a VEX move to a register. -/
theorem vexRegisterCopyCompletes : Obligations.VexRegisterCopyCompletes := by
  intro s p rex reg r hts
  refine ⟨fun v husable => ⟨fun f hf hfits => ?vex2Load, fun f hf hfits => ?vex2Store⟩,
    fun v husable => ⟨fun f hf hfits => ?vex3Load, fun f hf hfits => ?vex3Store⟩⟩
  case vex2Load =>
    obtain ⟨l, rfl⟩ := exists_vexLen_of_mem (form := vex2Instr .load) hf
    exact (runsVexMove_vex2 husable hts hfits .load _).load_reg rfl rfl
  case vex2Store =>
    obtain ⟨l, rfl⟩ := exists_vexLen_of_mem (form := vex2Instr .store) hf
    exact (runsVexMove_vex2 husable hts hfits .store _).store_reg rfl rfl
  case vex3Load =>
    obtain ⟨l, rfl⟩ := exists_vexLen_of_mem (form := vex3Instr .load) hf
    exact (runsVexMove_vex3 husable hts hfits .load _).load_reg rfl rfl
  case vex3Store =>
    obtain ⟨l, rfl⟩ := exists_vexLen_of_mem (form := vex3Instr .store) hf
    exact (runsVexMove_vex3 husable hts hfits .store _).store_reg rfl rfl

/-- Settles O38: a usable form with an accessible operand loads its VL/8 bytes, and the result clears the bits above. -/
theorem vexLoadCompletes : Obligations.VexLoadCompletes := by
  intro s p rex reg o pa hts
  refine ⟨fun v husable f hf hfits hacc => ?vex2, fun v husable f hf hfits hacc => ?vex3⟩
  case vex2 =>
    obtain ⟨l, rfl⟩ := exists_vexLen_of_mem (form := vex2Instr .load) hf
    have hruns := runsVexMove_vex2 husable hts hfits .load ⟨reg, .mem o⟩
    exact ⟨hruns.mem_offs, hruns.load_mem rfl rfl hacc⟩
  case vex3 =>
    obtain ⟨l, rfl⟩ := exists_vexLen_of_mem (form := vex3Instr .load) hf
    have hruns := runsVexMove_vex3 husable hts hfits .load ⟨reg, .mem o⟩
    exact ⟨hruns.mem_offs, hruns.load_mem rfl rfl hacc⟩

/-- Settles O39: a usable form with an accessible operand writes the register's VL/8 low bytes there, and memory in canonical form
keeps every other byte. -/
theorem vexStoreCompletes : Obligations.VexStoreCompletes := by
  intro s p rex reg o pa hts hwf
  refine ⟨fun v husable f hf hfits hacc => ?vex2, fun v husable f hf hfits hacc => ?vex3⟩
  case vex2 =>
    obtain ⟨l, rfl⟩ := exists_vexLen_of_mem (form := vex2Instr .store) hf
    have hruns := runsVexMove_vex2 husable hts hfits .store ⟨reg, .mem o⟩
    exact ⟨hruns.mem_offs, hruns.store_mem rfl rfl hwf hacc⟩
  case vex3 =>
    obtain ⟨l, rfl⟩ := exists_vexLen_of_mem (form := vex3Instr .store) hf
    have hruns := runsVexMove_vex3 husable hts hfits .store ⟨reg, .mem o⟩
    exact ⟨hruns.mem_offs, hruns.store_mem rfl rfl hwf hacc⟩

end Sys2Proof.Machine
end

section
/-! PROOFS. VMOVUPS (EVEX) completes under its writemask (42_vmovups_evex.md R150 to R160): each usable form is the shared move of
the selected elements, whose checks pass; and no form sees more of the opmask registers than the mask it selects. -/

namespace Sys2Proof.Machine

/-! ### The rows as moves -/

theorem eq_evexInstr_of_mem_loads {f} (hf : f ∈ evexLoads) : f.2 = evexInstr .load f.1 := by
  simp only [evexLoads, List.mem_cons, List.not_mem_nil, or_false] at hf
  rcases hf with rfl | rfl | rfl <;> rfl

theorem eq_evexInstr_of_mem_stores {f} (hf : f ∈ evexStores) : f.2 = evexInstr .store f.1 := by
  simp only [evexStores, List.mem_cons, List.not_mem_nil, or_false] at hf
  rcases hf with rfl | rfl | rfl <;> rfl

section
variable (s : State) (d : Direction) (vl : VecLen) (p : Prefixes) (rex : Option Rex) (v : Evex) (m : ModRM)

theorem exec_evexInstr :
    exec (evexInstr d vl p rex v m) s
      = execMove (evexMove vl d p rex v m s) (evexUndefined s vl d p rex v m) (evexRefuses s p v m) s := by
  cases d <;> cases vl <;> rfl

theorem accessOf_evexInstr (o : MemOperand) :
    accessOf (evexInstr d vl p rex v m) s o = moveAccess s (evexMove vl d p rex v m s) o := by
  cases d <;> cases vl <;> rfl

/-- An EVEX form accesses the bytes of the elements its writemask selects (42_vmovups_evex.md R152, R160). -/
theorem mem_offs_evexMove (o : MemOperand) (k : Nat) :
    k ∈ (moveAccess s (evexMove vl d p rex v m s) o).offs ↔ k < vl.bytes ∧ maskBit s v.aaa (k / 4) = true :=
  mem_offs_evex s v vl k

end

/-! ### The forms complete -/

/-- Settles O40: either opcode is the masked move to a register, element by element. -/
theorem evexRegisterCopyCompletes : Obligations.EvexRegisterCopyCompletes := by
  intro s p rex v reg r hts
  refine ⟨fun f hf husable hfits => ?load, fun f hf husable hfits => ?store⟩
  case load =>
    rw [eq_evexInstr_of_mem_loads hf, exec_evexInstr]
    have hchecks := entryChecks_evex husable hfits hts
    obtain ⟨t, hexec, hframe, hdest⟩ :=
      execMove_load_reg_completes (c := evexMove f.1 .load p rex v ⟨reg, .reg r⟩ s) hchecks rfl rfl
    exact ⟨t, hexec, hframe, evexWrites_of_readVec hfits hdest⟩
  case store =>
    rw [eq_evexInstr_of_mem_stores hf, exec_evexInstr]
    have hchecks := entryChecks_evex husable hfits hts
    obtain ⟨t, hexec, hframe, hdest⟩ :=
      execMove_store_reg_completes (c := evexMove f.1 .store p rex v ⟨reg, .reg r⟩ s) hchecks rfl rfl
    exact ⟨t, hexec, hframe, evexWrites_of_readVec hfits hdest⟩

/-- Settles O41: the accessible bytes of the selected elements are loaded, and the masked result takes them. -/
theorem evexLoadCompletes : Obligations.EvexLoadCompletes := by
  intro s p rex v reg o pa hts f hf husable hfits
  rw [eq_evexInstr_of_mem_loads hf, exec_evexInstr, accessOf_evexInstr]
  intro hacc
  have hchecks := entryChecks_evex husable hfits hts
  obtain ⟨t, src, hexec, hloaded, hframe, hdest⟩ :=
    execMove_load_completes (c := evexMove f.1 .load p rex v ⟨reg, .mem o⟩ s) hchecks rfl rfl hacc
  exact ⟨fun _ => mem_offs_evexMove .., t, src, hexec, hloaded, hframe, evexWrites_of_readVec hfits hdest⟩

/-- Settles O42: the accessible bytes of the selected elements take the register's, and memory in canonical form keeps every
other byte. -/
theorem evexStoreCompletes : Obligations.EvexStoreCompletes := by
  intro s p rex v reg o pa hts hwf f hf husable hfits
  rw [eq_evexInstr_of_mem_stores hf, exec_evexInstr, accessOf_evexInstr]
  intro hacc
  have hchecks := entryChecks_evex husable hfits hts
  exact ⟨fun _ => mem_offs_evexMove ..,
    execMove_store_completes (c := evexMove f.1 .store p rex v ⟨reg, .mem o⟩ s) hchecks rfl rfl hwf hacc⟩

/-! ### What a change of the opmask registers leaves -/

/-- An opmask register reads as its low K_WIDTH bits (10_state.md R27). -/
theorem getLsbD_readMask (s : State) (i : BitVec 3) (j : Nat) :
    (readMask s i).getLsbD j = (decide (j < s.params.kWidth.bits) && (s.k[i.toNat]'(i.isLt)).getLsbD j) := by
  simp only [readMask, BitVec.getLsbD_setWidth]
  by_cases hj : j < 64
  · simp [hj]
  · simp [hj, BitVec.getLsbD_of_ge _ j (Nat.le_of_not_lt hj)]

section
variable (s : State) (k : Vector (BitVec 64) 8)

@[simp] theorem entryChecks_setK (n : Nat) (ud : Bool) (rf : Option Refusal) :
    entryChecks { s with k := k } n ud rf = entryChecks s n ud rf := rfl

@[simp] theorem moveAccess_setK (c : Move) (o : MemOperand) : moveAccess { s with k := k } c o = moveAccess s c o := rfl

@[simp] theorem resolve_setK (a : Access) : resolve { s with k := k } a = resolve s a := rfl

/-- A move with its mask already read sees no opmask register, from its checks to its effect. -/
theorem execMove_setK (c : Move) (ud : Bool) (rf : Option Refusal) :
    execMove c ud rf { s with k := k } = mapNext (fun t => { t with k := k }) (execMove c ud rf s) := by
  unfold execMove
  rw [entryChecks_setK, mapNext_andThen]
  congr 1
  funext _
  rcases c.dir with _ | _ <;> rcases c.modrm.rm with r | o
  case load.reg | store.reg => rfl
  case load.mem | store.mem =>
    simp only [memRead, memWrite, moveAccess_setK, resolve_setK]
    cases resolve s (moveAccess s c o) <;> rfl

/-- The effective mask is the KL bits that the two register files agree on (42_vmovups_evex.md R152, 10_state.md R28). -/
theorem effectiveMask_setK {aaa : BitVec 3} {vl : VecLen}
    (hagree : aaa ≠ 0#3 → ∀ j, j < vl.elems → (k[aaa.toNat]'(aaa.isLt)).getLsbD j = (s.k[aaa.toNat]'(aaa.isLt)).getLsbD j) :
    effectiveMask { s with k := k } aaa vl = effectiveMask s aaa vl := by
  apply BitVec.eq_of_getLsbD_eq
  intro j _
  simp only [getLsbD_effectiveMask, getLsbD_readMask]
  by_cases haaa : aaa = 0#3
  · simp [haaa]
  · by_cases hj : j < vl.elems
    · rw [hagree haaa j hj]
    · simp [hj]

/-- An EVEX form's move takes nothing but its mask from the opmask registers. -/
theorem evexMove_setK {vl : VecLen} {v : Evex} (hmask : effectiveMask { s with k := k } v.aaa vl = effectiveMask s v.aaa vl)
    (d : Direction) (p : Prefixes) (rex : Option Rex) (m : ModRM) :
    evexMove vl d p rex v m { s with k := k } = evexMove vl d p rex v m s := by
  rw [evexMove, hmask]
  rfl

theorem evexUndefined_setK (vl : VecLen) (d : Direction) (p : Prefixes) (rex : Option Rex) (v : Evex) (m : ModRM) :
    evexUndefined { s with k := k } vl d p rex v m = evexUndefined s vl d p rex v m := rfl

theorem evexRefuses_setK (p : Prefixes) (v : Evex) (m : ModRM) :
    evexRefuses { s with k := k } p v m = evexRefuses s p v m := rfl

end

/-- Settles O49: the opmask registers reach an EVEX form only through its effective mask, which the agreeing bits fix. -/
theorem highMaskBitsAreIgnored : Obligations.HighMaskBitsAreIgnored := by
  intro s p rex v m k f hf hagree
  obtain ⟨d, hform⟩ := eq_evexInstr_of_mem hf
  have hmask : effectiveMask { s with k := k } v.aaa f.1 = effectiveMask s v.aaa f.1 := effectiveMask_setK s k hagree
  rw [hform, exec_evexInstr, exec_evexInstr, evexMove_setK s k hmask, evexUndefined_setK, evexRefuses_setK, execMove_setK]

end Sys2Proof.Machine
end

section
/-! PROOFS. The exceptions that come before the operand: the step runs what the decoder answers (92_eei_decisions.md D1), an
instruction of more than 15 bytes is #GP(0), then each #UD condition, then #NM (60_exceptions.md R174 to R183, R188, R191). -/

namespace Sys2Proof.Machine

/-! ### The step -/

/-- Settles O9, by the decoder's three answers: an instruction runs, a rejection is refused, and an undefined opcode without a row
is the exception its length decides (60_exceptions.md R188, R191). -/
theorem stepRunsDecoded : Obligations.StepRunsDecoded := by
  intro s
  refine ⟨fun htext => by simp [step, runOne, htext], fun htext => ?_⟩
  have hstep {d : Decoded} (hdec : decode (modeOf s) (fetchBytes s) = d) : step s = runDecoded s d := by
    rw [step, runOne, if_pos htext, hdec]
  refine ⟨fun i rest hdec => hstep hdec, fun n hdec hlen => ?_, fun n hdec hlen => ?_, fun e hdec => hstep hdec⟩
  · rw [hstep hdec, runDecoded, execUndefined, if_neg (Nat.not_lt.2 hlen)]
    rfl
  · rw [hstep hdec, runDecoded, execUndefined, if_pos hlen]
    rfl

/-! ### The length and CR0.TS -/

/-- What the checks before the operand raise, the instruction raises. -/
theorem raises_of_entryChecks {i : Instr} {s : State} {k : ExcKind}
    (h : entryChecks s (instrLength i) (undefinedOf i s) (refusesOf i s) = raise k s) : raises i s k := by
  rw [raises, exec_eq_execMove, execMove, moveOf_ilen, h]
  rfl

/-- Settles O21: the length is the first of the checks. -/
theorem tooLongRaisesGp : Obligations.TooLongRaisesGp := by
  intro i s hlong
  exact raises_of_entryChecks (if_pos hlong)

/-- Settles O20: CR0.TS is the last of the checks, and the three before it pass. -/
theorem taskSwitchedRaisesNm : Obligations.TaskSwitchedRaisesNm := by
  intro i s hlen hdefined hrefuses hts
  refine raises_of_entryChecks ?_
  simp [entryChecks, Nat.not_lt.2 hlen, hdefined, hrefuses, hts]

/-! ### The #UD conditions one by one -/

theorem legacyUndefined_eq_true_iff {s : State} {p : Prefixes} :
    legacyUndefined s p = true ↔
      s.params.hasSse = false ∨ cr0Em s = true ∨ cr4Osfxsr s = false ∨ p.lock = true := by
  simp [legacyUndefined, or_assoc]

theorem forbiddenPrefix_eq_true_iff {p : Prefixes} {rex : Option Rex} :
    forbiddenPrefix p rex = true ↔ p.lock = true ∨ p.opSize = true ∨ p.rep ≠ none ∨ rex ≠ none := by
  simp [forbiddenPrefix, or_assoc, Option.isSome_iff_ne_none]

theorem realOrV86_eq_true_iff {s : State} : realOrV86 s = true ↔ modeOf s = .real ∨ modeOf s = .v86 := by
  simp [realOrV86]

/-- The #UD conditions a VEX form and an EVEX form have in common: vvvv, the state the operating system enables, a byte before VEX
or EVEX, the mode (60_exceptions.md R174, R177 to R181). -/
def vexOrEvexUd (s : State) (p : Prefixes) (rex : Option Rex) (vvvv : BitVec 4) : Prop :=
  vvvv ≠ 15#4 ∨ cr4Osxsave s = false ∨ xcr0Avx s = false ∨ forbiddenPrefix p rex = true ∨ realOrV86 s = true

theorem vexUndefined_eq_true_iff {s : State} {vl : VecLen} {p : Prefixes} {rex : Option Rex} {vvvv : BitVec 4} :
    vexUndefined s vl p rex vvvv = true ↔
      vexOrEvexUd s p rex vvvv ∨ s.params.hasAvx = false ∨ withinMaxvl s vl = false := by
  simp only [vexUndefined, vexOrEvexUd, Bool.or_eq_true, bne_iff_ne, Bool.not_eq_true']
  tauto

theorem evexUndefined_eq_true_iff {s : State} {vl : VecLen} {d : Direction} {p : Prefixes} {rex : Option Rex} {v : Evex}
    {m : ModRM} :
    evexUndefined s vl d p rex v m = true ↔
      vexOrEvexUd s p rex v.vvvv ∨ evexFlags s vl = false ∨ withinMaxvl s vl = false ∨ xcr0Avx512 s = false
        ∨ evexReserved d v m = true ∨ (modeOf s = .mode64 ∧ v.vpInv = false) := by
  simp only [evexUndefined, vexOrEvexUd, Bool.or_eq_true, Bool.and_eq_true, bne_iff_ne, Bool.not_eq_true', beq_iff_eq]
  tauto

theorem evexReserved_eq_true_iff {d : Direction} {v : Evex} {m : ModRM} :
    evexReserved d v m = true ↔
      v.p0res ≠ 0#2 ∨ v.p1fixed = false ∨ v.w = true ∨ v.b = true ∨ (v.z = true ∧ v.aaa = 0#3)
        ∨ (v.z = true ∧ d = .store ∧ isMemRm m = true) := by
  simp [evexReserved, or_assoc, and_assoc]

theorem evexFlags_eq_false_iff {s : State} {vl : VecLen} :
    evexFlags s vl = false ↔ s.params.hasAvx512f = false ∨ (vl ≠ .l512 ∧ s.params.hasAvx512vl = false) := by
  cases hf : s.params.hasAvx512f <;> simp [evexFlags, hf]

/-! ### The #UD condition of an instruction by its class -/

section
variable (s : State) (d : Direction) (l : Bool) (vl : VecLen) (p : Prefixes) (rex : Option Rex) (v2 : Vex2) (v3 : Vex3)
  (ev : Evex) (m : ModRM)

@[simp] theorem vvvvOf_legacyInstr : vvvvOf (legacyInstr d p rex m) = none := by
  cases d <;> rfl

@[simp] theorem vvvvOf_vex2Instr : vvvvOf (vex2Instr d l p rex v2 m) = some v2.vvvv := by
  cases d <;> cases l <;> rfl

@[simp] theorem vvvvOf_vex3Instr : vvvvOf (vex3Instr d l p rex v3 m) = some v3.vvvv := by
  cases d <;> cases l <;> rfl

@[simp] theorem vvvvOf_evexInstr : vvvvOf (evexInstr d vl p rex ev m) = some ev.vvvv := by
  cases d <;> cases vl <;> rfl

@[simp] theorem evexOf_legacyInstr : evexOf (legacyInstr d p rex m) = none := by
  cases d <;> rfl

@[simp] theorem evexOf_vex2Instr : evexOf (vex2Instr d l p rex v2 m) = none := by
  cases d <;> cases l <;> rfl

@[simp] theorem evexOf_vex3Instr : evexOf (vex3Instr d l p rex v3 m) = none := by
  cases d <;> cases l <;> rfl

@[simp] theorem evexOf_evexInstr : evexOf (evexInstr d vl p rex ev m) = some ev := by
  cases d <;> cases vl <;> rfl

theorem undefinedOf_legacyInstr : undefinedOf (legacyInstr d p rex m) s = legacyUndefined s p := by
  cases d <;> rfl

theorem moveOf_evexInstr : moveOf (evexInstr d vl p rex ev m) s = evexMove vl d p rex ev m s := by
  cases d <;> cases vl <;> rfl

theorem undefinedOf_evexInstr : undefinedOf (evexInstr d vl p rex ev m) s = evexUndefined s vl d p rex ev m := by
  cases d <;> cases vl <;> rfl

end

section
variable {i : Instr}

theorem undefinedOf_of_legacy (hclass : classOf i = .legacy) (s : State) :
    undefinedOf i s = legacyUndefined s (prefixesOf i) := by
  induction i using instr_byFormat with
  | legacy d p rex m => rw [undefinedOf_legacyInstr, prefixesOf_legacyInstr]
  | vex2 d l p rex v m | vex3 d l p rex v m | evex d l p rex v m => simp at hclass

/-- A VEX instruction has one length and one vvvv, whatever the state. -/
theorem exists_undefinedOf_of_vex (hclass : classOf i = .vex) :
    ∃ vl x, vvvvOf i = some x ∧ ∀ s, undefinedOf i s = vexUndefined s vl (prefixesOf i) (rexOf i) x := by
  induction i using instr_byFormat with
  | legacy d p rex m | evex d vl p rex v m => simp at hclass
  | vex2 d l p rex v m =>
    rw [prefixesOf_vex2Instr, rexOf_vex2Instr]
    exact ⟨vexLen l, v.vvvv, vvvvOf_vex2Instr .., fun s => undefinedOf_vex2Instr ..⟩
  | vex3 d l p rex v m =>
    rw [prefixesOf_vex3Instr, rexOf_vex3Instr]
    exact ⟨vexLen l, v.vvvv, vvvvOf_vex3Instr .., fun s => undefinedOf_vex3Instr ..⟩

theorem undefinedOf_of_evexOf {v : Evex} (hv : evexOf i = some v) (s : State) :
    vvvvOf i = some v.vvvv
      ∧ undefinedOf i s
        = evexUndefined s (moveOf i s).vl (moveOf i s).dir (prefixesOf i) (rexOf i) v (moveOf i s).modrm := by
  induction i using instr_byFormat with
  | legacy d p rex m | vex2 d l p rex v m | vex3 d l p rex v m => simp at hv
  | evex d vl p rex w m =>
    obtain rfl : w = v := by simpa using hv
    rw [undefinedOf_evexInstr, moveOf_evexInstr, prefixesOf_evexInstr, rexOf_evexInstr]
    exact ⟨vvvvOf_evexInstr .., rfl⟩

theorem exists_evexOf (hclass : classOf i = .evex) : ∃ v, evexOf i = some v := by
  induction i using instr_byFormat with
  | legacy d p rex m | vex2 d l p rex v m | vex3 d l p rex v m => simp at hclass
  | evex d vl p rex v m => exact ⟨v, evexOf_evexInstr ..⟩

theorem exists_vvvvOf (hclass : classOf i = .vex ∨ classOf i = .evex) : ∃ x, vvvvOf i = some x := by
  rcases hclass with hclass | hclass
  · obtain ⟨_, x, hx, -⟩ := exists_undefinedOf_of_vex hclass
    exact ⟨x, hx⟩
  · obtain ⟨v, hv⟩ := exists_evexOf hclass
    exact ⟨v.vvvv, (undefinedOf_of_evexOf hv State.reset).1⟩

/-- Only VEX and EVEX forms have vvvv, and each condition the two share makes either undefined. -/
theorem undefinedOf_of_vexOrEvexUd {s : State} {x : BitVec 4} (hx : vvvvOf i = some x)
    (h : vexOrEvexUd s (prefixesOf i) (rexOf i) x) : undefinedOf i s = true := by
  induction i using instr_byFormat with
  | legacy d p rex m => simp at hx
  | vex2 d l p rex v m =>
    obtain rfl : v.vvvv = x := by simpa using hx
    rw [undefinedOf_vex2Instr]
    exact vexUndefined_eq_true_iff.2 (.inl (by simpa using h))
  | vex3 d l p rex v m =>
    obtain rfl : v.vvvv = x := by simpa using hx
    rw [undefinedOf_vex3Instr]
    exact vexUndefined_eq_true_iff.2 (.inl (by simpa using h))
  | evex d vl p rex v m =>
    obtain rfl : v.vvvv = x := by simpa using hx
    rw [undefinedOf_evexInstr]
    exact evexUndefined_eq_true_iff.2 (.inl (by simpa using h))

end

/-! ### Each condition raises #UD -/

/-- Settles O11: vvvv is a condition of VEX and EVEX alike. -/
theorem reservedVvvvRaisesUd : Obligations.ReservedVvvvRaisesUd := by
  intro i s x hlen hx hne
  exact raises_invalidOpcode_of_undefinedOf hlen (undefinedOf_of_vexOrEvexUd hx (by simp [vexOrEvexUd, hne]))

/-- Settles O12, class by class: each names its flags in its #UD condition. -/
theorem missingFeatureFlagRaisesUd : Obligations.MissingFeatureFlagRaisesUd := by
  intro i s hlen
  have hevex (hclass : classOf i = .evex) (hflags : evexFlags s (moveOf i s).vl = false) : raises i s .invalidOpcode := by
    obtain ⟨v, hv⟩ := exists_evexOf hclass
    obtain ⟨-, hud⟩ := undefinedOf_of_evexOf hv s
    exact raises_invalidOpcode_of_undefinedOf hlen (hud.trans (evexUndefined_eq_true_iff.2 (by simp [hflags])))
  refine ⟨fun hclass hsse => ?legacy, fun hclass havx => ?vex, fun hclass hf => ?avx512f, fun hclass hvl hflag => ?avx512vl⟩
  case legacy =>
    refine raises_invalidOpcode_of_undefinedOf hlen ((undefinedOf_of_legacy hclass s).trans ?_)
    exact legacyUndefined_eq_true_iff.2 (by simp [hsse])
  case vex =>
    obtain ⟨vl, x, -, hud⟩ := exists_undefinedOf_of_vex hclass
    exact raises_invalidOpcode_of_undefinedOf hlen ((hud s).trans (vexUndefined_eq_true_iff.2 (by simp [havx])))
  case avx512f => exact hevex hclass (evexFlags_eq_false_iff.2 (.inl hf))
  case avx512vl => exact hevex hclass (evexFlags_eq_false_iff.2 (.inr ⟨hvl, hflag⟩))

/-- Settles O13: the two control bits are conditions of the Legacy SSE class. -/
theorem legacyControlBitsRaiseUd : Obligations.LegacyControlBitsRaiseUd := by
  intro i s hlen hclass hbits
  refine raises_invalidOpcode_of_undefinedOf hlen ((undefinedOf_of_legacy hclass s).trans ?_)
  exact legacyUndefined_eq_true_iff.2 (.inr (hbits.imp id .inl))

/-- A field that is all ones has each of its bits set. -/
theorem getLsbD_of_extractLsb'_eq_allOnes {w start len : Nat} {x : BitVec w}
    (h : x.extractLsb' start len = BitVec.allOnes len) {j : Nat} (hj : j < len) : x.getLsbD (start + j) = true := by
  have hbit := congrArg (fun y => y.getLsbD j) h
  simpa [hj] using hbit

theorem xcr0Avx_eq_false {s : State} (h : s.xcr0.getLsbD 1 = false ∨ s.xcr0.getLsbD 2 = false) : xcr0Avx s = false := by
  by_contra hn
  have hfield : s.xcr0.extractLsb' 1 2 = BitVec.allOnes 2 := by simpa [xcr0Avx] using hn
  have h1 : s.xcr0.getLsbD 1 = true := getLsbD_of_extractLsb'_eq_allOnes (j := 0) hfield (by decide)
  have h2 : s.xcr0.getLsbD 2 = true := getLsbD_of_extractLsb'_eq_allOnes (j := 1) hfield (by decide)
  simp only [h1, h2, Bool.true_eq_false, or_self] at h

theorem xcr0Avx512_eq_false {s : State}
    (h : s.xcr0.getLsbD 5 = false ∨ s.xcr0.getLsbD 6 = false ∨ s.xcr0.getLsbD 7 = false) : xcr0Avx512 s = false := by
  by_contra hn
  have hfield : s.xcr0.extractLsb' 5 3 = BitVec.allOnes 3 := by simpa [xcr0Avx512] using hn
  have h5 : s.xcr0.getLsbD 5 = true := getLsbD_of_extractLsb'_eq_allOnes (j := 0) hfield (by decide)
  have h6 : s.xcr0.getLsbD 6 = true := getLsbD_of_extractLsb'_eq_allOnes (j := 1) hfield (by decide)
  have h7 : s.xcr0.getLsbD 7 = true := getLsbD_of_extractLsb'_eq_allOnes (j := 2) hfield (by decide)
  simp only [h5, h6, h7, Bool.true_eq_false, or_self] at h

/-- CR4.OSXSAVE = 0 or a clear bit of XCR0[2:1] is #UD for every form that has vvvv. -/
theorem raises_of_avxState_disabled {i : Instr} {s : State} (hlen : instrLength i ≤ 15)
    (hclass : classOf i = .vex ∨ classOf i = .evex)
    (h : cr4Osxsave s = false ∨ s.xcr0.getLsbD 1 = false ∨ s.xcr0.getLsbD 2 = false) : raises i s .invalidOpcode := by
  obtain ⟨x, hx⟩ := exists_vvvvOf hclass
  have hud : vexOrEvexUd s (prefixesOf i) (rexOf i) x := by
    rcases h with hxsave | hbits
    · simp [vexOrEvexUd, hxsave]
    · simp [vexOrEvexUd, xcr0Avx_eq_false hbits]
  exact raises_invalidOpcode_of_undefinedOf hlen (undefinedOf_of_vexOrEvexUd hx hud)

/-- CR0.EM (bit 2) and CR4.OSFXSR (bit 9) exchanged for their complements. -/
def flipEmOsfxsr (s : State) : State := { s with cr0 := s.cr0 ^^^ 4#64, cr4 := s.cr4 ^^^ 0x200#64 }

@[simp] theorem modeOf_flipEmOsfxsr (s : State) : modeOf (flipEmOsfxsr s) = modeOf s := by
  have hpe : cr0Pe (flipEmOsfxsr s) = cr0Pe s := by simp [cr0Pe, flipEmOsfxsr]
  unfold modeOf
  rw [hpe]
  rfl

@[simp] theorem cr4Osxsave_flipEmOsfxsr (s : State) : cr4Osxsave (flipEmOsfxsr s) = cr4Osxsave s := by
  simp [cr4Osxsave, flipEmOsfxsr]

/-- No condition of a VEX form sees the two bits (60_exceptions.md R177). -/
theorem vexUndefined_flipEmOsfxsr (s : State) (vl : VecLen) (p : Prefixes) (rex : Option Rex) (vvvv : BitVec 4) :
    vexUndefined (flipEmOsfxsr s) vl p rex vvvv = vexUndefined s vl p rex vvvv := by
  simp only [vexUndefined, realOrV86, modeOf_flipEmOsfxsr, cr4Osxsave_flipEmOsfxsr]
  rfl

/-- Settles O14: the enabled state is a condition, the two bits of the Legacy SSE forms are not. -/
theorem vexControlBitsRaiseUd : Obligations.VexControlBitsRaiseUd := by
  intro i s hclass
  refine ⟨fun hlen hbits => raises_of_avxState_disabled hlen (.inl hclass) hbits, ?_⟩
  obtain ⟨vl, x, -, hud⟩ := exists_undefinedOf_of_vex hclass
  exact (hud (flipEmOsfxsr s)).trans ((vexUndefined_flipEmOsfxsr ..).trans (hud s).symm)

/-- Settles O15: beside what VEX needs, XCR0[7:5]. -/
theorem evexControlBitsRaiseUd : Obligations.EvexControlBitsRaiseUd := by
  intro i s hlen hclass hbits
  rcases hbits with hbit | hbit | hbit | hzmm
  · exact raises_of_avxState_disabled hlen (.inr hclass) (.inl hbit)
  · exact raises_of_avxState_disabled hlen (.inr hclass) (.inr (.inl hbit))
  · exact raises_of_avxState_disabled hlen (.inr hclass) (.inr (.inr hbit))
  · obtain ⟨v, hv⟩ := exists_evexOf hclass
    obtain ⟨-, hud⟩ := undefinedOf_of_evexOf hv s
    refine raises_invalidOpcode_of_undefinedOf hlen (hud.trans ?_)
    exact evexUndefined_eq_true_iff.2 (by simp [xcr0Avx512_eq_false hzmm])

/-- A byte that may not stand before VEX or EVEX is #UD there. -/
theorem raises_of_forbiddenPrefix {i : Instr} {s : State} (hlen : instrLength i ≤ 15)
    (hclass : classOf i = .vex ∨ classOf i = .evex) (h : forbiddenPrefix (prefixesOf i) (rexOf i) = true) :
    raises i s .invalidOpcode := by
  obtain ⟨x, hx⟩ := exists_vvvvOf hclass
  exact raises_invalidOpcode_of_undefinedOf hlen (undefinedOf_of_vexOrEvexUd hx (by simp [vexOrEvexUd, h]))

/-- Settles O16: LOCK is a condition of the Legacy SSE forms, and forbidden before VEX and EVEX. -/
theorem lockPrefixRaisesUd : Obligations.LockPrefixRaisesUd := by
  intro i s hlen hlock
  have hforbidden : forbiddenPrefix (prefixesOf i) (rexOf i) = true := forbiddenPrefix_eq_true_iff.2 (.inl hlock)
  cases hclass : classOf i with
  | legacy =>
    refine raises_invalidOpcode_of_undefinedOf hlen ((undefinedOf_of_legacy hclass s).trans ?_)
    exact legacyUndefined_eq_true_iff.2 (by simp [hlock])
  | vex => exact raises_of_forbiddenPrefix hlen (.inl hclass) hforbidden
  | evex => exact raises_of_forbiddenPrefix hlen (.inr hclass) hforbidden

/-- Settles O17: 66H, F2H, F3H and REX are forbidden before VEX and EVEX. -/
theorem prefixBeforeVexRaisesUd : Obligations.PrefixBeforeVexRaisesUd := by
  intro i s hlen hclass hprefix
  exact raises_of_forbiddenPrefix hlen hclass (forbiddenPrefix_eq_true_iff.2 (.inr hprefix))

/-- Settles O18: the mode is a condition of VEX and EVEX alike. -/
theorem vexInRealModeRaisesUd : Obligations.VexInRealModeRaisesUd := by
  intro i s hlen hclass hmode
  obtain ⟨x, hx⟩ := exists_vvvvOf hclass
  have hud : vexOrEvexUd s (prefixesOf i) (rexOf i) x := by simp [vexOrEvexUd, realOrV86_eq_true_iff, hmode]
  exact raises_invalidOpcode_of_undefinedOf hlen (undefinedOf_of_vexOrEvexUd hx hud)

/-- The destination is memory for opcode 11H with a memory r/m only (30_encoding.md R89). -/
theorem storedOperand_ne_none_iff {i : Instr} {s : State} :
    storedOperand i s ≠ none ↔ (moveOf i s).dir = .store ∧ isMemRm (moveOf i s).modrm = true := by
  unfold storedOperand isMemRm
  cases (moveOf i s).dir <;> cases (moveOf i s).modrm.rm <;> simp

/-- Settles O19: six conditions are the reserved fields', the last is V' in `Mode64`. -/
theorem reservedEvexFieldsRaiseUd : Obligations.ReservedEvexFieldsRaiseUd := by
  intro i s v hlen hv hfield
  obtain ⟨-, hud⟩ := undefinedOf_of_evexOf hv s
  refine raises_invalidOpcode_of_undefinedOf hlen (hud.trans (evexUndefined_eq_true_iff.2 ?_))
  rw [evexReserved_eq_true_iff, ← storedOperand_ne_none_iff]
  tauto

end Sys2Proof.Machine
end

section
/-! PROOFS. The exceptions of a memory operand, and what every exception leaves (60_exceptions.md R190, R195): which of #SS(0) and
#GP(0) a segment violation is (R184), the causes of #GP (R187), when a page refuses a byte and with what code (R185, R189), and
which of #AC and #PF is raised (R186, R191). -/

namespace Sys2Proof.Machine

/-! ### What an instruction raises -/

/-- All an instruction can raise: what a check before the operand raises, in their order, or what its access does
(60_exceptions.md R191). -/
theorem exec_eq_fault {i : Instr} {s : State} {e : Fault} (h : exec i s = .fault e) :
    (15 < instrLength i ∧ e = .exception .generalProtection s.pc)
      ∨ e = .exception .invalidOpcode s.pc
      ∨ e = .exception .deviceNotAvailable s.pc
      ∨ ∃ o, memOperand i s = some o ∧ resolve s (accessOf i s o) = .fault e := by
  rw [exec_eq_execMove] at h
  rcases execMove_eq_fault h with hchecks | ⟨-, o, ho, hresolve⟩
  · rw [moveOf_ilen] at hchecks
    rcases entryChecks_eq_fault hchecks with ⟨hlong, he⟩ | ⟨-, -, he⟩ | ⟨-, -, -, -, he⟩
    · exact .inl ⟨hlong, he⟩
    · exact .inr (.inl he)
    · exact .inr (.inr (.inl he))
  · exact .inr (.inr (.inr ⟨o, by rw [memOperand, ho], hresolve⟩))

/-- #SS, #GP, #AC and #PF come from the access, but for the #GP of the length. -/
theorem resolve_of_exec_fault {i : Instr} {s : State} {k : ExcKind} {ra : BitVec 64}
    (h : exec i s = .fault (.exception k ra)) (hud : k ≠ .invalidOpcode) (hnm : k ≠ .deviceNotAvailable) :
    (k = .generalProtection ∧ 15 < instrLength i)
      ∨ ∃ o, memOperand i s = some o ∧ resolve s (accessOf i s o) = .fault (.exception k ra) := by
  rcases exec_eq_fault h with ⟨hlong, he⟩ | he | he | hoperand
  · exact .inl ⟨(Fault.exception.inj he).1, hlong⟩
  · exact absurd (Fault.exception.inj he).1 hud
  · exact absurd (Fault.exception.inj he).1 hnm
  · exact .inr hoperand

theorem segViolation_eq (a : Access) : segViolation a = .stackFault ∨ segViolation a = .generalProtection := by
  unfold segViolation
  split
  · exact .inl rfl
  · exact .inr rfl

/-- An access that raises #GP failed its segment check. -/
theorem segCheck_of_resolve_generalProtection {s : State} {a : Access} {ra : BitVec 64}
    (h : resolve s a = .fault (.exception .generalProtection ra)) :
    segViolation a = .generalProtection ∧ ∃ e, segCheck s a = .fault e := by
  obtain ⟨-, ⟨he, hs⟩ | ⟨_, -, ⟨-, he⟩ | ⟨_, -, he⟩⟩⟩ := resolve_eq_fault h
  · exact ⟨(Fault.exception.inj he).1.symm, _, hs⟩
  · cases he
  · cases he

/-- An access that raises #PF passed its segment check and names one of its page faults. -/
theorem pageFault_of_resolve {s : State} {a : Access} {code : BitVec 32} {address ra : BitVec 64}
    (h : resolve s a = .fault (.exception (.pageFault code address) ra)) :
    ∃ la, segCheck s a = .next la ∧ ∃ c ∈ pageFaults s a la, code = c.2 ∧ address = BitVec.ofNat 64 c.1 := by
  obtain ⟨-, ⟨he, -⟩ | ⟨la, hs, ⟨-, he⟩ | ⟨c, hc, he⟩⟩⟩ := resolve_eq_fault h
  · rcases segViolation_eq a with hv | hv <;> simp [hv] at he
  · cases he
  · cases he
    exact ⟨la, hs, c, hc, rfl, rfl⟩

/-- An access that raises #AC accesses a byte, passed its segment check and is an alignment fault. -/
theorem alignmentFault_of_resolve {s : State} {a : Access} {ra : BitVec 64}
    (h : resolve s a = .fault (.exception .alignmentCheck ra)) :
    a.offs ≠ [] ∧ ∃ la, segCheck s a = .next la ∧ alignmentFault s a la = true := by
  obtain ⟨hne, ⟨he, -⟩ | ⟨la, hs, ⟨hal, -⟩ | ⟨_, -, he⟩⟩⟩ := resolve_eq_fault h
  · rcases segViolation_eq a with hv | hv <;> simp [hv] at he
  · exact ⟨hne, la, hs, hal⟩
  · cases he

theorem returnAddress_of_resolve {s : State} {a : Access} {e : Fault} (h : resolve s a = .fault e) :
    faultReturn e = s.pc := by
  obtain ⟨-, ⟨rfl, -⟩ | ⟨_, -, ⟨-, rfl⟩ | ⟨_, -, rfl⟩⟩⟩ := resolve_eq_fault h <;> rfl

/-- Every exception is a fault: it returns to the instruction (60_exceptions.md R195). -/
theorem returnAddress_of_exec {i : Instr} {s : State} {e : Fault} (h : exec i s = .fault e) : faultReturn e = s.pc := by
  rcases exec_eq_fault h with ⟨-, rfl⟩ | rfl | rfl | ⟨o, -, hresolve⟩
  · rfl
  · rfl
  · rfl
  · exact returnAddress_of_resolve hresolve

theorem excCr2_eq_none {k : ExcKind} (h : ∀ code address, k ≠ .pageFault code address) : excCr2 k = none := by
  cases k with
  | pageFault code address => exact absurd rfl (h code address)
  | _ => rfl

/-- Settles O23: an exception returns to pc, so that only CR2 can differ beside the counter, and only #PF has a value for it. -/
theorem faultChangesOnlyCr2 : Obligations.FaultChangesOnlyCr2 := by
  intro i s e h
  have hreturn := returnAddress_of_exec h
  refine ⟨?_, hreturn, fun code address hkind => ?_, fun hkind => ?_⟩
  · rw [takeException, hreturn]
  · rw [takeException_cr2, hkind]
    rfl
  · rw [takeException_cr2, excCr2_eq_none hkind]
    rfl

/-! ### The segment's exceptions -/

/-- An override is the segment, but for CS, SS, DS and ES in `Mode64` (30_encoding.md R93). -/
theorem segmentOf_override (mode : Mode) (g dflt : SegReg) :
    segmentOf mode (some g) dflt = if mode = .mode64 ∧ g ≠ .fs ∧ g ≠ .gs then dflt else g := by
  simp [segmentOf, isFsGs]

theorem violationIsStack_override (mode : Mode) (g dflt : SegReg) :
    violationIsStack mode (some g) dflt
      = if mode = .mode64 ∧ g ≠ .fs ∧ g ≠ .gs then
          (if decide (g = .ss) = decide (dflt = .ss) then decide (dflt = .ss) else Config.overrideReportsStack g dflt)
        else decide (g = .ss) := by
  simp [violationIsStack, isFsGs, ← beq_eq_decide]

/-- Settles O27, by whether the override is ignored. -/
theorem stackSegmentSelectsSs : Obligations.StackSegmentSelectsSs := by
  intro mode dflt g
  rw [segmentOf_override, violationIsStack_override]
  refine ⟨beq_eq_decide .., fun hcounts => ?_, fun hm hfs hgs => ?_, fun hm hfs hgs hagree => ?_⟩
  · have hnot : ¬(mode = .mode64 ∧ g ≠ .fs ∧ g ≠ .gs) := by tauto
    rw [if_neg hnot, if_neg hnot]
    exact ⟨rfl, rfl⟩
  · rw [if_pos ⟨hm, hfs, hgs⟩]
  · rw [if_pos ⟨hm, hfs, hgs⟩, if_pos hagree]

/-- A segment violation is #GP(0) when the segment is not SS. -/
theorem stack_eq_false_of_segViolation {a : Access} (h : segViolation a = .generalProtection) : a.stack = false := by
  unfold segViolation at h
  split at h <;> simp_all

theorem exists_not_canonical_of_segCheck {s : State} {a : Access} {e : Fault} (hm : modeOf s = .mode64)
    (h : segCheck s a = .fault e) : ∃ k ∈ a.offs, canonical s.params.laBits (linear64 s a + k) = false := by
  by_contra hn
  have hall : ∀ k ∈ a.offs, canonical s.params.laBits (linear64 s a + k) = true := by simpa using hn
  simp [segCheck_of_canonical hm hall] at h

/-- Outside `Mode64` the segment check raises violations only: a wrap is refused. -/
theorem violates32_of_segCheck {s : State} {a : Access} {e : Fault} (hm : modeOf s ≠ .mode64)
    (h : segCheck s a = .fault e) : violates32 s a = true := by
  by_contra hn
  rw [segCheck_of_ne_mode64 hm, if_neg hn] at h
  split at h <;> cases h

theorem exists_beyond_of_segCheck {s : State} {a : Access} {e : Fault} (hm : modeOf s = .real ∨ modeOf s = .v86)
    (h : segCheck s a = .fault e) : ∃ k ∈ a.offs, 0xFFFF < a.ea.toNat + k := by
  have hv := violates32_of_segCheck (by rcases hm with hm | hm <;> simp [hm]) h
  rw [violates32, if_pos (realOrV86_eq_true_iff.2 hm)] at hv
  simpa using hv

theorem protected_cause_of_segCheck {s : State} {a : Access} {e : Fault} (hm : modeOf s ≠ .mode64)
    (hreal : realOrV86 s = false) (h : segCheck s a = .fault e) :
    (segRegister s a.seg).isNull = true ∨ segPermits (segRegister s a.seg) (accessKind a) = false
      ∨ ∃ k ∈ a.offs,
          (segRegister s a.seg).limit.toNat < a.ea.toNat + k ∨ (a.asz = .a16 ∧ 0xFFFF < a.ea.toNat + k) := by
  have hv := violates32_of_segCheck hm h
  rw [violates32, if_neg (by simp [hreal])] at hv
  obtain hnull | hright | ⟨k, hk, -, hbeyond⟩ := protViolation_eq_true_iff.1 hv
  · exact .inl hnull
  · exact .inr (.inl hright)
  · exact .inr (.inr ⟨k, hk, hbeyond⟩)

/-- Settles O24: beside the length only the segment check raises #GP, and its causes are those of the mode. -/
theorem gpHasNoOtherCause : Obligations.GpHasNoOtherCause := by
  intro i s h
  rcases resolve_of_exec_fault h (by decide) (by decide) with ⟨-, hlong⟩ | ⟨o, ho, hresolve⟩
  · exact .inl hlong
  · obtain ⟨hkind, e, hseg⟩ := segCheck_of_resolve_generalProtection hresolve
    refine .inr ⟨o, ho, stack_eq_false_of_segViolation hkind, ?_⟩
    cases hm : modeOf s with
    | mode64 => exact exists_not_canonical_of_segCheck hm hseg
    | real => exact exists_beyond_of_segCheck (.inl hm) hseg
    | v86 => exact exists_beyond_of_segCheck (.inr hm) hseg
    | compat32 | prot32 | prot16 =>
      exact protected_cause_of_segCheck (by simp [hm]) (realOrV86_eq_false (by simp [hm]) (by simp [hm])) hseg

/-! ### Pages -/

theorem pageForbids_eq_true_iff {s : State} {e : PageEntry} {kind : AccessKind} :
    pageForbids s e kind = true ↔
      (kind = .write ∧ e.writable = false) ∨ (s.cpl = 3#2 ∧ e.user = false) ∨ e.reservedBit = true
        ∨ (kind = .read ∧ e.keyDeniesRead = true) ∨ (kind = .write ∧ e.keyDeniesWrite = true) := by
  cases kind <;> simp [pageForbids, keyDenies, or_assoc]

/-- The translation of a byte faults outside Real mode only: its page is not mapped, or is mapped and forbids the access; the code
says which (20_memory.md R63; 60_exceptions.md R172, R185). -/
theorem translate_eq_error_iff {s : State} {la : Nat} {kind : AccessKind} {code : BitVec 32} {l : List PageEntry}
    (hl : s.translation = .pages l) :
    Machine.translate s la kind = .error code ↔
      modeOf s ≠ .real
        ∧ ((findPage l la = none ∧ pageFaultCode s kind false false false = code)
          ∨ ∃ e, findPage l la = some e ∧ pageForbids s e kind = true
              ∧ pageFaultCode s kind true e.reservedBit (keyDenies e kind) = code) := by
  simp only [Machine.translate, hl]
  by_cases hreal : modeOf s = .real
  · simp [hreal]
  · cases hpage : findPage l la with
    | none => simp [hreal]
    | some e => cases hforbids : pageForbids s e kind <;> simp [hreal, hforbids]

/-- Settles O29: an unmapped page refuses every access, a mapped one what `pageForbids` names. -/
theorem pageRefusesExactly : Obligations.PageRefusesExactly := by
  intro s la kind l hl hreal
  simp only [translate_eq_error_iff hl, ← pageForbids_eq_true_iff]
  cases hpage : findPage l la <;> simp [hreal]

/-- The bits of the page-fault error code: P, W/R, U/S, RSVD, I/D, PK (60_exceptions.md R189). -/
theorem getLsbD_pageFaultCode (s : State) (kind : AccessKind) (present reserved key : Bool) :
    (pageFaultCode s kind present reserved key).getLsbD 0 = present
      ∧ (pageFaultCode s kind present reserved key).getLsbD 1 = decide (kind = .write)
      ∧ (pageFaultCode s kind present reserved key).getLsbD 2 = decide (s.cpl = 3#2)
      ∧ (pageFaultCode s kind present reserved key).getLsbD 3 = reserved
      ∧ (pageFaultCode s kind present reserved key).getLsbD 4 = false
      ∧ (pageFaultCode s kind present reserved key).getLsbD 5 = key := by
  simp only [pageFaultCode, ← beq_eq_decide]
  generalize (s.cpl == 3#2) = user
  generalize (kind == .write) = write
  revert present reserved key user write
  decide

theorem getLsbD_pageFaultCode_eq_false (s : State) (kind : AccessKind) (present reserved key : Bool) {b : Nat}
    (hb : b = 4 ∨ 6 ≤ b) : (pageFaultCode s kind present reserved key).getLsbD b = false := by
  rcases hb with rfl | hb
  · obtain ⟨-, -, -, -, h4, -⟩ := getLsbD_pageFaultCode s kind present reserved key
    exact h4
  · simp only [pageFaultCode, BitVec.getLsbD_setWidth, BitVec.getLsbD_of_ge _ b hb, Bool.and_false]

/-- The code of a byte whose page refuses it: P is set for a mapped page, RSVD and PK only for one (60_exceptions.md R189). -/
theorem exists_pageFaultCode_of_translate {s : State} {la : Nat} {kind : AccessKind} {code : BitVec 32} {l : List PageEntry}
    (hl : s.translation = .pages l) (h : Machine.translate s la kind = .error code) :
    ∃ reserved key, code = pageFaultCode s kind (findPage l la).isSome reserved key
      ∧ (reserved = true ↔ ∃ e, findPage l la = some e ∧ e.reservedBit = true)
      ∧ (key = true ↔ ∃ e, findPage l la = some e ∧ keyDenies e kind = true) := by
  obtain ⟨-, ⟨hpage, rfl⟩ | ⟨e, hpage, -, rfl⟩⟩ := (translate_eq_error_iff hl).1 h
  · exact ⟨false, false, by simp [hpage]⟩
  · exact ⟨e.reservedBit, keyDenies e kind, by simp [hpage]⟩

/-- Settles O28: the numbers are `excVector`'s and `excErrorCode`'s, and the bits are those of the code a translation answers. -/
theorem vectorsAndErrorCodes : Obligations.VectorsAndErrorCodes := by
  refine ⟨⟨rfl, rfl⟩, ⟨rfl, rfl⟩, ⟨rfl, rfl⟩, ⟨rfl, rfl⟩, fun _ _ => ⟨rfl, rfl⟩, ⟨rfl, rfl⟩, ?_⟩
  intro s la kind code l hl h
  obtain ⟨reserved, key, rfl, hreserved, hkey⟩ := exists_pageFaultCode_of_translate hl h
  obtain ⟨h0, h1, h2, h3, -, h5⟩ := getLsbD_pageFaultCode s kind (findPage l la).isSome reserved key
  rw [h0, h1, h2, h3, h5]
  exact ⟨rfl, rfl, rfl, hreserved, hkey, fun _ hb => getLsbD_pageFaultCode_eq_false s kind _ _ _ hb⟩

/-! ### #AC and #PF -/

theorem alignmentFault_eq_true_iff {s : State} {a : Access} {la : Nat} :
    alignmentFault s a la = true ↔
      alignmentChecking s = true ∧ la % (Config.acGranule a.cls a.vl a.dir).bytes ≠ 0
        ∧ (acPolicy s a.cls = .always ∨ (acPolicy s a.cls = .either ∧ Config.acRaises s.draws = true)) := by
  cases hp : acPolicy s a.cls <;> simp [alignmentFault, hp, and_assoc]

/-- With no page fault, an alignment fault is #AC. -/
theorem resolve_of_alignmentFault {s : State} {a : Access} {la : Nat} (hne : a.offs ≠ []) (hs : segCheck s a = .next la)
    (hpages : pageFaults s a la = []) (hal : alignmentFault s a la = true) : resolve s a = raise .alignmentCheck s := by
  simp [resolve, hne, hs, hpages, hal]

/-- A page fault of an accessed byte is #PF for such a byte, or #AC where that applies too (60_exceptions.md R190, R191). -/
theorem resolve_of_pageFaults {s : State} {a : Access} {la : Nat} (hs : segCheck s a = .next la)
    (hpages : pageFaults s a la ≠ []) :
    (alignmentFault s a la = true ∧ resolve s a = raise .alignmentCheck s)
      ∨ ∃ c ∈ pageFaults s a la, resolve s a = raise (.pageFault c.2 (BitVec.ofNat 64 c.1)) s := by
  have hne : a.offs ≠ [] := fun hnil => hpages (by simp [pageFaults, hnil])
  obtain ⟨f, t, hft⟩ := List.exists_cons_of_ne_nil hpages
  have hresolve : resolve s a = if alignmentFault s a la && Config.acBeforePf s.draws then raise .alignmentCheck s
      else raise (chosenFault s f (f :: t)) s := by
    simp [resolve, hne, hs, hft]
  rw [hresolve]
  split
  · rename_i hac
    exact .inl ⟨(Bool.and_eq_true_iff.1 hac).1, rfl⟩
  · obtain ⟨c, hc, hchosen⟩ := chosenFault_mem s f (f :: t) (List.mem_cons_self ..)
    exact .inr ⟨c, hft ▸ hc, by rw [hchosen]⟩

/-- Settles O30: with #AC ruled out the chosen page fault is raised, and it is an accessed byte's. -/
theorem refusedPageRaisesPf : Obligations.RefusedPageRaisesPf := by
  intro i s o la hreach ho hs hal hbyte
  have hpages : pageFaults s (accessOf i s o) la ≠ [] := fun hnil => by
    obtain ⟨k, hk, code, herror⟩ := hbyte
    obtain ⟨pa, hok⟩ := pageFaults_eq_nil_iff.1 hnil k hk
    cases herror.symm.trans hok
  rcases resolve_of_pageFaults hs hpages with ⟨hac, -⟩ | ⟨c, hc, hresolve⟩
  · rw [alignmentFault_eq_false hal] at hac
    cases hac
  · obtain ⟨k, hk, hla, herror⟩ := mem_pageFaults hc
    rw [hla] at herror hresolve
    exact ⟨k, hk, c.2, herror, exec_fault_of_resolve hreach ho hresolve⟩

/-- Settles O31: only an access raises #PF, for one of its bytes whose translation faults. -/
theorem pageFaultNamesAnAccessedByte : Obligations.PageFaultNamesAnAccessedByte := by
  intro i s code address ra h
  rcases resolve_of_exec_fault h (by simp) (by simp) with ⟨hkind, -⟩ | ⟨o, ho, hresolve⟩
  · cases hkind
  · obtain ⟨la, hs, c, hc, rfl, rfl⟩ := pageFault_of_resolve hresolve
    obtain ⟨k, hk, hla, herror⟩ := mem_pageFaults hc
    exact ⟨o, la, k, ho, hs, hk, hla ▸ herror, by rw [hla]⟩

theorem accessOf_cls (i : Instr) (s : State) (o : MemOperand) : (accessOf i s o).cls = classOf i := by
  cases i <;> rfl

/-- What is aligned to 64 bytes is aligned to every granule. -/
theorem mod_granule_of_mod_64 {la : Nat} (h : la % 64 = 0) (g : Granule) : la % g.bytes = 0 := by
  have hdvd : g.bytes ∣ 64 := by cases g <;> decide
  exact Nat.mod_eq_zero_of_dvd (hdvd.trans (Nat.dvd_of_mod_eq_zero h))

/-- What is not aligned to 4 bytes is not aligned to any granule. -/
theorem mod_granule_of_mod_four {la : Nat} (h : la % 4 ≠ 0) (g : Granule) : la % g.bytes ≠ 0 := by
  have hdvd : 4 ∣ g.bytes := by cases g <;> decide
  exact fun hg => h (Nat.mod_eq_zero_of_dvd (hdvd.trans (Nat.dvd_of_mod_eq_zero hg)))

/-- Settles O32: #AC comes from an alignment fault only, whose granule is a multiple of 4 and divides 64. -/
theorem alignmentCheckRaisesAc : Obligations.AlignmentCheckRaisesAc := by
  intro i s o la ho hs
  rw [← accessOf_cls i s o]
  refine ⟨fun h => ?raised, fun hreach hne hchecking hpolicy hla => ?always⟩
  case raised =>
    rcases resolve_of_exec_fault h (by decide) (by decide) with ⟨hkind, -⟩ | ⟨o', ho', hresolve⟩
    · cases hkind
    · obtain rfl : o' = o := Option.some.inj (ho'.symm.trans ho)
      obtain ⟨hne, la', hs', hal⟩ := alignmentFault_of_resolve hresolve
      obtain rfl : la' = la := Host.Outcome.next.inj (hs'.symm.trans hs)
      obtain ⟨hchecking, hla, hpolicy⟩ := alignmentFault_eq_true_iff.1 hal
      refine ⟨hchecking, ?_, fun h64 => hla (mod_granule_of_mod_64 h64 _), hne⟩
      rcases hpolicy with hpolicy | ⟨hpolicy, -⟩ <;> simp [hpolicy]
  case always =>
    have hal := alignmentFault_eq_true_iff.2 ⟨hchecking, mod_granule_of_mod_four hla _, .inl hpolicy⟩
    have hraise (hpages : pageFaults s (accessOf i s o) la = []) : raises i s .alignmentCheck :=
      exec_fault_of_resolve hreach ho (resolve_of_alignmentFault hne hs hpages hal)
    refine ⟨fun hall => hraise (pageFaults_eq_nil_iff.2 hall), ?_⟩
    by_cases hpages : pageFaults s (accessOf i s o) la = []
    · exact .inl (hraise hpages)
    · rcases resolve_of_pageFaults hs hpages with ⟨-, hresolve⟩ | ⟨c, -, hresolve⟩
      · exact .inl (exec_fault_of_resolve hreach ho hresolve)
      · exact .inr ⟨_, _, exec_fault_of_resolve hreach ho hresolve⟩

end Sys2Proof.Machine
end

section
/-! PROOFS. Written encodings of the test vectors (95_test_vectors.md), read back through the round trip of the encoder. -/

namespace Sys2Proof.Machine

/-- Bytes that are the whole encoding of an instruction decode to it and leave nothing. -/
theorem decode_of_encode_eq {mode : Mode} {i : Instr} {bs : List Byte} (hwf : i.wf mode = true) (hbytes : encode i = bs) :
    decode mode bs = .instr i [] := by
  rw [← hbytes, ← List.append_nil (encode i)]
  exact decodeEncodeRoundTrip mode i [] hwf

/-- Settles O3: the written bytes of each vector are what the encoder writes for its copy, which the decoder reads back (O1). -/
theorem writtenEncodingsDecode : Obligations.WrittenEncodingsDecode := by
  refine ⟨?l1, ?v1, ?v2, ?e1⟩ <;> exact decode_of_encode_eq (by decide) (by decide)

end Sys2Proof.Machine
end
